-- ==== Sys2Proof/Word.lean ====
section
/-! DEFINITION. The word types of the CORE (20_memory.md R66, 30_encoding.md R79). -/

namespace Sys2Proof

/-- A UART or USB byte, a register's content, a SUB field. -/
abbrev Byte := BitVec 8

/-- A DATA field, a control-line bitmask, BAUD, RES. -/
abbrev Half := BitVec 16

/-- A command word. -/
abbrev Word := BitVec 32

end Sys2Proof
end

