-- ==== Sys2Proof/Syntax.lean ====
section
/-! DEFINITION. The command words of the CORE: one constructor of `Instr` per row of the opcode map
(30_encoding.md R83), and the enumerations they use (00_scope.md R7, R14). -/

namespace Sys2Proof

/-- 00_scope.md R14. -/
inductive RunMode where
  | run
  | program
  deriving DecidableEq, Repr

/-- 00_scope.md R14. -/
inductive Role where
  | slave
  | master
  deriving DecidableEq, Repr

/-- Direction of an output-role pin: IN (not driven) or OUT (10_state.md R31). -/
inductive Direction where
  | inp
  | out
  deriving DecidableEq, Repr

/-- The four agents (00_scope.md R7). -/
inductive Agent where
  | fg
  | mux
  | sync
  | env
  deriving DecidableEq, Repr

/-- The classes S, C, H, E of a word (30_encoding.md R82). -/
inductive WordClass where
  | software
  | callback
  | handler
  | event
  deriving DecidableEq, Repr

/-- The operand shapes N, I, IB, IY, IM, B, Y, M (30_encoding.md R80). -/
inductive Shape where
  | n
  | i
  | ib
  | iy
  | im
  | b
  | y
  | m
  deriving DecidableEq, Repr

/-- One command word (30_encoding.md R83). An index operand is the whole SUB byte: whether it lies in
the word's legal set is `wellFormed` (WellFormed.lean) and the check 4 of 60_exceptions.md R186. -/
inductive Instr where
  -- 41_gpio.md
  | gpioRead (p : Byte)
  | gpioWrite (p : Byte) (b : Bool)
  | gpioDir (p : Byte) (d : Direction)
  -- 42_uart.md
  | uartInit (m : Half)
  | uartDeinit
  | uartTx (y : Byte)
  | uartIeOn
  | uartIeOff
  -- 43_timer.md, 44_edge.md, 48_system.md
  | tmrInit
  | extConfig (l : Byte) (e : Bool)
  | irqGlobal (b : Bool)
  -- 45_arbitration.md
  | arbDetectRunmode
  | arbDetectRole
  | arbUpdateRunmode (m : RunMode)
  | arbUpdateRole (r : Role)
  | arbAddrMatch
  -- 46_bridge.md
  | usbRecv (c : Byte)
  | usbSend (c : Byte) (y : Byte)
  | usbService (c : Byte)
  -- 48_system.md
  | regRead (n : Byte)
  -- 42_uart.md, class C
  | cbCls (c : Byte) (m : Half)
  | cbConnect
  | cbDisconnect
  -- class H
  | hExtA
  | hExtB
  | hTick
  | hUrx
  | hUtx
  | reti
  -- class E, 47_environment.md, 41_gpio.md, 43_timer.md
  | envPin (p : Byte) (b : Bool)
  | syncSample (p : Byte)
  | envUartRx (y : Byte)
  | envTxDone
  | envTick
  | envHostCls (c : Byte) (m : Half)
  | envHostConnect
  | envHostDisconnect
  | envHostByte (c : Byte) (y : Byte)
  | envHostTake (c : Byte)
  deriving DecidableEq, Repr

end Sys2Proof
end

