-- ==== Sys2Proof/WellFormed.lean ====
section
/-! DEFINITION. Which instructions are well formed: the index operand lies in the legal set of the
opcode map and the DATA condition holds (30_encoding.md R81, R83). -/

namespace Sys2Proof

/-- The pins of 10_state.md R28: 0..10 have the input role, 11..13 the output role. -/
def isPin (p : Byte) : Bool := decide (p.toNat ≤ 13)

def isInputPin (p : Byte) : Bool := decide (p.toNat ≤ 10)

def isOutputPin (p : Byte) : Bool := decide (11 ≤ p.toNat ∧ p.toNat ≤ 13)

/-- Channel ids 0 and 1, and line ids 0 and 1 (30_encoding.md R81). -/
def isChannel (c : Byte) : Bool := decide (c.toNat ≤ 1)

def isLine (l : Byte) : Bool := decide (l.toNat ≤ 1)

/-- Register numbers 0x00..0x0F (10_state.md R54). -/
def isRegister (n : Byte) : Bool := decide (n.toNat ≤ 15)

/-- 30_encoding.md R83, the columns "SUB legal" and "DATA". -/
def Instr.wellFormed : Instr → Bool
  | .gpioRead p => isPin p
  | .gpioWrite p _ => isOutputPin p
  | .gpioDir p _ => isOutputPin p
  | .uartInit m => decide (m ≠ 0)
  | .uartDeinit => true
  | .uartTx _ => true
  | .uartIeOn => true
  | .uartIeOff => true
  | .tmrInit => true
  | .extConfig l _ => isLine l
  | .irqGlobal _ => true
  | .arbDetectRunmode => true
  | .arbDetectRole => true
  | .arbUpdateRunmode _ => true
  | .arbUpdateRole _ => true
  | .arbAddrMatch => true
  | .usbRecv c => isChannel c
  | .usbSend c _ => isChannel c
  | .usbService c => isChannel c
  | .regRead n => isRegister n
  | .cbCls c _ => isChannel c
  | .cbConnect => true
  | .cbDisconnect => true
  | .hExtA => true
  | .hExtB => true
  | .hTick => true
  | .hUrx => true
  | .hUtx => true
  | .reti => true
  | .envPin p _ => isInputPin p
  | .syncSample p => isInputPin p
  | .envUartRx _ => true
  | .envTxDone => true
  | .envTick => true
  | .envHostCls c _ => isChannel c
  | .envHostConnect => true
  | .envHostDisconnect => true
  | .envHostByte c _ => isChannel c
  | .envHostTake c => isChannel c

end Sys2Proof
end

