-- ==== Sys2Proof/Decode.lean ====
section
/-! DEFINITION. The decoder and the encoder of command words, from the formats and the opcode map of
30_encoding.md (R79 to R90), the codes of 00_scope.md R14, and the byte order of 20_memory.md R62. -/

namespace Sys2Proof

/-! ## Codes of the enumerated operands (00_scope.md R14) -/

/-- PROGRAM = 1, RUN = 0. -/
def RunMode.bit : RunMode → Bool
  | .program => true
  | .run => false

def RunMode.ofBit (b : Bool) : RunMode := if b then .program else .run

/-- MASTER = 1, SLAVE = 0. -/
def Role.bit : Role → Bool
  | .master => true
  | .slave => false

def Role.ofBit (b : Bool) : Role := if b then .master else .slave

/-- OUT = 1, IN = 0. -/
def Direction.bit : Direction → Bool
  | .out => true
  | .inp => false

def Direction.ofBit (b : Bool) : Direction := if b then .out else .inp

/-! ## Fields of a word (30_encoding.md R79, R81) -/

/-- OPC = bits 31:24. -/
def opcField (w : Word) : Byte := w.extractLsb' 24 8

/-- SUB = bits 23:16. -/
def subField (w : Word) : Byte := w.extractLsb' 16 8

/-- DATA = bits 15:0. -/
def dataField (w : Word) : Half := w.extractLsb' 0 16

/-- The bit operand, DATA[0]. -/
def dataBit (w : Word) : Bool := w.getLsbD 0

/-- The byte operand, DATA[7:0]. -/
def dataByte (w : Word) : Byte := w.extractLsb' 0 8

/-- DATA of a bit operand: DATA[0] = b, DATA[15:1] = 0. -/
def bitData (b : Bool) : Half := (BitVec.ofBool b).setWidth 16

/-- DATA of a byte operand: DATA[7:0] = y, DATA[15:8] = 0. -/
def byteData (y : Byte) : Half := y.setWidth 16

/-! ## The opcode map (30_encoding.md R83), column by column -/

/-- OPC. -/
def Instr.opc : Instr → Byte
  | .gpioRead _ => 0x01
  | .gpioWrite _ _ => 0x02
  | .gpioDir _ _ => 0x03
  | .uartInit _ => 0x10
  | .uartDeinit => 0x11
  | .uartTx _ => 0x12
  | .uartIeOn => 0x13
  | .uartIeOff => 0x14
  | .tmrInit => 0x20
  | .extConfig _ _ => 0x28
  | .irqGlobal _ => 0x29
  | .arbDetectRunmode => 0x30
  | .arbDetectRole => 0x31
  | .arbUpdateRunmode _ => 0x32
  | .arbUpdateRole _ => 0x33
  | .arbAddrMatch => 0x34
  | .usbRecv _ => 0x40
  | .usbSend _ _ => 0x41
  | .usbService _ => 0x42
  | .regRead _ => 0x50
  | .cbCls _ _ => 0x60
  | .cbConnect => 0x61
  | .cbDisconnect => 0x62
  | .hExtA => 0x70
  | .hExtB => 0x71
  | .hTick => 0x72
  | .hUrx => 0x73
  | .hUtx => 0x74
  | .reti => 0x7F
  | .envPin _ _ => 0x80
  | .syncSample _ => 0x81
  | .envUartRx _ => 0x82
  | .envTxDone => 0x83
  | .envTick => 0x84
  | .envHostCls _ _ => 0x85
  | .envHostConnect => 0x86
  | .envHostDisconnect => 0x87
  | .envHostByte _ _ => 0x88
  | .envHostTake _ => 0x89

/-- The class column (30_encoding.md R82). -/
def Instr.wordClass : Instr → WordClass
  | .gpioRead _ => .software
  | .gpioWrite _ _ => .software
  | .gpioDir _ _ => .software
  | .uartInit _ => .software
  | .uartDeinit => .software
  | .uartTx _ => .software
  | .uartIeOn => .software
  | .uartIeOff => .software
  | .tmrInit => .software
  | .extConfig _ _ => .software
  | .irqGlobal _ => .software
  | .arbDetectRunmode => .software
  | .arbDetectRole => .software
  | .arbUpdateRunmode _ => .software
  | .arbUpdateRole _ => .software
  | .arbAddrMatch => .software
  | .usbRecv _ => .software
  | .usbSend _ _ => .software
  | .usbService _ => .software
  | .regRead _ => .software
  | .cbCls _ _ => .callback
  | .cbConnect => .callback
  | .cbDisconnect => .callback
  | .hExtA => .handler
  | .hExtB => .handler
  | .hTick => .handler
  | .hUrx => .handler
  | .hUtx => .handler
  | .reti => .handler
  | .envPin _ _ => .event
  | .syncSample _ => .event
  | .envUartRx _ => .event
  | .envTxDone => .event
  | .envTick => .event
  | .envHostCls _ _ => .event
  | .envHostConnect => .event
  | .envHostDisconnect => .event
  | .envHostByte _ _ => .event
  | .envHostTake _ => .event

/-- The shape column (30_encoding.md R80). -/
def Instr.shape : Instr → Shape
  | .gpioRead _ => .i
  | .gpioWrite _ _ => .ib
  | .gpioDir _ _ => .ib
  | .uartInit _ => .m
  | .uartDeinit => .n
  | .uartTx _ => .y
  | .uartIeOn => .n
  | .uartIeOff => .n
  | .tmrInit => .n
  | .extConfig _ _ => .ib
  | .irqGlobal _ => .b
  | .arbDetectRunmode => .n
  | .arbDetectRole => .n
  | .arbUpdateRunmode _ => .b
  | .arbUpdateRole _ => .b
  | .arbAddrMatch => .n
  | .usbRecv _ => .i
  | .usbSend _ _ => .iy
  | .usbService _ => .i
  | .regRead _ => .i
  | .cbCls _ _ => .im
  | .cbConnect => .n
  | .cbDisconnect => .n
  | .hExtA => .n
  | .hExtB => .n
  | .hTick => .n
  | .hUrx => .n
  | .hUtx => .n
  | .reti => .n
  | .envPin _ _ => .ib
  | .syncSample _ => .i
  | .envUartRx _ => .y
  | .envTxDone => .n
  | .envTick => .n
  | .envHostCls _ _ => .im
  | .envHostConnect => .n
  | .envHostDisconnect => .n
  | .envHostByte _ _ => .iy
  | .envHostTake _ => .i

/-- The index operand, SUB (0 when unused). -/
def Instr.sub : Instr → Byte
  | .gpioRead i => i
  | .gpioWrite i _ => i
  | .gpioDir i _ => i
  | .uartInit _ => 0
  | .uartDeinit => 0
  | .uartTx _ => 0
  | .uartIeOn => 0
  | .uartIeOff => 0
  | .tmrInit => 0
  | .extConfig i _ => i
  | .irqGlobal _ => 0
  | .arbDetectRunmode => 0
  | .arbDetectRole => 0
  | .arbUpdateRunmode _ => 0
  | .arbUpdateRole _ => 0
  | .arbAddrMatch => 0
  | .usbRecv i => i
  | .usbSend i _ => i
  | .usbService i => i
  | .regRead i => i
  | .cbCls i _ => i
  | .cbConnect => 0
  | .cbDisconnect => 0
  | .hExtA => 0
  | .hExtB => 0
  | .hTick => 0
  | .hUrx => 0
  | .hUtx => 0
  | .reti => 0
  | .envPin i _ => i
  | .syncSample i => i
  | .envUartRx _ => 0
  | .envTxDone => 0
  | .envTick => 0
  | .envHostCls i _ => i
  | .envHostConnect => 0
  | .envHostDisconnect => 0
  | .envHostByte i _ => i
  | .envHostTake i => i

/-- The value operand, DATA (0 when unused). -/
def Instr.data : Instr → Half
  | .gpioRead _ => 0
  | .gpioWrite _ v => bitData v
  | .gpioDir _ v => bitData v.bit
  | .uartInit v => v
  | .uartDeinit => 0
  | .uartTx v => byteData v
  | .uartIeOn => 0
  | .uartIeOff => 0
  | .tmrInit => 0
  | .extConfig _ v => bitData v
  | .irqGlobal v => bitData v
  | .arbDetectRunmode => 0
  | .arbDetectRole => 0
  | .arbUpdateRunmode v => bitData v.bit
  | .arbUpdateRole v => bitData v.bit
  | .arbAddrMatch => 0
  | .usbRecv _ => 0
  | .usbSend _ v => byteData v
  | .usbService _ => 0
  | .regRead _ => 0
  | .cbCls _ v => v
  | .cbConnect => 0
  | .cbDisconnect => 0
  | .hExtA => 0
  | .hExtB => 0
  | .hTick => 0
  | .hUrx => 0
  | .hUtx => 0
  | .reti => 0
  | .envPin _ v => bitData v
  | .syncSample _ => 0
  | .envUartRx v => byteData v
  | .envTxDone => 0
  | .envTick => 0
  | .envHostCls _ v => v
  | .envHostConnect => 0
  | .envHostDisconnect => 0
  | .envHostByte _ v => byteData v
  | .envHostTake _ => 0

/-- The mask of fixed bits of a shape, OPC plus the reserved bits (30_encoding.md R80). -/
def Shape.mask : Shape → Word
  | .n => 0xFFFFFFFF
  | .i => 0xFF00FFFF
  | .ib => 0xFF00FFFE
  | .iy => 0xFF00FF00
  | .im => 0xFF000000
  | .b => 0xFFFFFFFE
  | .y => 0xFFFFFF00
  | .m => 0xFFFF0000

/-- match(X) = OPC(X) << 24 (30_encoding.md R80). -/
def matchWord (opc : Byte) : Word := opc ++ (0 : BitVec 24)

/-! ## Decoding (30_encoding.md R85, R95) -/

/-- Why a word is no operation with operands: check 1 and check 3 of 60_exceptions.md R186. -/
inductive DecodeError where
  | illegalOpc
  | reservedBits
  deriving DecidableEq, Repr

/-- Check 1 of 30_encoding.md R85: the row of the opcode map that the OPC field names, with its operand
fields read (30_encoding.md R81); `none` for every OPC outside the map (R87). -/
def readFields (w : Word) : Option Instr :=
  match (opcField w).toNat with
  | 0x01 => some (.gpioRead (subField w))
  | 0x02 => some (.gpioWrite (subField w) (dataBit w))
  | 0x03 => some (.gpioDir (subField w) (Direction.ofBit (dataBit w)))
  | 0x10 => some (.uartInit (dataField w))
  | 0x11 => some .uartDeinit
  | 0x12 => some (.uartTx (dataByte w))
  | 0x13 => some .uartIeOn
  | 0x14 => some .uartIeOff
  | 0x20 => some .tmrInit
  | 0x28 => some (.extConfig (subField w) (dataBit w))
  | 0x29 => some (.irqGlobal (dataBit w))
  | 0x30 => some .arbDetectRunmode
  | 0x31 => some .arbDetectRole
  | 0x32 => some (.arbUpdateRunmode (RunMode.ofBit (dataBit w)))
  | 0x33 => some (.arbUpdateRole (Role.ofBit (dataBit w)))
  | 0x34 => some .arbAddrMatch
  | 0x40 => some (.usbRecv (subField w))
  | 0x41 => some (.usbSend (subField w) (dataByte w))
  | 0x42 => some (.usbService (subField w))
  | 0x50 => some (.regRead (subField w))
  | 0x60 => some (.cbCls (subField w) (dataField w))
  | 0x61 => some .cbConnect
  | 0x62 => some .cbDisconnect
  | 0x70 => some .hExtA
  | 0x71 => some .hExtB
  | 0x72 => some .hTick
  | 0x73 => some .hUrx
  | 0x74 => some .hUtx
  | 0x7F => some .reti
  | 0x80 => some (.envPin (subField w) (dataBit w))
  | 0x81 => some (.syncSample (subField w))
  | 0x82 => some (.envUartRx (dataByte w))
  | 0x83 => some .envTxDone
  | 0x84 => some .envTick
  | 0x85 => some (.envHostCls (subField w) (dataField w))
  | 0x86 => some .envHostConnect
  | 0x87 => some .envHostDisconnect
  | 0x88 => some (.envHostByte (subField w) (dataByte w))
  | 0x89 => some (.envHostTake (subField w))
  | _ => none

/-- Check 3 of 30_encoding.md R85: `(w & mask(X)) = match(X)`. -/
def reservedClear (i : Instr) (w : Word) : Bool :=
  decide (w &&& i.shape.mask = matchWord i.opc)

/-- The operation and operands of a word, or why there is none. Total on every word (R95). -/
def decode (w : Word) : Except DecodeError Instr :=
  match readFields w with
  | none => .error .illegalOpc
  | some i => if reservedClear i w then .ok i else .error .reservedBits

/-! ## Encoding (30_encoding.md R79) -/

/-- OPC, SUB and DATA put together. -/
def encode (i : Instr) : Word := i.opc ++ i.sub ++ i.data

/-! ## Serialized words (20_memory.md R62): bits 7:0 in byte 0, bits 31:24 in byte 3 -/

def serialize (w : Word) : List Byte :=
  [w.extractLsb' 0 8, w.extractLsb' 8 8, w.extractLsb' 16 8, w.extractLsb' 24 8]

/-- The word of the first four bytes and the bytes after it; `none` for a partial word, which no decoder
ever sees (20_memory.md R64). -/
def wordOfBytes : List Byte → Option (Word × List Byte)
  | b0 :: b1 :: b2 :: b3 :: rest => some (b3 ++ b2 ++ b1 ++ b0, rest)
  | _ => none

/-- The decoder over bytes: the operation and the bytes after its word. -/
def decodeBytes (bs : List Byte) : Option (Except DecodeError Instr × List Byte) :=
  (wordOfBytes bs).map fun (w, rest) => (decode w, rest)

/-- The word of a row of the opcode table, its bits above `nbits` zero. -/
def tableWord (nbits w : Nat) : Word := BitVec.ofNat 32 (w % 2 ^ nbits)

/-- What the decoder reads from an instruction whose bits are `w`, laid out as serialized bytes. -/
def decodeTableWord (nbits w : Nat) : Option Instr :=
  match decodeBytes (serialize (tableWord nbits w)) with
  | some (.ok i, _) => some i
  | _ => none

end Sys2Proof
end

