-- ==== Sys2Proof/Config.lean ====
section
/-! DEFINITION. What an implementation fixes (00_scope.md R10) and the free values of the machine
(00_scope.md R13, `draw()`). -/

namespace Sys2Proof

/-- The five interrupt sources; the vector numbers 0 to 4 are in this order (60_exceptions.md R189). -/
inductive Source where
  | extA
  | extB
  | tick
  | urx
  | utx
  deriving DecidableEq, Repr

/-- P_RX_GATE_SRC (00_scope.md R10). -/
inductive RxGateSrc where
  | data
  | last
  deriving DecidableEq, Repr

/-- The named parameters of 00_scope.md R10. Fixed for a machine: no step changes them. -/
structure Params where
  /-- P_PRSW_PROGRAM_LEVEL -/
  prswProgramLevel : Bool
  /-- P_MSSW_MASTER_LEVEL -/
  msswMasterLevel : Bool
  /-- P_RX_GATE_SRC -/
  rxGateSrc : RxGateSrc
  /-- P_IRQ_PRIO, first source first -/
  irqPrio : List Source
  /-- P_BOOT_ARBITRATE -/
  bootArbitrate : Bool
  /-- P_BAUD / 100, the operand of UART_INIT -/
  baud : Half
  /-- P_USBQ_CAP, `none` for unbounded -/
  usbqCap : Option Nat
  /-- P_TICK_HZ, timing only -/
  tickHz : Nat
  /-- P_FCLK in Hz, timing only; `none` where it is not given -/
  fclkHz : Option Nat
  /-- P_SYNC_STAGES, timing only -/
  syncStages : Nat
  deriving DecidableEq, Repr

/-- The defaults of 00_scope.md R10. P_BAUD has none there: DESIGN CHOICE 96, that is 9600 baud, the
value the test vectors of 95_test_vectors.md use where one is needed; unsafe (log 5). -/
def Params.default : Params where
  prswProgramLevel := true
  msswMasterLevel := true
  rxGateSrc := .data
  irqPrio := [.extA, .extB, .tick, .urx, .utx]
  bootArbitrate := false
  baud := 96
  usbqCap := none
  tickHz := 200
  fclkHz := none
  syncStages := 2

/-- The legal values of 00_scope.md R10. -/
def Params.legal (c : Params) : Bool :=
  decide (c.irqPrio.Nodup) && decide (c.irqPrio.length = 5) && decide (c.baud ≠ 0)
    && c.usbqCap.all (fun n => decide (1 ≤ n)) && decide (1 ≤ c.tickHz)
    && c.fclkHz.all (fun n => decide (1 ≤ n)) && decide (1 ≤ c.syncStages)

namespace Config

/-- The free bit of the `n`-th draw: `draw({0,1})` and the choice of `draw({old, y})` (log 7). -/
opaque drawBit : Nat → Bool

/-- The free byte of the `n`-th draw (10_state.md R55, log 7). -/
opaque drawByte : Nat → Byte

end Config

end Sys2Proof
end

