-- ==== Sys2Proof/Machine/Script.lean ====
section
/-! DEFINITION. FG's script language, the pseudo-instructions and the reference script
(30_encoding.md R92, R93; 70_reset_and_hazards.md R213; 46_bridge.md R163). -/

namespace Sys2Proof.Machine

/-- A statement of FG's script, its labels resolved to statement indices (30_encoding.md R92):
a literal word; a word whose value operand is taken from RES at issue; BNONE; GOTO. -/
inductive Stmt where
  | word (w : Word)
  | resWord (w : Word)
  | bnone (target : Nat)
  | goto (target : Nat)
  deriving DecidableEq, Repr

/-- `ARBITRATE_ONCE` (30_encoding.md R93). -/
def arbitrateOnce : List Stmt :=
  [.word 0x30000000, .resWord 0x32000000, .word 0x31000000, .resWord 0x33000000]

/-- `CRIT_BEGIN` = `IRQ_GLOBAL 0` (30_encoding.md R93, 48_system.md R180). -/
def critBegin : List Stmt := [.word 0x29000000]

/-- `CRIT_END` = `IRQ_GLOBAL 1` (30_encoding.md R93, 48_system.md R180). -/
def critEnd : List Stmt := [.word 0x29000001]

/-- `BOOT`: the three directions, the arbitration pass only if P_BOOT_ARBITRATE, the timer, the two lines,
then the global enable (30_encoding.md R93, 70_reset_and_hazards.md R213, R214). -/
def bootScript (c : Params) : List Stmt :=
  [.word 0x030B0001, .word 0x030C0001, .word 0x030D0001]
    ++ (if c.bootArbitrate then arbitrateOnce else [])
    ++ [.word 0x20000000, .word 0x28000001, .word 0x28010001, .word 0x29000001]

/-- `LOOP_ITER` placed at statement index `at_`; its label L1 is the index `at_ + 3` (30_encoding.md R93). -/
def loopIter (at_ : Nat) : List Stmt :=
  [.word 0x40000000, .bnone (at_ + 3), .resWord 0x12000000, .word 0x42000000, .word 0x42010000]

/-- The reference script: `BOOT`, then `MAIN: LOOP_ITER; GOTO MAIN` (70_reset_and_hazards.md R213,
46_bridge.md R163). -/
def referenceScript (c : Params) : List Stmt :=
  bootScript c ++ loopIter (bootScript c).length ++ [.goto (bootScript c).length]

end Sys2Proof.Machine
end

