-- ==== Sys2Proof/Machine/State.lean ====
section
/-! DEFINITION. The state of the CORE (10_state.md R23 to R48, R53, R59), the reasons a step can stop,
and the machine right after reset. -/

namespace Sys2Proof.Machine

/-! ## Names -/

/-- The input-role pins 0..10 (10_state.md R28). -/
inductive InPin where
  | prsw
  | mssw
  | bus0
  | bus1
  | bus2
  | knob0
  | knob1
  | knob2
  | knob3
  | linea
  | lineb
  deriving DecidableEq, Repr

/-- The output-role pins 11..13 (10_state.md R28). -/
inductive OutPin where
  | prout
  | msout
  | csout
  deriving DecidableEq, Repr

/-- The USB channels: data = 0, control = 1 (46_bridge.md R150). -/
inductive Chan where
  | data
  | control
  deriving DecidableEq, Repr

/-- The external interrupt lines: Line A = 0, Line B = 1 (30_encoding.md R81). -/
inductive Line where
  | a
  | b
  deriving DecidableEq, Repr

/-- CTX (10_state.md R42). -/
inductive Ctx where
  | fg
  | handler (v : Source)
  deriving DecidableEq, Repr

/-- The fault codes 0x01 to 0x08, in order (60_exceptions.md R183). -/
inductive FaultCode where
  | illegalOpc
  | badOperand
  | badPin
  | badChannel
  | badReg
  | context
  | ownership
  | model
  deriving DecidableEq, Repr

/-- A host event not yet delivered as a callback (10_state.md R47). -/
inductive UsbEvent where
  | clsChg (c : Chan) (mask : Half)
  | connect
  | disconnect
  deriving DecidableEq, Repr

/-- An entry of the event history (10_state.md R53). `usbrecv c none` is `usbrecv(c, NONE)`. -/
inductive Event where
  | pinwrite (p : OutPin) (v : Bool)
  | dirwrite (p : OutPin) (d : Direction)
  | dispatch (v : Source)
  | reti (v : Source)
  | uarttx (b : Byte)
  | uartline (b : Byte)
  | usbsend (c : Chan) (b : Byte)
  | usbrecv (c : Chan) (r : Option Byte)
  | drop (b : Byte)
  | fault (code : Byte)
  | word (a : Agent) (w : Word)
  deriving DecidableEq, Repr

/-- One entry of the schedule: which agent steps, or reset (log 1). `word` is MUX, SYNC or ENV presenting a
command word (FG's words come from its script alone); `script` is FG's next script statement, `deliver` a
callback delivery (46_bridge.md R162), `cb2` the second step of CB_CLS (42_uart.md R113), `mux` a step of MUX
(60_exceptions.md R193). -/
inductive Action where
  | word (a : Agent) (w : Word)
  | script
  | deliver
  | cb2
  | mux
  | reset
  deriving DecidableEq, Repr

/-! ## Small records -/

/-- One level per input-role pin (10_state.md R29, R30). -/
structure InLevels where
  prsw : Bool
  mssw : Bool
  bus0 : Bool
  bus1 : Bool
  bus2 : Bool
  knob0 : Bool
  knob1 : Bool
  knob2 : Bool
  knob3 : Bool
  linea : Bool
  lineb : Bool
  deriving DecidableEq, Repr

/-- DIR of the output-role pins (10_state.md R31). -/
structure OutDirs where
  prout : Direction
  msout : Direction
  csout : Direction
  deriving DecidableEq, Repr

/-- LAT of the output-role pins; `none` is never written since reset (10_state.md R32). -/
structure OutLatches where
  prout : Option Bool
  msout : Option Bool
  csout : Option Bool
  deriving DecidableEq, Repr

/-! ## The state -/

/-- The state of the CORE and its agents. The last five fields are the model's own (INVENTORY.md). -/
structure State where
  /-- PIN, R29 -/
  pin : InLevels
  /-- SYNC, R30 -/
  sync : InLevels
  /-- DIR, R31 -/
  dir : OutDirs
  /-- LAT, R32 -/
  lat : OutLatches
  /-- UART_EN, R36 -/
  uartEn : Bool
  /-- UART_IE, R36 -/
  uartIe : Bool
  /-- TMR_EN, R36 -/
  tmrEn : Bool
  /-- EXTA_EN, R36 -/
  extaEn : Bool
  /-- EXTB_EN, R36 -/
  extbEn : Bool
  /-- GIE, R36 -/
  gie : Bool
  /-- PEND_EXTA, R37 -/
  pendExta : Bool
  /-- PEND_EXTB, R37 -/
  pendExtb : Bool
  /-- PEND_TICK, R37 -/
  pendTick : Bool
  /-- RXFULL, R37 -/
  rxfull : Bool
  /-- TXC, R37 -/
  txc : Bool
  /-- RXDATA, R38 -/
  rxdata : Option Byte
  /-- TXBUF, R38 -/
  txbuf : Option Byte
  /-- BAUD, R39 -/
  baud : Half
  /-- TXI, R40 -/
  txi : Bool
  /-- RXI, R40 -/
  rxi : Bool
  /-- CLS[0], R41 -/
  cls0 : Half
  /-- CLS[1], R41 -/
  cls1 : Half
  /-- CLSLAST, R41 -/
  clsLast : Half
  /-- CTX, R42 -/
  ctx : Ctx
  /-- BOOTED, R43 -/
  booted : Bool
  /-- FAULT, R44 -/
  fault : Byte
  /-- RES, R45 -/
  res : Option Half
  /-- INQ[0], R46 -/
  inq0 : List Byte
  /-- INQ[1], R46 -/
  inq1 : List Byte
  /-- OUTQ[0], R46 -/
  outq0 : List Byte
  /-- OUTQ[1], R46 -/
  outq1 : List Byte
  /-- HOSTCONN, R47 -/
  hostconn : Bool
  /-- EVQ, R47, oldest first -/
  evq : List UsbEvent
  /-- UTXLINE, R48, oldest first -/
  utxline : List Byte
  /-- FGPC, R26 -/
  fgpc : Nat
  /-- FGCB, R26 -/
  fgcb : Option Half
  /-- HPC, R27 -/
  hpc : Option Nat
  /-- T_MODE, R24 -/
  tMode : Option RunMode
  /-- T_ROLE, R24 -/
  tRole : Option Role
  /-- T_BUS, R24 -/
  tBus : Option (BitVec 3)
  /-- T_KNOB, R24 -/
  tKnob : Option (BitVec 4)
  /-- T_MATCH, R24 -/
  tMatch : Option Bool
  /-- T_BYTE, R24 -/
  tByte : Option Byte
  /-- HIST, R53, oldest first; read by no rule -/
  hist : List Event
  /-- The parameters of the machine (00_scope.md R10); changed by no step. -/
  cfg : Params
  /-- FG's script (10_state.md R26); changed by no step (20_memory.md R75). -/
  script : List Stmt
  /-- The schedule still to come (log 1). -/
  sched : List Action
  /-- How many free values have been drawn (log 7). -/
  draws : Nat
  /-- How many turns the default order has given while nothing was scheduled (log 2). -/
  round : Nat
  deriving DecidableEq, Repr

/-! ## Why a step can stop -/

/-- The machine stops. -/
inductive Fault where
  /-- Raised by every step but reset while FAULT ≠ 0: no agent has an enabled step until reset
  (60_exceptions.md R185). Safe: the spec's machine is frozen there too. -/
  | frozen (code : Byte)
  deriving DecidableEq, Repr

/-- The step is no step of the machine. -/
inductive Refusal where
  /-- Raised by a dispatch arm that has no meaning yet; no arm of this model does. Safe. -/
  | notModelled (mnemonic : String)
  /-- Raised by an E word whose guard is false: it is not a step, and a model rejects the schedule that
  contains it (47_environment.md R165). Safe. -/
  | guardFalse
  /-- Raised when the scheduled agent has no enabled step: FG while a handler runs (00_scope.md R8), at the
  end of its script, presenting a word that is not its script's (10_state.md R26), or issuing a word inside a
  callback (46_bridge.md R162); a delivery with EVQ empty; MUX with nothing dispatchable (60_exceptions.md
  R193). Safe (log 10). -/
  | agentHasNoStep
  /-- Raised by a script statement that 30_encoding.md R92 does not have: a `<RES>` form of a word with no
  bit or byte value operand. Safe (log 17). -/
  | notAStatement
  deriving DecidableEq, Repr

/-! ## Reset -/

/-- Pin levels all low. -/
def InLevels.low : InLevels :=
  ⟨false, false, false, false, false, false, false, false, false, false, false⟩

/-- The table of 10_state.md R59: every field at its reset value, with the pin levels, parameters, script,
schedule and the two counters, which reset does not change, as given. -/
def State.resetWith (pin : InLevels) (cfg : Params) (script : List Stmt) (sched : List Action)
    (draws round : Nat) : State where
  pin := pin
  sync := pin
  dir := ⟨.inp, .inp, .inp⟩
  lat := ⟨none, none, none⟩
  uartEn := false
  uartIe := false
  tmrEn := false
  extaEn := false
  extbEn := false
  gie := false
  pendExta := false
  pendExtb := false
  pendTick := false
  rxfull := false
  txc := false
  rxdata := none
  txbuf := none
  baud := 0
  txi := false
  rxi := false
  cls0 := 0
  cls1 := 0
  clsLast := 0
  ctx := .fg
  booted := false
  fault := 0
  res := none
  inq0 := []
  inq1 := []
  outq0 := []
  outq1 := []
  hostconn := false
  evq := []
  utxline := []
  fgpc := 0
  fgcb := none
  hpc := none
  tMode := none
  tRole := none
  tBus := none
  tKnob := none
  tMatch := none
  tByte := none
  hist := []
  cfg := cfg
  script := script
  sched := sched
  draws := draws
  round := round

/-- The machine after power-on reset: R59 with every pin low (log 6), the default parameters (logs 4, 5),
the reference script (log 3), nothing scheduled (logs 1, 2) and nothing drawn (log 7). -/
def State.reset : State :=
  State.resetWith .low .default (referenceScript .default) [] 0 0

end Sys2Proof.Machine
end

