-- ==== Sys2Proof/Machine/Operands.lean ====
section
/-! DEFINITION. Operand forms: index operands looked up in their tables (10_state.md R28, 30_encoding.md
R81), the accessors of the per-pin and per-channel fields, and the operand checks 4 and 5 of
60_exceptions.md R186. -/

namespace Sys2Proof.Machine

/-! ## Index operands -/

/-- The input-role pins by id (10_state.md R28). -/
def InPin.ofId (p : Byte) : Option InPin :=
  match p.toNat with
  | 0 => some .prsw
  | 1 => some .mssw
  | 2 => some .bus0
  | 3 => some .bus1
  | 4 => some .bus2
  | 5 => some .knob0
  | 6 => some .knob1
  | 7 => some .knob2
  | 8 => some .knob3
  | 9 => some .linea
  | 10 => some .lineb
  | _ => none

/-- The output-role pins by id (10_state.md R28). -/
def OutPin.ofId (p : Byte) : Option OutPin :=
  match p.toNat with
  | 11 => some .prout
  | 12 => some .msout
  | 13 => some .csout
  | _ => none

/-- Channel ids: data = 0, control = 1 (30_encoding.md R81). -/
def Chan.ofId (c : Byte) : Option Chan :=
  match c.toNat with
  | 0 => some .data
  | 1 => some .control
  | _ => none

def Chan.id : Chan → Byte
  | .data => 0
  | .control => 1

/-- Line ids: Line A = 0, Line B = 1 (30_encoding.md R81). -/
def Line.ofId (l : Byte) : Option Line :=
  match l.toNat with
  | 0 => some .a
  | 1 => some .b
  | _ => none

/-! ## Per-pin and per-channel fields -/

def InLevels.get (l : InLevels) : InPin → Bool
  | .prsw => l.prsw
  | .mssw => l.mssw
  | .bus0 => l.bus0
  | .bus1 => l.bus1
  | .bus2 => l.bus2
  | .knob0 => l.knob0
  | .knob1 => l.knob1
  | .knob2 => l.knob2
  | .knob3 => l.knob3
  | .linea => l.linea
  | .lineb => l.lineb

def InLevels.set (l : InLevels) (p : InPin) (b : Bool) : InLevels :=
  match p with
  | .prsw => { l with prsw := b }
  | .mssw => { l with mssw := b }
  | .bus0 => { l with bus0 := b }
  | .bus1 => { l with bus1 := b }
  | .bus2 => { l with bus2 := b }
  | .knob0 => { l with knob0 := b }
  | .knob1 => { l with knob1 := b }
  | .knob2 => { l with knob2 := b }
  | .knob3 => { l with knob3 := b }
  | .linea => { l with linea := b }
  | .lineb => { l with lineb := b }

def OutLatches.get (l : OutLatches) : OutPin → Option Bool
  | .prout => l.prout
  | .msout => l.msout
  | .csout => l.csout

def OutLatches.set (l : OutLatches) (p : OutPin) (v : Option Bool) : OutLatches :=
  match p with
  | .prout => { l with prout := v }
  | .msout => { l with msout := v }
  | .csout => { l with csout := v }

def OutDirs.get (l : OutDirs) : OutPin → Direction
  | .prout => l.prout
  | .msout => l.msout
  | .csout => l.csout

def OutDirs.set (l : OutDirs) (p : OutPin) (d : Direction) : OutDirs :=
  match p with
  | .prout => { l with prout := d }
  | .msout => { l with msout := d }
  | .csout => { l with csout := d }

/-- CLS[c] (10_state.md R41). -/
def State.cls (s : State) : Chan → Half
  | .data => s.cls0
  | .control => s.cls1

def State.setCls (s : State) (c : Chan) (m : Half) : State :=
  match c with
  | .data => { s with cls0 := m }
  | .control => { s with cls1 := m }

/-- INQ[c] (10_state.md R46). -/
def State.inq (s : State) : Chan → List Byte
  | .data => s.inq0
  | .control => s.inq1

def State.setInq (s : State) (c : Chan) (q : List Byte) : State :=
  match c with
  | .data => { s with inq0 := q }
  | .control => { s with inq1 := q }

/-- OUTQ[c] (10_state.md R46). -/
def State.outq (s : State) : Chan → List Byte
  | .data => s.outq0
  | .control => s.outq1

def State.setOutq (s : State) (c : Chan) (q : List Byte) : State :=
  match c with
  | .data => { s with outq0 := q }
  | .control => { s with outq1 := q }

/-! ## Values -/

/-- The number whose bit i is the i-th entry. -/
def packBits : List Bool → Nat
  | [] => 0
  | b :: rest => b.toNat + 2 * packBits rest

/-- `zext_16` of a bit (30_encoding.md R88). -/
def zextBit (b : Bool) : Half := (BitVec.ofBool b).setWidth 16

/-- `zext_16` of a byte (30_encoding.md R88). -/
def zextByte (y : Byte) : Half := y.setWidth 16

/-- The result of USB_RECV for NONE (30_encoding.md R88). -/
def resNone : Half := 0x0100

/-- FieldRead(BUS): bit i is SYNC[BUSi] (41_gpio.md R98). -/
def State.fieldBus (s : State) : BitVec 3 :=
  BitVec.ofNat 3 (packBits [s.sync.bus0, s.sync.bus1, s.sync.bus2])

/-- FieldRead(KNOB): bit i is SYNC[KNOBi] (41_gpio.md R98). -/
def State.fieldKnob (s : State) : BitVec 4 :=
  BitVec.ofNat 4 (packBits [s.sync.knob0, s.sync.knob1, s.sync.knob2, s.sync.knob3])

/-- The value operand of a `<RES>` statement put into its word by the word's shape: `RES[0]` as the bit
operand, `RES[7:0]` as the byte operand; `none` for a shape that has neither (30_encoding.md R92). -/
def fillRes (w : Word) (r : Half) : Option Word :=
  match (readFields w).map Instr.shape with
  | some .b => some ((w &&& 0xFFFF0000) ||| (bitData (r.getLsbD 0)).setWidth 32)
  | some .ib => some ((w &&& 0xFFFF0000) ||| (bitData (r.getLsbD 0)).setWidth 32)
  | some .y => some ((w &&& 0xFFFF0000) ||| (byteData (r.extractLsb' 0 8)).setWidth 32)
  | some .iy => some ((w &&& 0xFFFF0000) ||| (byteData (r.extractLsb' 0 8)).setWidth 32)
  | _ => none

/-! ## Operand checks -/

/-- `none` where the index is legal, else the fault named in the opcode map. -/
def checkIndex (legal : Bool) (c : FaultCode) : Option FaultCode :=
  if legal then none else some c

/-- Checks 4 and 5 of 60_exceptions.md R186: the first of SUB and DATA that is outside the legal set of the
opcode map gives the fault the map names (30_encoding.md R83). -/
def operandFault : Instr → Option FaultCode
  | .gpioRead p => checkIndex ((InPin.ofId p).isSome || (OutPin.ofId p).isSome) .badPin
  | .gpioWrite p _ => checkIndex (OutPin.ofId p).isSome .badPin
  | .gpioDir p _ => checkIndex (OutPin.ofId p).isSome .badPin
  | .uartInit m => checkIndex (decide (m ≠ 0)) .badOperand
  | .uartDeinit => none
  | .uartTx _ => none
  | .uartIeOn => none
  | .uartIeOff => none
  | .tmrInit => none
  | .extConfig l _ => checkIndex (Line.ofId l).isSome .badOperand
  | .irqGlobal _ => none
  | .arbDetectRunmode => none
  | .arbDetectRole => none
  | .arbUpdateRunmode _ => none
  | .arbUpdateRole _ => none
  | .arbAddrMatch => none
  | .usbRecv c => checkIndex (Chan.ofId c).isSome .badChannel
  | .usbSend c _ => checkIndex (Chan.ofId c).isSome .badChannel
  | .usbService c => checkIndex (Chan.ofId c).isSome .badChannel
  | .regRead n => checkIndex (decide (n.toNat ≤ 15)) .badReg
  | .cbCls c _ => checkIndex (Chan.ofId c).isSome .badChannel
  | .cbConnect => none
  | .cbDisconnect => none
  | .hExtA => none
  | .hExtB => none
  | .hTick => none
  | .hUrx => none
  | .hUtx => none
  | .reti => none
  | .envPin p _ => checkIndex (InPin.ofId p).isSome .badPin
  | .syncSample p => checkIndex (InPin.ofId p).isSome .badPin
  | .envUartRx _ => none
  | .envTxDone => none
  | .envTick => none
  | .envHostCls c _ => checkIndex (Chan.ofId c).isSome .badChannel
  | .envHostConnect => none
  | .envHostDisconnect => none
  | .envHostByte c _ => checkIndex (Chan.ofId c).isSome .badChannel
  | .envHostTake c => checkIndex (Chan.ofId c).isSome .badChannel

/-- The FG words that write an output-role pin, faulted while BOOTED = 1 (60_exceptions.md R184 (b)). -/
def writesOwnedPin : Instr → Bool
  | .gpioWrite _ _ => true
  | .gpioDir _ _ => true
  | .arbUpdateRunmode _ => true
  | .arbUpdateRole _ => true
  | .gpioRead _ => false
  | .uartInit _ => false
  | .uartDeinit => false
  | .uartTx _ => false
  | .uartIeOn => false
  | .uartIeOff => false
  | .tmrInit => false
  | .extConfig _ _ => false
  | .irqGlobal _ => false
  | .arbDetectRunmode => false
  | .arbDetectRole => false
  | .arbAddrMatch => false
  | .usbRecv _ => false
  | .usbSend _ _ => false
  | .usbService _ => false
  | .regRead _ => false
  | .cbCls _ _ => false
  | .cbConnect => false
  | .cbDisconnect => false
  | .hExtA => false
  | .hExtB => false
  | .hTick => false
  | .hUrx => false
  | .hUtx => false
  | .reti => false
  | .envPin _ _ => false
  | .syncSample _ => false
  | .envUartRx _ => false
  | .envTxDone => false
  | .envTick => false
  | .envHostCls _ _ => false
  | .envHostConnect => false
  | .envHostDisconnect => false
  | .envHostByte _ _ => false
  | .envHostTake _ => false

end Sys2Proof.Machine
end

