-- ==== Sys2Proof/Machine/Flags.lean ====
section
/-! DEFINITION. Flags, enables and requests: TXE (10_state.md R38), the sources' flags and enables
(60_exceptions.md R189, R190), requests and priority (R191, R194), the edge detector's rule (44_edge.md
R129), the interrupt gate and the relay gate of the UART (42_uart.md R113, 46_bridge.md R151), the mode
detectors (45_arbitration.md R141, R142, R145). -/

namespace Sys2Proof.Machine

/-- TXE = (TXBUF = none) (10_state.md R38). -/
def State.txe (s : State) : Bool := s.txbuf.isNone

/-- The flag column of 60_exceptions.md R189. -/
def State.flag (s : State) : Source → Bool
  | .extA => s.pendExta
  | .extB => s.pendExtb
  | .tick => s.pendTick
  | .urx => s.rxfull
  | .utx => s.txc

/-- The enable column of 60_exceptions.md R189, R190. -/
def State.enable (s : State) : Source → Bool
  | .extA => s.extaEn
  | .extB => s.extbEn
  | .tick => s.tmrEn
  | .urx => s.uartIe
  | .utx => s.uartIe

/-- Source v requests iff flag(v) = 1 and enable(v) = 1 (60_exceptions.md R191). -/
def State.requests (s : State) (v : Source) : Bool := s.flag v && s.enable v

/-- A request is dispatchable iff, in addition, GIE = 1, CTX = FG and FAULT = 0 (60_exceptions.md R191). -/
def State.dispatchable (s : State) (v : Source) : Bool :=
  s.requests v && s.gie && decide (s.ctx = .fg) && decide (s.fault = 0)

/-- The dispatchable source first in P_IRQ_PRIO (60_exceptions.md R193, R194). -/
def State.nextDispatch (s : State) : Option Source := s.cfg.irqPrio.find? s.dispatchable

/-- The edge that a line's detector takes: rising on Line A, both on Line B (44_edge.md R129). -/
def edgeTaken (l : Line) (old new : Bool) : Bool :=
  match l with
  | .a => !old && new
  | .b => old != new

/-- The interrupt gate of a control-line report: 3 enables, 2 disables, any other value leaves UART_IE as
it is (42_uart.md R113, R114). -/
def uartGate (m : Half) (uartIe : Bool) : Bool :=
  if m = 3 then true else if m = 2 then false else uartIe

/-- GateCLS: the bitmask the UART-RX handler compares with 3 (46_bridge.md R151). -/
def State.gateCls (s : State) : Half :=
  match s.cfg.rxGateSrc with
  | .data => s.cls0
  | .last => s.clsLast

/-- DetectRunMode() (45_arbitration.md R141). -/
def State.detectRunMode (s : State) : RunMode :=
  if s.sync.prsw = s.cfg.prswProgramLevel then .program else .run

/-- DetectRole() (45_arbitration.md R142). -/
def State.detectRole (s : State) : Role :=
  if s.sync.mssw = s.cfg.msswMasterLevel then .master else .slave

/-- AddressMatches(b, k) = (zext_4(b) = k) (45_arbitration.md R145). -/
def addressMatches (b : BitVec 3) (k : BitVec 4) : Bool := decide (b.setWidth 4 = k)

/-- Room in a USB queue of this length: less than P_USBQ_CAP (10_state.md R46). -/
def hasRoom (c : Params) (len : Nat) : Bool :=
  match c.usbqCap with
  | none => true
  | some cap => decide (len < cap)

end Sys2Proof.Machine
end

