-- ==== Sys2Proof/Machine/Ops.lean ====
section
/-! DEFINITION. The named operations on the state, and what every word of a class shares: raising a fault
(60_exceptions.md R185), taking an interrupt (R193, R195), returning from a handler (48_system.md R179),
and the checks of R186 that depend on the state. -/

namespace Sys2Proof.Machine

/-- The outcome of a step. -/
abbrev Result := Host.Outcome State Fault Refusal

/-! ## History, result, sequencing -/

/-- `emit(e)` (00_scope.md R13, 10_state.md R53). -/
def State.emit (s : State) (e : Event) : State := { s with hist := s.hist ++ [e] }

/-- `word(agent, w)` for the word an agent issues (10_state.md R53, log 8). -/
def State.record (s : State) (a : Agent) (i : Instr) : State := s.emit (.word a (encode i))

/-- `RES <- v` (10_state.md R45). -/
def State.setRes (s : State) (v : Half) : State := { s with res := some v }

/-- FGPC advances by one when a word completes (10_state.md R26). -/
def State.advance (s : State) : State := { s with fgpc := s.fgpc + 1 }

/-- `HPC <- k` (10_state.md R27). -/
def State.setHpc (s : State) (k : Nat) : State := { s with hpc := some k }

/-! ## Free values (00_scope.md R13, log 7) -/

/-- The next free bit. -/
def State.drawBit (s : State) : Bool := Config.drawBit s.draws

/-- The next free byte. -/
def State.drawByte (s : State) : Byte := Config.drawByte s.draws

/-- The next draw is another one. -/
def State.drawn (s : State) : State := { s with draws := s.draws + 1 }

/-! ## Pins -/

/-- `LAT[p] <- some v; emit(pinwrite(p, v))` (41_gpio.md R100, 45_arbitration.md R143, R144). -/
def State.writeLat (s : State) (p : OutPin) (v : Bool) : State :=
  { s with lat := s.lat.set p (some v) }.emit (.pinwrite p v)

/-- `DIR[p] <- d; emit(dirwrite(p, d))` (41_gpio.md R101). -/
def State.writeDir (s : State) (p : OutPin) (d : Direction) : State :=
  { s with dir := s.dir.set p d }.emit (.dirwrite p d)

/-! ## USB queues -/

/-- SendByte(c, y): append to OUTQ[c] and record it, or `none` where the queue is full
(46_bridge.md R154, R160). -/
def State.sendByte (s : State) (c : Chan) (y : Byte) : Option State :=
  if hasRoom s.cfg (s.outq c).length then
    some ((s.setOutq c (s.outq c ++ [y])).emit (.usbsend c y))
  else none

/-! ## UART lifecycle (42_uart.md R106, R107) -/

/-- The effect of UART_INIT m. -/
def State.uartInitialize (s : State) (m : Half) : State :=
  if s.uartEn then { s with baud := m }
  else { s with uartEn := true, rxdata := none, rxfull := false, txc := false, txbuf := none, baud := m }

/-- The effect of UART_DEINIT. -/
def State.uartDeinitialize (s : State) : State :=
  { s with uartEn := false, uartIe := false, rxdata := none, rxfull := false, txc := false, txbuf := none }

/-! ## Faults (60_exceptions.md R183, R185) -/

/-- The code of a fault. -/
def FaultCode.code : FaultCode → Byte
  | .illegalOpc => 0x01
  | .badOperand => 0x02
  | .badPin => 0x03
  | .badChannel => 0x04
  | .badReg => 0x05
  | .context => 0x06
  | .ownership => 0x07
  | .model => 0x08

/-- `raise Fault(c)`: this effect and only this (60_exceptions.md R185). -/
def State.raise (s : State) (c : FaultCode) : State :=
  if s.fault = 0 then { s with fault := c.code }.emit (.fault c.code) else s

/-! ## Interrupts (60_exceptions.md R189, R193, R195) -/

/-- The entry word of a vector's handler (60_exceptions.md R189, R94). -/
def entryWord : Source → Instr
  | .extA => .hExtA
  | .extB => .hExtB
  | .tick => .hTick
  | .urx => .hUrx
  | .utx => .hUtx

/-- The vector that an entry word enters; RETI and the words of the other classes enter none. -/
def entrySource : Instr → Option Source
  | .hExtA => some .extA
  | .hExtB => some .extB
  | .hTick => some .tick
  | .hUrx => some .urx
  | .hUtx => some .utx
  | _ => none

/-- The agent that performs a word of class E: ENV, except SYNC_SAMPLE (30_encoding.md R82). -/
def eventAgent : Instr → Agent
  | .syncSample _ => .sync
  | _ => .env

/-- ClearAtDispatch(v), with the temporaries reset: T_BYTE takes RXDATA for URX, every other temporary
holds `none` (60_exceptions.md R193, R195). -/
def State.clearAtDispatch (s : State) (v : Source) : State :=
  let t := { s with tMode := none, tRole := none, tBus := none, tKnob := none, tMatch := none,
                    tByte := none }
  match v with
  | .extA => { t with pendExta := false }
  | .extB => { t with pendExtb := false }
  | .tick => { t with pendTick := false }
  | .urx => { t with tByte := s.rxdata, rxdata := none, rxfull := false }
  | .utx => { t with txc := false }

/-- Taking the interrupt of vector v: clear its flag and the temporaries, enter the handler at its first
micro-step, record the dispatch and the entry word (60_exceptions.md R193). -/
def State.takeInterrupt (s : State) (v : Source) : State :=
  ({ s.clearAtDispatch v with ctx := .handler v, hpc := some 0 }.emit (.dispatch v)).record .mux
    (entryWord v)

/-- The return from the handler of vector v: nothing is restored, because nothing was saved
(48_system.md R179, 60_exceptions.md R197). -/
def State.returnFromHandler (s : State) (v : Source) : State :=
  { (s.record .mux .reti).emit (.reti v) with ctx := .fg, hpc := none }

/-- The index of a handler's final micro-step, its RETI (43_timer.md R125, 44_edge.md R133, R134,
46_bridge.md R151, R152). -/
def finalStep : Source → Nat
  | .extA => 7
  | .extB => 5
  | .tick => 2
  | .urx => 4
  | .utx => 1

/-- The handler whose final micro-step is next, if one is (48_system.md R179). -/
def State.atFinalStep (s : State) : Option Source :=
  match s.ctx with
  | .fg => none
  | .handler v => if s.hpc = some (finalStep v) then some v else none

/-! ## What the words of a class share (60_exceptions.md R184, R186) -/

/-- A word of class S: FG must have a step (not be inside a callback, 46_bridge.md R162) and be in context
FG; then the operand checks and the ownership check; then the effect, the word being recorded. -/
def softwareWord (i : Instr) (s : State) (run : State → Result) : Result :=
  if s.fault ≠ 0 then .fault (.frozen s.fault)
  else if s.fgcb.isSome then .refused .agentHasNoStep
  else if s.ctx ≠ .fg then .next (s.raise .context)
  else match operandFault i with
    | some c => .next (s.raise c)
    | none =>
      if writesOwnedPin i && s.booted then .next (s.raise .ownership)
      else run (s.record .fg i)

/-- A host event and a class C word of the same callback, whatever their operands. -/
def sameCallback : UsbEvent → UsbEvent → Bool
  | .clsChg _ _, .clsChg _ _ => true
  | .connect, .connect => true
  | .disconnect, .disconnect => true
  | _, _ => false

/-- A word of class C: only as the delivery of the head of EVQ at an FG boundary (46_bridge.md R162), else
F_CONTEXT; then the operand check; then the effect, the event being removed and the word recorded. `e` is
the event the word delivers, `none` where its channel is illegal (log 15). -/
def callbackWord (i : Instr) (kind : UsbEvent) (e : Option UsbEvent) (s : State)
    (run : State → Result) : Result :=
  if s.fault ≠ 0 then .fault (.frozen s.fault)
  else if s.ctx ≠ .fg || s.fgcb.isSome then .next (s.raise .context)
  else match s.evq with
    | [] => .next (s.raise .context)
    | head :: rest =>
      if !sameCallback kind head then .next (s.raise .context)
      else match operandFault i with
        | some c => .next (s.raise c)
        | none =>
          if e = some head then run ({ s with evq := rest }.record .fg i)
          else .next (s.raise .context)

/-- A handler entry word: only as the dispatch of its vector, else F_CONTEXT (60_exceptions.md R184). -/
def handlerEntry (v : Source) (s : State) : Result :=
  if s.fault ≠ 0 then .fault (.frozen s.fault)
  else if s.nextDispatch = some v then .next (s.takeInterrupt v)
  else .next (s.raise .context)

/-- A word of class E of agent `a`: the operand check raises its fault as for any agent; a false guard is
not a step (47_environment.md R165). -/
def eventWord (a : Agent) (i : Instr) (guard_ : Bool) (s : State) (run : State → Result) : Result :=
  if s.fault ≠ 0 then .fault (.frozen s.fault)
  else match operandFault i with
    | some c => .next (s.raise c)
    | none => if guard_ then run (s.record a i) else .refused .guardFalse

end Sys2Proof.Machine
end

