-- ==== Sys2Proof/Machine/Arbitration.lean ====
section
/-! DEFINITION. The mode-arbitration FSM (45_arbitration.md): the FG words, and UpdateRunMode and
UpdateRoleSeq as the line handlers use them. -/

namespace Sys2Proof.Machine

/-- UpdateRunMode(m): PROUT high for PROGRAM, low for RUN (45_arbitration.md R143). -/
def State.updateRunMode (s : State) (m : RunMode) : State := s.writeLat .prout m.bit

/-- The level of CSOUT in SLAVE: low = matched, high = not selected (45_arbitration.md R144). -/
def csLevel (matched : Bool) : Bool := !matched

/-- UpdateRole(r) in one step, as the FG word performs it: SLAVE writes MSOUT low and then CSOUT by the
address comparison, MASTER writes MSOUT high and leaves CSOUT untouched (45_arbitration.md R144, R146). -/
def State.updateRole (s : State) (r : Role) : State :=
  match r with
  | .slave => (s.writeLat .msout false).writeLat .csout (csLevel (addressMatches s.fieldBus s.fieldKnob))
  | .master => s.writeLat .msout true

/-! ## FG words -/

/-- ARB_DETECT_RUNMODE (45_arbitration.md R141). -/
def execArbDetectRunmode (s : State) : Result :=
  softwareWord .arbDetectRunmode s fun t => .next (t.setRes (zextBit t.detectRunMode.bit)).advance

/-- ARB_DETECT_ROLE (45_arbitration.md R142). -/
def execArbDetectRole (s : State) : Result :=
  softwareWord .arbDetectRole s fun t => .next (t.setRes (zextBit t.detectRole.bit)).advance

/-- ARB_UPDATE_RUNMODE m (45_arbitration.md R143). -/
def execArbUpdateRunmode (m : RunMode) (s : State) : Result :=
  softwareWord (.arbUpdateRunmode m) s fun t => .next (t.updateRunMode m).advance

/-- ARB_UPDATE_ROLE r (45_arbitration.md R144). -/
def execArbUpdateRole (r : Role) (s : State) : Result :=
  softwareWord (.arbUpdateRole r) s fun t => .next (t.updateRole r).advance

/-- ARB_ADDR_MATCH (45_arbitration.md R145). -/
def execArbAddrMatch (s : State) : Result :=
  softwareWord .arbAddrMatch s fun t =>
    .next (t.setRes (zextBit (addressMatches t.fieldBus t.fieldKnob))).advance

/-! ## UpdateRoleSeq in a handler (45_arbitration.md R144) -/

/-- Micro-step k+0: write MSOUT by the role in T_ROLE; SLAVE goes on, MASTER leaves for `exit_`. -/
def roleStepWrite (k exit_ : Nat) (s : State) : Result :=
  match s.tRole with
  | some .slave => .next ((s.writeLat .msout false).setHpc (k + 1))
  | some .master => .next ((s.writeLat .msout true).setHpc exit_)
  | none => .next (s.raise .model)

/-- Micro-step k+1: `T_BUS <- FieldRead(BUS)`. -/
def roleStepBus (k : Nat) (s : State) : Result :=
  .next ({ s with tBus := some s.fieldBus }.setHpc (k + 2))

/-- Micro-step k+2: `T_KNOB <- FieldRead(KNOB)`. -/
def roleStepKnob (k : Nat) (s : State) : Result :=
  .next ({ s with tKnob := some s.fieldKnob }.setHpc (k + 3))

/-- Micro-step k+3: the comparison and the CSOUT write. -/
def roleStepCompare (exit_ : Nat) (s : State) : Result :=
  match s.tBus, s.tKnob with
  | some b, some n =>
    .next (({ s with tMatch := some (addressMatches b n) }.writeLat .csout
      (csLevel (addressMatches b n))).setHpc exit_)
  | _, _ => .next (s.raise .model)

end Sys2Proof.Machine
end

