-- ==== Sys2Proof/Machine/System.lean ====
section
/-! DEFINITION. The system words (48_system.md) and the register map (10_state.md R54, R55). -/

namespace Sys2Proof.Machine

/-- IRQ_GLOBAL b (48_system.md R177). -/
def execIrqGlobal (b : Bool) (s : State) : Result :=
  softwareWord (.irqGlobal b) s fun t =>
    .next { t with gie := b, booted := t.booted || b }.advance

/-! ## Register map -/

/-- The vector number (60_exceptions.md R189). -/
def vectorNumber : Source → Nat
  | .extA => 0
  | .extB => 1
  | .tick => 2
  | .urx => 3
  | .utx => 4

/-- ACT of CTXR: the running handler's vector, 7 in FG (10_state.md R55). -/
def Ctx.act : Ctx → Nat
  | .fg => 7
  | .handler v => vectorNumber v

/-- INH of CTXR (10_state.md R55). -/
def Ctx.inHandler : Ctx → Bool
  | .fg => false
  | .handler _ => true

/-- OUTLAT: the three latches, `d` where one is not written, and their written bits (10_state.md R55). -/
def outlatByte (l : OutLatches) (d : Byte) : Byte :=
  BitVec.ofNat 8 (packBits [l.prout.getD (d.getLsbD 0), l.msout.getD (d.getLsbD 1),
    l.csout.getD (d.getLsbD 2), l.prout.isSome, l.msout.isSome, l.csout.isSome])

/-- RegRead(n) for n in 0x00..0x0F, with the free byte `d` for a field that holds `none`
(10_state.md R54, R55); reserved bits read 0. -/
def State.regByte (s : State) (n : Nat) (d : Byte) : Byte :=
  match n with
  | 0x0 => BitVec.ofNat 8 (packBits [s.uartEn, s.uartIe, s.tmrEn, s.extaEn, s.extbEn, s.gie, s.booted])
  | 0x1 => BitVec.ofNat 8 (packBits [s.pendExta, s.pendExtb, s.pendTick, s.rxfull, s.txc, s.txe])
  | 0x2 => BitVec.ofNat 8 (packBits [s.txi, s.rxi])
  | 0x3 => BitVec.ofNat 8 (s.ctx.inHandler.toNat + 2 * s.ctx.act)
  | 0x4 => outlatByte s.lat d
  | 0x5 => BitVec.ofNat 8 (packBits [s.dir.prout.bit, s.dir.msout.bit, s.dir.csout.bit])
  | 0x6 => BitVec.ofNat 8 (packBits [s.sync.prsw, s.sync.mssw, s.sync.linea, s.sync.lineb])
  | 0x7 => BitVec.ofNat 8 (s.fieldBus.toNat + 16 * s.fieldKnob.toNat)
  | 0x8 => s.cls0.extractLsb' 0 8
  | 0x9 => s.cls0.extractLsb' 8 8
  | 0xA => s.cls1.extractLsb' 0 8
  | 0xB => s.cls1.extractLsb' 8 8
  | 0xC => s.rxdata.getD d
  | 0xD => s.baud.extractLsb' 0 8
  | 0xE => s.baud.extractLsb' 8 8
  | _ => s.fault

/-- The registers that read a free value now: OUTLAT with a latch not written, RXDATA while `none`
(10_state.md R55, 48_system.md R178). -/
def State.regDraws (s : State) (n : Nat) : Bool :=
  match n with
  | 0x4 => s.lat.prout.isNone || s.lat.msout.isNone || s.lat.csout.isNone
  | 0xC => s.rxdata.isNone
  | _ => false

/-- REG_READ n (48_system.md R178): no side effect on any field of the CORE (10_state.md R56). -/
def execRegRead (n : Byte) (s : State) : Result :=
  softwareWord (.regRead n) s fun t =>
    let r := t.setRes (zextByte (t.regByte n.toNat t.drawByte))
    .next (if t.regDraws n.toNat then r.drawn else r).advance

/-! ## Return -/

/-- RETI, the final micro-step of every handler (48_system.md R179); anywhere else F_CONTEXT. -/
def execReti (s : State) : Result :=
  if s.fault ≠ 0 then .fault (.frozen s.fault)
  else match s.atFinalStep with
    | some v => .next (s.returnFromHandler v)
    | none => .next (s.raise .context)

end Sys2Proof.Machine
end

