-- ==== Sys2Proof/Machine/Bridge.lean ====
section
/-! DEFINITION. The communication bridge: the UART handlers and the USB endpoint's words
(46_bridge.md). -/

namespace Sys2Proof.Machine

/-! ## UART handlers -/

/-- H_URX, the entry of the UART-receive handler: the dispatch of vector 3 (46_bridge.md R151). -/
def execHUrx (s : State) : Result := handlerEntry .urx s

/-- H_UTX, the entry of the UART-transmit-complete handler: the dispatch of vector 4 (46_bridge.md R152). -/
def execHUtx (s : State) : Result := handlerEntry .utx s

/-- Micro-step 1 of the UART-receive handler: SendByte(0, T_BYTE), its fault included. -/
def relayStep (s : State) : Result :=
  match s.tByte with
  | some y =>
    match s.sendByte .data y with
    | some t => .next (t.setHpc 2)
    | none => .next (s.raise .model)
  | none => .next (s.raise .model)

/-- Micro-step 3 of the UART-receive handler: the byte is dropped, RXI unchanged (46_bridge.md R158). -/
def dropStep (s : State) : Result :=
  match s.tByte with
  | some y => .next ((s.emit (.drop y)).setHpc 4)
  | none => .next (s.raise .model)

/-- The micro-steps of the UART-receive handler (46_bridge.md R151). -/
def microUrx (s : State) : Result :=
  match s.hpc with
  | some 0 => .next (s.setHpc (if s.gateCls = 3 then 1 else 3))
  | some 1 => relayStep s
  | some 2 => .next ({ s with rxi := true }.setHpc 4)
  | some 3 => dropStep s
  | some 4 => execReti s
  | _ => .next (s.raise .model)

/-- The micro-steps of the UART-transmit-complete handler (46_bridge.md R152). -/
def microUtx (s : State) : Result :=
  match s.hpc with
  | some 0 => .next ({ s with txi := true }.setHpc 1)
  | some 1 => execReti s
  | _ => .next (s.raise .model)

/-! ## USB endpoint -/

/-- The effect of USB_RECV on one channel: the oldest byte, or NONE (46_bridge.md R153). -/
def State.receiveByte (s : State) (c : Chan) : State :=
  match s.inq c with
  | y :: rest => ((s.setInq c rest).setRes (zextByte y)).emit (.usbrecv c (some y))
  | [] => (s.setRes resNone).emit (.usbrecv c none)

/-- USB_RECV c (46_bridge.md R153). -/
def execUsbRecv (c : Byte) (s : State) : Result :=
  softwareWord (.usbRecv c) s fun t =>
    match Chan.ofId c with
    | some q => .next (t.receiveByte q).advance
    | none => .next (s.raise .badChannel)

/-- USB_SEND c, y (46_bridge.md R154); a full queue is F_MODEL (R160). -/
def execUsbSend (c y : Byte) (s : State) : Result :=
  softwareWord (.usbSend c y) s fun t =>
    match Chan.ofId c with
    | some q =>
      match t.sendByte q y with
      | some u => .next u.advance
      | none => .next (s.raise .model)
    | none => .next (s.raise .badChannel)

/-- USB_SERVICE c: no effect on the CORE's state but HIST (46_bridge.md R155). -/
def execUsbService (c : Byte) (s : State) : Result :=
  softwareWord (.usbService c) s fun t => .next t.advance

end Sys2Proof.Machine
end

