-- ==== Sys2Proof/Machine/Edge.lean ====
section
/-! DEFINITION. The external lines: their configuration and their handlers (44_edge.md). The edge
detector itself is called by SYNC_SAMPLE and stands in Machine/Gpio.lean. -/

namespace Sys2Proof.Machine

/-- `if l = 0 then EXTA_EN <- e else EXTB_EN <- e` (44_edge.md R131). -/
def State.configLine (s : State) (l : Line) (e : Bool) : State :=
  match l with
  | .a => { s with extaEn := e }
  | .b => { s with extbEn := e }

/-- EXT_CONFIG l, e (44_edge.md R131). -/
def execExtConfig (l : Byte) (e : Bool) (s : State) : Result :=
  softwareWord (.extConfig l e) s fun t =>
    match Line.ofId l with
    | some q => .next (t.configLine q e).advance
    | none => .next (s.raise .badOperand)

/-- H_EXT_A, the entry of the Line A handler: the dispatch of vector 0 (44_edge.md R133). -/
def execHExtA (s : State) : Result := handlerEntry .extA s

/-- H_EXT_B, the entry of the Line B handler: the dispatch of vector 1 (44_edge.md R134). -/
def execHExtB (s : State) : Result := handlerEntry .extB s

/-- Micro-step 1 of the Line A handler: UpdateRunMode(T_MODE), then RETI in RUN, the role in PROGRAM. -/
def modeStepWrite (s : State) : Result :=
  match s.tMode with
  | some .run => .next ((s.updateRunMode .run).setHpc 7)
  | some .program => .next ((s.updateRunMode .program).setHpc 2)
  | none => .next (s.raise .model)

/-- The micro-steps of the Line A handler (44_edge.md R133). -/
def microExtA (s : State) : Result :=
  match s.hpc with
  | some 0 => .next ({ s with tMode := some s.detectRunMode }.setHpc 1)
  | some 1 => modeStepWrite s
  | some 2 => .next ({ s with tRole := some s.detectRole }.setHpc 3)
  | some 3 => roleStepWrite 3 7 s
  | some 4 => roleStepBus 3 s
  | some 5 => roleStepKnob 3 s
  | some 6 => roleStepCompare 7 s
  | some 7 => execReti s
  | _ => .next (s.raise .model)

/-- The micro-steps of the Line B handler (44_edge.md R134). -/
def microExtB (s : State) : Result :=
  match s.hpc with
  | some 0 => .next ({ s with tRole := some s.detectRole }.setHpc 1)
  | some 1 => roleStepWrite 1 5 s
  | some 2 => roleStepBus 1 s
  | some 3 => roleStepKnob 1 s
  | some 4 => roleStepCompare 5 s
  | some 5 => execReti s
  | _ => .next (s.raise .model)

end Sys2Proof.Machine
end

