-- ==== Sys2Proof/Machine/Environment.lean ====
section
/-! DEFINITION. The environment's events (47_environment.md), each with the guard under which it can
occur. ENV_TICK stands in Machine/Timer.lean. -/

namespace Sys2Proof.Machine

/-- ENV_PIN p, b (47_environment.md R164). -/
def execEnvPin (p : Byte) (b : Bool) (s : State) : Result :=
  eventWord .env (.envPin p b) true s fun t =>
    match InPin.ofId p with
    | some q => .next { t with pin := t.pin.set q b }
    | none => .next (s.raise .badPin)

/-- A received byte: held if the buffer is free; on an overrun the old or the new byte, a free bit decides
(47_environment.md R166, log 16). -/
def State.receiveUart (s : State) (y : Byte) : State :=
  if s.rxfull then
    match s.rxdata with
    | some old => { s with rxdata := some (if s.drawBit then old else y) }.drawn
    | none => { s with rxdata := some y }
  else { s with rxdata := some y, rxfull := true }

/-- ENV_UART_RX y, with the guard UART_EN = 1 (47_environment.md R166). -/
def execEnvUartRx (y : Byte) (s : State) : Result :=
  eventWord .env (.envUartRx y) s.uartEn s fun t => .next (t.receiveUart y)

/-- ENV_TX_DONE, with the guard UART_EN = 1 and TXBUF = some b (47_environment.md R167). -/
def execEnvTxDone (s : State) : Result :=
  eventWord .env .envTxDone (s.uartEn && s.txbuf.isSome) s fun t =>
    match t.txbuf with
    | some b =>
      .next { { t with utxline := t.utxline ++ [b] }.emit (.uartline b) with txbuf := none, txc := true }
    | none => .refused .guardFalse

/-- HOSTCONN = 1 and room in INQ[c] (47_environment.md R168). -/
def State.hostCanSend (s : State) (c : Byte) : Bool :=
  s.hostconn && (Chan.ofId c).all (fun q => hasRoom s.cfg (s.inq q).length)

/-- ENV_HOST_BYTE c, y (47_environment.md R168). -/
def execEnvHostByte (c y : Byte) (s : State) : Result :=
  eventWord .env (.envHostByte c y) (s.hostCanSend c) s fun t =>
    match Chan.ofId c with
    | some q => .next (t.setInq q (t.inq q ++ [y]))
    | none => .next (s.raise .badChannel)

/-- ENV_HOST_CLS c, m, with the guard HOSTCONN = 1 (47_environment.md R169). -/
def execEnvHostCls (c : Byte) (m : Half) (s : State) : Result :=
  eventWord .env (.envHostCls c m) s.hostconn s fun t =>
    match Chan.ofId c with
    | some q => .next { t with evq := t.evq ++ [.clsChg q m] }
    | none => .next (s.raise .badChannel)

/-- ENV_HOST_CONNECT, with the guard HOSTCONN = 0 (47_environment.md R170). -/
def execEnvHostConnect (s : State) : Result :=
  eventWord .env .envHostConnect (!s.hostconn) s fun t =>
    .next { t with hostconn := true, evq := t.evq ++ [.connect] }

/-- ENV_HOST_DISCONNECT, with the guard HOSTCONN = 1: all four queues are emptied (47_environment.md R171). -/
def execEnvHostDisconnect (s : State) : Result :=
  eventWord .env .envHostDisconnect s.hostconn s fun t =>
    .next { t with hostconn := false, inq0 := [], inq1 := [], outq0 := [], outq1 := [],
                   evq := t.evq ++ [.disconnect] }

/-- HOSTCONN = 1 and OUTQ[c] not empty (47_environment.md R172). -/
def State.hostCanTake (s : State) (c : Byte) : Bool :=
  s.hostconn && (Chan.ofId c).all (fun q => !(s.outq q).isEmpty)

/-- ENV_HOST_TAKE c (47_environment.md R172). -/
def execEnvHostTake (c : Byte) (s : State) : Result :=
  eventWord .env (.envHostTake c) (s.hostCanTake c) s fun t =>
    match Chan.ofId c with
    | some q => .next (t.setOutq q (t.outq q).tail)
    | none => .next (s.raise .badChannel)

end Sys2Proof.Machine
end

