-- ==== Sys2Proof/Machine/Gpio.lean ====
section
/-! DEFINITION. The GPIO synchronizer and the pin operations (41_gpio.md), with the edge detector it
calls (44_edge.md R129, R130). -/

namespace Sys2Proof.Machine

/-! ## Pin operations -/

/-- The level `readPin` returns and the state after: SYNC of an input-role pin, the latch of an output-role
pin, a free bit for a latch never written (41_gpio.md R99). -/
def State.readPin (s : State) (p : Byte) : Option (Bool × State) :=
  match InPin.ofId p with
  | some q => some (s.sync.get q, s)
  | none =>
    match OutPin.ofId p with
    | some q =>
      match s.lat.get q with
      | some v => some (v, s)
      | none => some (s.drawBit, s.drawn)
    | none => none

/-- GPIO_READ p (41_gpio.md R99). -/
def execGpioRead (p : Byte) (s : State) : Result :=
  softwareWord (.gpioRead p) s fun t =>
    match t.readPin p with
    | some (v, u) => .next (u.setRes (zextBit v)).advance
    | none => .next (s.raise .badPin)

/-- GPIO_WRITE p, b (41_gpio.md R100). -/
def execGpioWrite (p : Byte) (b : Bool) (s : State) : Result :=
  softwareWord (.gpioWrite p b) s fun t =>
    match OutPin.ofId p with
    | some q => .next (t.writeLat q b).advance
    | none => .next (s.raise .badPin)

/-- GPIO_DIR p, d (41_gpio.md R101). -/
def execGpioDir (p : Byte) (d : Direction) (s : State) : Result :=
  softwareWord (.gpioDir p d) s fun t =>
    match OutPin.ofId p with
    | some q => .next (t.writeDir q d).advance
    | none => .next (s.raise .badPin)

/-! ## Synchronizer -/

/-- An edge on Line A that its detector takes: latched while the line is enabled, else a free bit decides
(44_edge.md R129, R130). -/
def State.latchEdgeA (s : State) : State :=
  if s.extaEn then { s with pendExta := true }
  else { s with pendExta := s.pendExta || s.drawBit }.drawn

/-- The same for Line B (44_edge.md R129, R130). -/
def State.latchEdgeB (s : State) : State :=
  if s.extbEn then { s with pendExtb := true }
  else { s with pendExtb := s.pendExtb || s.drawBit }.drawn

/-- EdgeDetect(p, old, new); no other pin than LINEA and LINEB has a detector (44_edge.md R129). -/
def State.edgeDetect (s : State) (p : InPin) (old new : Bool) : State :=
  match p with
  | .linea => if edgeTaken .a old new then s.latchEdgeA else s
  | .lineb => if edgeTaken .b old new then s.latchEdgeB else s
  | .prsw => s
  | .mssw => s
  | .bus0 => s
  | .bus1 => s
  | .bus2 => s
  | .knob0 => s
  | .knob1 => s
  | .knob2 => s
  | .knob3 => s

/-- SYNC[p] <- PIN[p], then the edge detector (41_gpio.md R97). -/
def State.samplePin (s : State) (p : InPin) : State :=
  { s with sync := s.sync.set p (s.pin.get p) }.edgeDetect p (s.sync.get p) (s.pin.get p)

/-- SYNC_SAMPLE p, performed by SYNC (41_gpio.md R97). -/
def execSyncSample (p : Byte) (s : State) : Result :=
  eventWord .sync (.syncSample p) true s fun t =>
    match InPin.ofId p with
    | some q => .next (t.samplePin q)
    | none => .next (s.raise .badPin)

end Sys2Proof.Machine
end

