-- ==== Sys2Proof/Machine/Timer.lean ====
section
/-! DEFINITION. The timer-tick synchronizer (43_timer.md). -/

namespace Sys2Proof.Machine

/-- TMR_INIT (43_timer.md R123). -/
def execTmrInit (s : State) : Result :=
  softwareWord .tmrInit s fun t => .next { t with tmrEn := true }.advance

/-- ENV_TICK, with the guard TMR_EN = 1 (43_timer.md R124). -/
def execEnvTick (s : State) : Result :=
  eventWord .env .envTick s.tmrEn s fun t => .next { t with pendTick := true }

/-- H_TICK, the entry of the tick handler: the dispatch of vector 2 (43_timer.md R125). -/
def execHTick (s : State) : Result := handlerEntry .tick s

/-- The micro-steps of the tick handler (43_timer.md R125). -/
def microTick (s : State) : Result :=
  match s.hpc with
  | some 0 => .next { s with txi := false, hpc := some 1 }
  | some 1 => .next { s with rxi := false, hpc := some 2 }
  | some 2 => execReti s
  | _ => .next (s.raise .model)

end Sys2Proof.Machine
end

