-- ==== Sys2Proof/Machine/Uart.lean ====
section
/-! DEFINITION. The UART channel and its lifecycle controller (42_uart.md). -/

namespace Sys2Proof.Machine

/-! ## UART channel operations -/

/-- UART_INIT m (42_uart.md R106). -/
def execUartInit (m : Half) (s : State) : Result :=
  softwareWord (.uartInit m) s fun t => .next (t.uartInitialize m).advance

/-- UART_DEINIT (42_uart.md R107). -/
def execUartDeinit (s : State) : Result :=
  softwareWord .uartDeinit s fun t => .next t.uartDeinitialize.advance

/-- UART_TX can proceed: the channel is enabled and the transmit buffer is empty (42_uart.md R108). -/
def State.txReady (s : State) : Bool := s.uartEn && s.txe

/-- UART_TX y (42_uart.md R108). While it cannot proceed it holds: the step changes nothing, FGPC
included (log 11). -/
def execUartTx (y : Byte) (s : State) : Result :=
  softwareWord (.uartTx y) s fun t =>
    if s.txReady then .next ({ t with txbuf := some y }.emit (.uarttx y)).advance
    else .next s

/-- UART_IE_ON (42_uart.md R109). -/
def execUartIeOn (s : State) : Result :=
  softwareWord .uartIeOn s fun t => .next { t with uartIe := true }.advance

/-- UART_IE_OFF (42_uart.md R110). -/
def execUartIeOff (s : State) : Result :=
  softwareWord .uartIeOff s fun t => .next { t with uartIe := false }.advance

/-! ## Lifecycle callbacks -/

/-- CB_CONNECT: the effect of UART_INIT with P_BAUD / 100 (42_uart.md R111). -/
def execCbConnect (s : State) : Result :=
  callbackWord .cbConnect .connect (some .connect) s fun t => .next (t.uartInitialize t.cfg.baud)

/-- CB_DISCONNECT: the effect of UART_DEINIT (42_uart.md R112). -/
def execCbDisconnect (s : State) : Result :=
  callbackWord .cbDisconnect .disconnect (some .disconnect) s fun t => .next t.uartDeinitialize

/-- The first step of CB_CLS c, m: `CLS[c] <- m; CLSLAST <- m; FGCB <- some m` (42_uart.md R113). -/
def State.reportCls (s : State) (c : Chan) (m : Half) : State :=
  { s.setCls c m with clsLast := m, fgcb := some m }

/-- CB_CLS c, m, its first step (42_uart.md R113); the second is `secondStepOfCls`. -/
def execCbCls (c : Byte) (m : Half) (s : State) : Result :=
  callbackWord (.cbCls c m) (.clsChg .data m) ((Chan.ofId c).map (.clsChg · m)) s fun t =>
    match Chan.ofId c with
    | some q => .next (t.reportCls q m)
    | none => .next (s.raise .badChannel)

/-- The second step of CB_CLS: the gate, on the bitmask held in FGCB (42_uart.md R113). While FGCB ≠ none it
is FG's only step; it is no step otherwise, nor while a handler runs (46_bridge.md R162). -/
def secondStepOfCls (s : State) : Result :=
  if s.fault ≠ 0 then .fault (.frozen s.fault)
  else if s.ctx ≠ .fg then .refused .agentHasNoStep
  else match s.fgcb with
    | some m => .next { s with fgcb := none, uartIe := uartGate m s.uartIe }
    | none => .refused .agentHasNoStep

end Sys2Proof.Machine
end

