-- ==== Sys2Proof/Machine/Dispatch.lean ====
section
/-! DEFINITION. The dispatch: one arm per constructor of Instr, each one call of its meaning. -/

namespace Sys2Proof.Machine

def exec (i : Instr) (s : State) : Host.Outcome State Fault Refusal :=
  match i with
  | .gpioRead p => Sys2Proof.Machine.execGpioRead p s
  | .gpioWrite p b => Sys2Proof.Machine.execGpioWrite p b s
  | .gpioDir p b => Sys2Proof.Machine.execGpioDir p b s
  | .uartInit m => Sys2Proof.Machine.execUartInit m s
  | .uartDeinit => Sys2Proof.Machine.execUartDeinit s
  | .uartTx y => Sys2Proof.Machine.execUartTx y s
  | .uartIeOn => Sys2Proof.Machine.execUartIeOn s
  | .uartIeOff => Sys2Proof.Machine.execUartIeOff s
  | .tmrInit => Sys2Proof.Machine.execTmrInit s
  | .extConfig p b => Sys2Proof.Machine.execExtConfig p b s
  | .irqGlobal b => Sys2Proof.Machine.execIrqGlobal b s
  | .arbDetectRunmode => Sys2Proof.Machine.execArbDetectRunmode s
  | .arbDetectRole => Sys2Proof.Machine.execArbDetectRole s
  | .arbUpdateRunmode b => Sys2Proof.Machine.execArbUpdateRunmode b s
  | .arbUpdateRole b => Sys2Proof.Machine.execArbUpdateRole b s
  | .arbAddrMatch => Sys2Proof.Machine.execArbAddrMatch s
  | .usbRecv p => Sys2Proof.Machine.execUsbRecv p s
  | .usbSend c y => Sys2Proof.Machine.execUsbSend c y s
  | .usbService p => Sys2Proof.Machine.execUsbService p s
  | .regRead p => Sys2Proof.Machine.execRegRead p s
  | .cbCls c m => Sys2Proof.Machine.execCbCls c m s
  | .cbConnect => Sys2Proof.Machine.execCbConnect s
  | .cbDisconnect => Sys2Proof.Machine.execCbDisconnect s
  | .hExtA => Sys2Proof.Machine.execHExtA s
  | .hExtB => Sys2Proof.Machine.execHExtB s
  | .hTick => Sys2Proof.Machine.execHTick s
  | .hUrx => Sys2Proof.Machine.execHUrx s
  | .hUtx => Sys2Proof.Machine.execHUtx s
  | .reti => Sys2Proof.Machine.execReti s
  | .envPin p b => Sys2Proof.Machine.execEnvPin p b s
  | .syncSample p => Sys2Proof.Machine.execSyncSample p s
  | .envUartRx y => Sys2Proof.Machine.execEnvUartRx y s
  | .envTxDone => Sys2Proof.Machine.execEnvTxDone s
  | .envTick => Sys2Proof.Machine.execEnvTick s
  | .envHostCls c m => Sys2Proof.Machine.execEnvHostCls c m s
  | .envHostConnect => Sys2Proof.Machine.execEnvHostConnect s
  | .envHostDisconnect => Sys2Proof.Machine.execEnvHostDisconnect s
  | .envHostByte c y => Sys2Proof.Machine.execEnvHostByte c y s
  | .envHostTake p => Sys2Proof.Machine.execEnvHostTake p s

end Sys2Proof.Machine
end

