-- ==== Sys2Proof/Machine/Sequencer.lean ====
section
/-! DEFINITION. How the agents come to step: presenting a word (60_exceptions.md R184, R186), FG's script
(30_encoding.md R92) and callback delivery (46_bridge.md R162), MUX (60_exceptions.md R193), reset
(70_reset_and_hazards.md R211), the schedule (log 1), and where a word is put to be the next one taken. -/

namespace Sys2Proof.Machine

/-! ## Presenting a word -/

/-- Check 2 of 60_exceptions.md R186: whether agent `a` may perform the word's class now (R184 (a)). A class
C word is never presented, only delivered; an entry word is only a dispatch, RETI only a final micro-step. -/
def mayPerform (a : Agent) (i : Instr) (s : State) : Bool :=
  match i.wordClass with
  | .software => decide (a = .fg) && decide (s.ctx = .fg)
  | .callback => false
  | .handler =>
    decide (a = .mux) &&
      (match entrySource i with
        | some v => decide (s.nextDispatch = some v)
        | none => s.atFinalStep.isSome)
  | .event => decide (a = eventAgent i)

/-- Agent `a` presents the word `w`: the checks 1 to 3 of 60_exceptions.md R186 in their order, then the
word's meaning, which makes the checks 4 to 6. FG inside a callback has no word to present. -/
def presentWord (a : Agent) (w : Word) (s : State) : Result :=
  if s.fault ≠ 0 then .fault (.frozen s.fault)
  else if a = .fg ∧ s.fgcb.isSome then .refused .agentHasNoStep
  else match readFields w with
    | none => .next (s.raise .illegalOpc)
    | some i =>
      if mayPerform a i s then
        if reservedClear i w then exec i s else .next (s.raise .badOperand)
      else .next (s.raise .context)

/-- Checks 4 to 6 of 60_exceptions.md R186: the fault of the first that the instruction fails. -/
def lateFault (i : Instr) (s : State) : Option FaultCode :=
  (operandFault i).or (if writesOwnedPin i && s.booted then some .ownership else none)

/-- The first of the six checks of 60_exceptions.md R186 that the word fails, and the fault it gives. -/
def firstFault (a : Agent) (w : Word) (s : State) : Option FaultCode :=
  match readFields w with
  | none => some .illegalOpc
  | some i =>
    if !mayPerform a i s then some .context
    else if !reservedClear i w then some .badOperand
    else lateFault i s

/-! ## FG -/

/-- FG is at a boundary: context FG and not inside a callback (46_bridge.md R162). -/
def State.atBoundary (s : State) : Bool := decide (s.ctx = .fg) && s.fgcb.isNone

/-- A `<RES>` statement (30_encoding.md R92): its word with the value operand taken from RES. With RES = none the
word is checked as it would be with any operand from RES, the first failing check giving its fault, and F_MODEL is
raised where none fails: R186 has F_MODEL only for a well-formed word; R92 names no order (log 25). An unknown OPC
is F_ILLEGAL_OPC in every case; a known word without a bit or byte operand is no statement (log 17). -/
def runResStmt (w : Word) (s : State) : Result :=
  match readFields w with
  | none => presentWord .fg w s
  | some _ =>
    match fillRes w (s.res.getD 0) with
    | none => .refused .notAStatement
    | some w' =>
      if s.res.isSome then presentWord .fg w' s
      else .next (s.raise ((firstFault .fg w' s).getD .model))

/-- One statement of FG's script (30_encoding.md R92). -/
def runStmt (st : Stmt) (s : State) : Result :=
  match st with
  | .word w => presentWord .fg w s
  | .resWord w => runResStmt w s
  | .bnone target => .next { s with fgpc := if s.res = some resNone then target else s.fgpc + 1 }
  | .goto target => .next { s with fgpc := target }

/-- FG's next script statement; at the end of the script, inside a callback and while a handler runs FG has
none (10_state.md R26, 00_scope.md R8). -/
def scriptStep (s : State) : Result :=
  if s.fault ≠ 0 then .fault (.frozen s.fault)
  else if s.atBoundary then
    match s.script[s.fgpc]? with
    | some st => runStmt st s
    | none => .refused .agentHasNoStep
  else .refused .agentHasNoStep

/-- The class C word that delivers an event (46_bridge.md R162). -/
def callbackOf : UsbEvent → Instr
  | .clsChg c m => .cbCls c.id m
  | .connect => .cbConnect
  | .disconnect => .cbDisconnect

/-- The delivery of the head of EVQ (46_bridge.md R162). DESIGN CHOICE: the boundary before FG's first word since
reset, which R162 does not name and R198 names for dispatch only, counts as one, so that an event queued there
(R212) may be delivered there (log 26). -/
def deliverStep (s : State) : Result :=
  if s.fault ≠ 0 then .fault (.frozen s.fault)
  else if s.atBoundary then
    match s.evq with
    | e :: _ => exec (callbackOf e) s
    | [] => .refused .agentHasNoStep
  else .refused .agentHasNoStep

/-! ## MUX -/

/-- The next micro-step of the running handler (60_exceptions.md R196). -/
def microStep (v : Source) (s : State) : Result :=
  match v with
  | .extA => microExtA s
  | .extB => microExtB s
  | .tick => microTick s
  | .urx => microUrx s
  | .utx => microUtx s

/-- A step of MUX: the running handler's next micro-step, or in context FG the dispatch of the first
dispatchable source (60_exceptions.md R192, R193). -/
def muxStep (s : State) : Result :=
  if s.fault ≠ 0 then .fault (.frozen s.fault)
  else match s.ctx with
    | .handler v => microStep v s
    | .fg =>
      match s.nextDispatch with
      | some v => exec (entryWord v) s
      | none => .refused .agentHasNoStep

/-! ## Reset and the schedule -/

/-- Reset: every field to its value in 10_state.md R59, PIN kept and SYNC taken from it; what is not the
CORE's (parameters, script, schedule, the two counters) stays (70_reset_and_hazards.md R211, log 18). -/
def State.resetNow (s : State) : State := State.resetWith s.pin s.cfg s.script s.sched s.draws s.round

/-- A word of the schedule. FG has none there: FGPC indexes the next word FG issues (10_state.md R26). -/
def scheduledWord (a : Agent) (w : Word) (s : State) : Result :=
  match a with
  | .fg => if s.fault ≠ 0 then .fault (.frozen s.fault) else .refused .agentHasNoStep
  | .mux => presentWord .mux w s
  | .sync => presentWord .sync w s
  | .env => presentWord .env w s

/-- One scheduled action. -/
def perform (a : Action) (s : State) : Result :=
  match a with
  | .word g w => scheduledWord g w s
  | .script => scriptStep s
  | .deliver => deliverStep s
  | .cb2 => secondStepOfCls s
  | .mux => muxStep s
  | .reset => .next s.resetNow

/-- SYNC's turn in the default order: the input pins one after another. -/
def State.sampleAction (s : State) : Action :=
  .word .sync (encode (.syncSample (BitVec.ofNat 8 (s.round / 4 % 11))))

/-- FG's turn in the default order: the second step of a callback, else a delivery, else its script; SYNC's where
FG has none. -/
def State.fgAction (s : State) : Action :=
  if s.fgcb.isSome then .cb2
  else if !s.evq.isEmpty then .deliver
  else if (s.script[s.fgpc]?).isSome then .script
  else s.sampleAction

/-- The turns of the default order, FG, SYNC and two of ENV in rotation: ENV completes a transmission and ticks,
where the guards of those words hold, and SYNC samples where they do not. -/
def State.rotation (s : State) : Action :=
  match s.round % 4 with
  | 0 => s.fgAction
  | 1 => s.sampleAction
  | 2 => if s.uartEn && s.txbuf.isSome then .word .env (encode .envTxDone) else s.sampleAction
  | _ => if s.tmrEn then .word .env (encode .envTick) else s.sampleAction

/-- MUX has a step: a handler runs or a source can be dispatched. -/
def State.muxEnabled (s : State) : Bool := decide (s.ctx ≠ .fg) || s.nextDispatch.isSome

/-- The action of the next step and the state it is taken in: the schedule's entry, used up; with nothing
scheduled MUX's step if it has one, else the rotation's turn (log 2). -/
def State.nextAction (s : State) : Action × State :=
  match s.sched with
  | a :: rest => (a, { s with sched := rest })
  | [] => if s.muxEnabled then (.mux, s) else (s.rotation, { s with round := s.round + 1 })

/-- One step of the machine. -/
def stepMachine (s : State) : Result := perform s.nextAction.1 s.nextAction.2

/-! ## Where a word is put to be the next one taken (log 19) -/

/-- The event that a class C word delivers. -/
def eventOf : Instr → Option UsbEvent
  | .cbCls c m => (Chan.ofId c).map (.clsChg · m)
  | .cbConnect => some .connect
  | .cbDisconnect => some .disconnect
  | _ => none

/-- Source v requests and interrupts are enabled, so that the next dispatch takes it. -/
def State.request (s : State) (v : Source) : State :=
  match v with
  | .extA => { s with gie := true, pendExta := true, extaEn := true }
  | .extB => { s with gie := true, pendExtb := true, extbEn := true }
  | .tick => { s with gie := true, pendTick := true, tmrEn := true }
  | .urx => { s with gie := true, rxfull := true, rxdata := some 0, uartIe := true }
  | .utx => { s with gie := true, txc := true, uartIe := true }

/-- The guard of a class E word holds (47_environment.md R165 to R172, 43_timer.md R124), so that the word is
a step; a word without a guard changes nothing. -/
def State.openGuard (s : State) (i : Instr) : State :=
  match i with
  | .envUartRx _ => { s with uartEn := true }
  | .envTxDone => { s with uartEn := true, txbuf := some (s.txbuf.getD 0) }
  | .envTick => { s with tmrEn := true }
  | .envHostCls _ _ => { s with hostconn := true }
  | .envHostConnect => { s with hostconn := false }
  | .envHostDisconnect => { s with hostconn := true }
  | .envHostByte _ _ => { s with hostconn := true }
  | .envHostTake c =>
    match Chan.ofId c with
    | some q =>
      if (s.outq q).isEmpty then { s with hostconn := true }.setOutq q [0] else { s with hostconn := true }
    | none => { s with hostconn := true }
  | _ => s

/-- `a` is the next action. -/
def State.schedule (s : State) (a : Action) : State := { s with sched := a :: s.sched }

/-- `st` is the statement at FGPC. -/
def State.putStmt (s : State) (st : Stmt) : State :=
  { s with script := s.script.take s.fgpc ++ List.replicate (s.fgpc - s.script.length) (.goto 0)
                      ++ st :: s.script.drop (s.fgpc + 1) }

/-- What the agent that performs the word takes it from: an FG word is the script's statement at FGPC; ENV's
and SYNC's words are scheduled, their guard open; a class C word is the head of EVQ, delivered; an entry word
is a request, dispatched; RETI is a handler's final micro-step. A word that is no operation is FG's. -/
def State.place (s : State) (w : Word) : State :=
  match decode w with
  | .error _ => (s.putStmt (.word w)).schedule .script
  | .ok i =>
    match i.wordClass with
    | .software => (s.putStmt (.word w)).schedule .script
    | .callback =>
      match eventOf i with
      | some e => { s with evq := e :: s.evq }.schedule .deliver
      | none => (s.putStmt (.word w)).schedule .script
    | .handler =>
      match entrySource i with
      | some v => (s.request v).schedule (.word .mux w)
      | none =>
        { s with ctx := .handler .utx, hpc := some (finalStep .utx) }.schedule (.word .mux w)
    | .event => (s.openGuard i).schedule (.word (eventAgent i) w)

end Sys2Proof.Machine
end

