-- ==== Sys2Proof/Machine/Step.lean ====
section
/-! DEFINITION. One step of the machine, and the placing of one word where the next step takes it. -/

namespace Sys2Proof.Machine

/-- One atomic step of the agent whose turn it is (20_memory.md R67, R71; logs 1, 2). -/
def step (s : State) : Host.Outcome State Fault Refusal := stepMachine s

/-- `s` with one word of the opcode table put where the next step takes it from (log 19). -/
def State.withFetchWord (s : State) (nbits w : Nat) : State := s.place (tableWord nbits w)

end Sys2Proof.Machine
end

