-- ==== Sys2Proof/Machine/Observe.lean ====
section
/-! DEFINITION. What is seen of the state without changing it: the levels on the output-role pins
(10_state.md R33), ModeState (R34), the UART lifecycle state (42_uart.md R117), and the stuck reason a
model reports (60_exceptions.md R187, R188). -/

namespace Sys2Proof.Machine

/-- The level outside the CORE: not driven, or a level (10_state.md R33). -/
inductive OutLevel where
  | z
  | level (v : Bool)
  deriving DecidableEq, Repr

/-- OUTLVL(p); `d` is the free level that one observation of a driven, never written latch gives, so a claim
about such an observation holds for both values of `d` (10_state.md R33, log 22). -/
def State.outLevel (s : State) (p : OutPin) (d : Bool) : OutLevel :=
  match s.dir.get p with
  | .inp => .z
  | .out =>
    match s.lat.get p with
    | some v => .level v
    | none => .level d

/-- runMode of ModeState, `none` while it has not been arbitrated since reset (10_state.md R34). -/
def State.runMode (s : State) : Option RunMode := s.lat.prout.map RunMode.ofBit

/-- role of ModeState, `none` while it has not been arbitrated since reset (10_state.md R34). -/
def State.role (s : State) : Option Role := s.lat.msout.map Role.ofBit

/-- The lifecycle states of the UART channel (42_uart.md R117). -/
inductive Lifecycle where
  | off
  | offArmed
  | onQuiet
  | onActive
  deriving DecidableEq, Repr

def State.lifecycle (s : State) : Lifecycle :=
  match s.uartEn, s.uartIe with
  | false, false => .off
  | false, true => .offArmed
  | true, false => .onQuiet
  | true, true => .onActive

/-! ## The foreground's hold (42_uart.md R108) -/

/-- The word is a UART_TX, its reserved bits clear: any other word faults and does not hold. -/
def isUartTx (w : Word) : Bool :=
  match decode w with
  | .ok (.uartTx _) => true
  | _ => false

/-- FG's next statement is a UART_TX, its operand literal or in RES. -/
def State.atUartTx (s : State) : Bool :=
  match s.script[s.fgpc]? with
  | some (.word w) => isUartTx w
  | some (.resWord w) => ((s.res.bind (fillRes w)).map isUartTx).getD false
  | some (.bnone _) => false
  | some (.goto _) => false
  | none => false

/-- FG holds in UART_TX: the word it is at cannot proceed. A handler that runs meanwhile (60_exceptions.md R197)
and a callback between its two steps (46_bridge.md R162) leave the hold as it is. -/
def State.holding (s : State) : Bool := decide (s.fault = 0) && s.atUartTx && !s.txReady

/-- The stuck reasons (60_exceptions.md R188). -/
inductive StuckReason where
  | txDisabled
  deriving DecidableEq, Repr

/-- S_TX_DISABLED: FG holds in UART_TX and UART_EN = 0 (60_exceptions.md R188, log 23). -/
def State.stuckReason (s : State) : Option StuckReason :=
  if s.holding && !s.uartEn then some .txDisabled else none

/-- No delivery of CONNECT is waiting that would release it (60_exceptions.md R187). -/
def State.noConnectQueued (s : State) : Bool := !s.evq.contains .connect

end Sys2Proof.Machine
end

