-- ==== Sys2Proof/Safety.lean ====
section
/-! DEFINITION. The terms claims are stated in: a fault-free state, an agent's turn, the invariant of the
machine, what HIST says of the outputs, infinite runs and their fairness (60_exceptions.md R208). -/

namespace Sys2Proof.Machine

/-! ## States an agent can step in -/

/-- No fault since reset (60_exceptions.md R185: claims are claims about fault-free runs). -/
abbrev State.FaultFree (s : State) : Prop := s.fault = 0

/-- FG can issue a word: no fault, context FG, not inside a callback (46_bridge.md R162). -/
abbrev State.FgReady (s : State) : Prop := s.fault = 0 ∧ s.ctx = .fg ∧ s.fgcb = none

/-- The handler of vector v runs, its next micro-step being k. -/
abbrev State.InHandler (s : State) (v : Source) (k : Nat) : Prop :=
  s.fault = 0 ∧ s.ctx = .handler v ∧ s.hpc = some k

/-- `n` steps of MUX, one after another, up to the first that is none. -/
def muxSteps : Nat → State → Result
  | 0, s => .next s
  | n + 1, s =>
    match muxStep s with
    | .next t => muxSteps n t
    | .fault r => .fault r
    | .refused r => .refused r

/-! ## The invariant -/

/-- The temporaries that the next micro-step of a handler reads are written (10_state.md R25). -/
def temporariesReady (v : Source) (k : Nat) (s : State) : Bool :=
  match v with
  | .extA =>
    (k != 1 || s.tMode.isSome) && (k != 3 || s.tRole.isSome) && (k != 5 || s.tBus.isSome)
      && (k != 6 || (s.tBus.isSome && s.tKnob.isSome))
  | .extB =>
    (k != 1 || s.tRole.isSome) && (k != 3 || s.tBus.isSome)
      && (k != 4 || (s.tBus.isSome && s.tKnob.isSome))
  | .tick => true
  | .urx => s.tByte.isSome
  | .utx => true

/-- CTX and HPC agree, HPC is an index of the running handler, and its temporaries are written. -/
def contextOk (s : State) : Bool :=
  match s.ctx, s.hpc with
  | .fg, none => true
  | .handler v, some k => decide (k ≤ finalStep v) && temporariesReady v k s
  | .fg, some _ => false
  | .handler _, none => false

/-- RXFULL says whether RXDATA holds a byte; a disabled channel holds no byte, no flag and nothing to
transmit; an enabled one has a baud rate (42_uart.md R106, R107, 47_environment.md R166). -/
def uartOk (s : State) : Bool :=
  (s.rxfull == s.rxdata.isSome) && (s.uartEn || (!s.rxfull && !s.txc && s.txbuf.isNone))
    && (!s.uartEn || decide (s.baud ≠ 0))

/-- A queue length within P_USBQ_CAP (10_state.md R46). -/
def withinCap (c : Params) (len : Nat) : Bool := c.usbqCap.all (fun cap => decide (len ≤ cap))

/-- The USB queues are within capacity; nothing waits from a host that is not connected. -/
def queuesOk (s : State) : Bool :=
  withinCap s.cfg s.inq0.length && withinCap s.cfg s.inq1.length && withinCap s.cfg s.outq0.length
    && withinCap s.cfg s.outq1.length && (s.hostconn || (s.inq0.isEmpty && s.inq1.isEmpty))

/-- CONNECT and DISCONNECT events alternate and the last one is the host's present state
(47_environment.md R170). -/
def connectionsAlternate (connected : Bool) : List UsbEvent → Bool
  | [] => true
  | .clsChg _ _ :: rest => connectionsAlternate connected rest
  | .connect :: rest =>
    (match rest.find? (fun e => decide (e = .connect ∨ e = .disconnect)) with
      | none => connected
      | some e => decide (e = .disconnect)) && connectionsAlternate connected rest
  | .disconnect :: rest =>
    (match rest.find? (fun e => decide (e = .connect ∨ e = .disconnect)) with
      | none => !connected
      | some e => decide (e = .connect)) && connectionsAlternate connected rest

/-- The invariant of the machine: legal parameters, the four checks above, interrupts enabled only after
bring-up (48_system.md R177), and a legal fault code (60_exceptions.md R183). -/
def State.inv (s : State) : Bool :=
  s.cfg.legal && contextOk s && uartOk s && queuesOk s && connectionsAlternate s.hostconn s.evq
    && (!s.gie || s.booted) && decide (s.fault.toNat ≤ 8)

/-! ## What HIST says (10_state.md R53) -/

/-- The pin writes, in order. -/
def pinwrites : List Event → List (OutPin × Bool)
  | [] => []
  | .pinwrite p v :: rest => (p, v) :: pinwrites rest
  | _ :: rest => pinwrites rest

/-- The next `n` steps of MUX lead back to the foreground with the latches `l` and the pin writes `written`, in
that order; nothing else changes but HIST and the line handlers' temporaries. -/
def State.LineHandlerReturns (s : State) (n : Nat) (l : OutLatches) (written : List (OutPin × Bool)) : Prop :=
  ∃ t es, muxSteps n s = .next t ∧ pinwrites es = written
    ∧ t = { s with
        lat := l, ctx := .fg, hpc := none, hist := s.hist ++ es,
        tMode := t.tMode, tRole := t.tRole, tBus := t.tBus, tKnob := t.tKnob, tMatch := t.tMatch }

/-- The last level written to a pin's latch. -/
def lastPinwrite (p : OutPin) : List Event → Option Bool
  | [] => none
  | e :: rest =>
    match lastPinwrite p rest with
    | some v => some v
    | none =>
      match e with
      | .pinwrite q v => if q = p then some v else none
      | _ => none

/-- The last direction written for a pin. -/
def lastDirwrite (p : OutPin) : List Event → Option Direction
  | [] => none
  | e :: rest =>
    match lastDirwrite p rest with
    | some v => some v
    | none =>
      match e with
      | .dirwrite q d => if q = p then some d else none
      | _ => none

/-- The bytes delivered to the UART line, in order. -/
def lineBytes : List Event → List Byte
  | [] => []
  | .uartline b :: rest => b :: lineBytes rest
  | _ :: rest => lineBytes rest

/-- The codes recorded by faults, in order. -/
def faultCodes : List Event → List Byte
  | [] => []
  | .fault c :: rest => c :: faultCodes rest
  | _ :: rest => faultCodes rest

/-- HIST tells the latches, the directions, the UART line and the fault. -/
def State.HistAgrees (s : State) : Prop :=
  (∀ p, s.lat.get p = lastPinwrite p s.hist)
    ∧ (∀ p, s.dir.get p = (lastDirwrite p s.hist).getD .inp)
    ∧ s.utxline = lineBytes s.hist
    ∧ faultCodes s.hist = (if s.fault = 0 then [] else [s.fault])

/-! ## Runs and fairness (60_exceptions.md R208) -/

/-- The action the next step takes. -/
def State.turn (s : State) : Action := s.nextAction.1

/-- The step that the action `a` is, `a` alone being scheduled. -/
def stepBy (a : Action) (s : State) : Result := step { s with sched := [a] }

/-- An infinite run in the order `o` of turns, any order of 00_scope.md R7: the schedule is given one action a
step, without end. -/
def IsRun (o : Nat → Action) (r : Nat → State) : Prop := ∀ n, stepBy (o n) (r n) = .next (r (n + 1))

/-- FG has an enabled step: the second step of a callback, a delivery, or a script statement that does not
hold in UART_TX. -/
def State.fgEnabled (s : State) : Bool :=
  decide (s.fault = 0) && decide (s.ctx = .fg)
    && (s.fgcb.isSome || !s.evq.isEmpty || ((s.script[s.fgpc]?).isSome && !s.holding))

/-- The turn is FG's. -/
def fgTurn : Action → Bool
  | .script => true
  | .deliver => true
  | .cb2 => true
  | .mux => false
  | .word _ _ => false
  | .reset => false

/-- Something that holds again and again. -/
def InfinitelyOften (p : Nat → Prop) : Prop := ∀ n, ∃ m, n ≤ m ∧ p m

/-- (a) A handler that has started reaches its return; a request that is dispatchable whenever FG's context is
entered, however often handlers run in between, is dispatched. -/
def MuxFair (r : Nat → State) : Prop :=
  (∀ n, (r n).ctx ≠ .fg → ∃ m, n ≤ m ∧ (r m).ctx = .fg)
    ∧ ∀ v n, (∀ m, n ≤ m → (r m).ctx = .fg → (r m).dispatchable v = true) →
      ∃ m, n ≤ m ∧ (r m).ctx = .fg ∧ (r (m + 1)).ctx = .handler v

/-- (b) If FG has an enabled step again and again, it takes one again and again; while EVQ holds an event a
delivery comes, or a reset, which discards the event. -/
def FgFair (o : Nat → Action) (r : Nat → State) : Prop :=
  (InfinitelyOften (fun n => (r n).fgEnabled = true) →
      InfinitelyOften fun n => (r n).fgEnabled = true ∧ fgTurn (o n) = true)
    ∧ ∀ n, (r n).evq ≠ [] → ∃ m, n ≤ m ∧ (o m = .deliver ∨ o m = .reset)

/-- (c) Every input pin is sampled infinitely often. -/
def SyncFair (o : Nat → Action) : Prop :=
  ∀ p, InPin.ofId p ≠ none → InfinitelyOften fun n => o n = .word .sync (encode (.syncSample p))

/-- (d) A transmission completes while the channel stays enabled; ticks recur while the timer runs. -/
def EnvFair (o : Nat → Action) (r : Nat → State) : Prop :=
  (∀ n, (∀ m, n ≤ m → (r m).uartEn = true ∧ (r m).txbuf ≠ none) →
      ∃ m, n ≤ m ∧ o m = .word .env (encode .envTxDone))
    ∧ ∀ n, (∀ m, n ≤ m → (r m).tmrEn = true) → ∃ m, n ≤ m ∧ o m = .word .env (encode .envTick)

/-- A fair fault-free infinite run in the order `o`. -/
structure FairRun (o : Nat → Action) (r : Nat → State) : Prop where
  run : IsRun o r
  faultFree : ∀ n, (r n).FaultFree
  mux : MuxFair r
  fg : FgFair o r
  sync : SyncFair o
  env : EnvFair o r

end Sys2Proof.Machine
end

