-- ==== Sys2Proof/Certificates/Slice0/Obligations.lean ====
section
/-! DEFINITION. The statements about the model, from the numbered rules of spec/.

An equation `exec i s = .next { s with … }` says the new value of every field it names, and that every other
field of State is unchanged. Where it gives `hist`, the place of the word's own record `word(agent, w)` before
the effect's records is the model's choice (log 8); where it gives `draws`, that counter is the model's own
(log 7). -/

open Sys2Proof Sys2Proof.Machine

/-! ## Encoding -/

/-- 30_encoding.md R79, R81, R85: no operand bit is dropped by the encoding, well formed or not. -/
def Obligations.EncodeThenDecodeIsIdentity : Prop :=
  ∀ i : Instr, decode (encode i) = .ok i

/-- 30_encoding.md R79, R80, R85: each word has one meaning, so decoding loses no bit of the word. -/
def Obligations.DecodedWordIsTheEncoding : Prop :=
  ∀ (w : Word) (i : Instr), decode w = .ok i → encode i = w

/-- 30_encoding.md R80: a word selects the operation of a row iff `(word & mask) = match`. -/
def Obligations.MaskAndMatchSelectTheOperation : Prop :=
  ∀ (j : Instr) (w : Word),
    (∃ i, decode w = .ok i ∧ i.ctorIdx = j.ctorIdx) ↔ w &&& j.shape.mask = matchWord j.opc

/-- 30_encoding.md R86. -/
def Obligations.NoWordMatchesTwoRows : Prop :=
  (∀ (i j : Instr) (w : Word), w &&& i.shape.mask = matchWord i.opc →
      w &&& j.shape.mask = matchWord j.opc → i.ctorIdx = j.ctorIdx)
    ∧ (∀ i j : Instr, i.opc = j.opc → i.ctorIdx = j.ctorIdx)
    ∧ ∀ i : Instr, i.shape.mask.extractLsb' 24 8 = 0xFF

/-- 30_encoding.md R87: the illegal OPC values, whichever agent presents the word. FG inside a callback
presents no word (46_bridge.md R162). -/
def Obligations.IllegalOpcodeFaults : Prop :=
  ∀ (a : Agent) (w : Word) (s : State), s.fault = 0 → (a = .fg → s.fgcb = none) →
    (∃ o, o = (opcField w).toNat ∧
      (o = 0x00 ∨ (0x04 ≤ o ∧ o ≤ 0x0F) ∨ (0x15 ≤ o ∧ o ≤ 0x1F) ∨ (0x21 ≤ o ∧ o ≤ 0x27)
        ∨ (0x2A ≤ o ∧ o ≤ 0x2F) ∨ (0x35 ≤ o ∧ o ≤ 0x3F) ∨ (0x43 ≤ o ∧ o ≤ 0x4F)
        ∨ (0x51 ≤ o ∧ o ≤ 0x5F) ∨ (0x63 ≤ o ∧ o ≤ 0x6F) ∨ (0x75 ≤ o ∧ o ≤ 0x7E) ∨ 0x8A ≤ o)) →
    presentWord a w s = .next { s with fault := 0x01, hist := s.hist ++ [.fault 0x01] }

/-- 60_exceptions.md R186: the first check that fails gives the fault. -/
def Obligations.FirstFailingCheckGivesTheFault : Prop :=
  ∀ (a : Agent) (w : Word) (s : State), s.fault = 0 → (a = .fg → s.fgcb = none) →
    (readFields w = none →
      presentWord a w s = .next { s with fault := 0x01, hist := s.hist ++ [.fault 0x01] })
    ∧ ∀ i, readFields w = some i →
      (mayPerform a i s = false →
        presentWord a w s = .next { s with fault := 0x06, hist := s.hist ++ [.fault 0x06] })
      ∧ (mayPerform a i s = true →
        (w &&& i.shape.mask ≠ matchWord i.opc →
          presentWord a w s = .next { s with fault := 0x02, hist := s.hist ++ [.fault 0x02] })
        ∧ (w &&& i.shape.mask = matchWord i.opc →
          (∀ c, operandFault i = some c →
            presentWord a w s = .next { s with fault := c.code, hist := s.hist ++ [.fault c.code] })
          ∧ (operandFault i = none → writesOwnedPin i = true → s.booted = true →
            presentWord a w s = .next { s with fault := 0x07, hist := s.hist ++ [.fault 0x07] })))

/-- 60_exceptions.md R184 (a), 30_encoding.md R82: a word presented by an agent, or in a context, that may not
perform its class raises F_CONTEXT. -/
def Obligations.WordOfAnotherAgentOrContextFaults : Prop :=
  ∀ (a : Agent) (i : Instr) (s : State), s.fault = 0 → (a = .fg → s.fgcb = none) →
    ((i.wordClass = .software ∧ (a ≠ .fg ∨ s.ctx ≠ .fg))
      ∨ i.wordClass = .callback
      ∨ (i.wordClass = .handler ∧ a ≠ .mux)
      ∨ (∃ v, i = entryWord v ∧ s.nextDispatch ≠ some v)
      ∨ (i = .reti ∧ ∀ v, ¬ s.InHandler v (finalStep v))
      ∨ (i.wordClass = .event ∧ (∃ p, i = .syncSample p) ∧ a ≠ .sync)
      ∨ (i.wordClass = .event ∧ (¬ ∃ p, i = .syncSample p) ∧ a ≠ .env)) →
    presentWord a (encode i) s = .next { s with fault := 0x06, hist := s.hist ++ [.fault 0x06] }

/-- 30_encoding.md R96: some of its worked examples. -/
def Obligations.SampleWordsDecode : Prop :=
  decode 0x030B0001 = .ok (.gpioDir 11 .out) ∧ decode 0x20000000 = .ok .tmrInit
    ∧ decode 0x28000001 = .ok (.extConfig 0 true) ∧ decode 0x29000001 = .ok (.irqGlobal true)
    ∧ decode 0x10000060 = .ok (.uartInit 96) ∧ decode 0x41000041 = .ok (.usbSend 0 0x41)
    ∧ decode 0x60000003 = .ok (.cbCls 0 3) ∧ decode 0x85010002 = .ok (.envHostCls 1 2)
    ∧ decode 0x33000000 = .ok (.arbUpdateRole .slave) ∧ decode 0x33000001 = .ok (.arbUpdateRole .master)
    ∧ decode 0x81090000 = .ok (.syncSample 9) ∧ decode 0x82000041 = .ok (.envUartRx 0x41)
    ∧ decode 0x020B0003 = .error .reservedBits ∧ decode 0x15000000 = .error .illegalOpc

/-! ## The step -/

/-- A step runs the decoded instruction: a scheduled word of MUX, SYNC or ENV; the statement of FG's script at
FGPC; the head of EVQ at a delivery; the dispatch of the next source. What the step adds is that the
schedule's entry is used up. With nothing scheduled, MUX without a step and FG's turn in the default order, FG's
script runs on; what the step adds there is that the turn is counted (log 2). The schedule is the model's own
(log 1). -/
def Obligations.StepRunsTheDecodedInstruction : Prop :=
  ∀ (s : State) (rest : List Action), s.fault = 0 →
    (∀ a w i, s.sched = .word a w :: rest → a ≠ .fg → decode w = .ok i →
      mayPerform a i { s with sched := rest } = true → step s = exec i { s with sched := rest })
    ∧ (∀ w i, s.sched = .script :: rest → s.ctx = .fg → s.fgcb = none →
      s.script[s.fgpc]? = some (.word w) → decode w = .ok i → i.wordClass = .software →
      step s = exec i { s with sched := rest })
    ∧ (∀ e es, s.sched = .deliver :: rest → s.ctx = .fg → s.fgcb = none → s.evq = e :: es →
      step s = exec (callbackOf e) { s with sched := rest })
    ∧ (∀ v, s.sched = .mux :: rest → s.nextDispatch = some v →
      step s = exec (entryWord v) { s with sched := rest })
    ∧ (∀ w i, s.sched = [] → s.round % 4 = 0 → s.ctx = .fg → s.fgcb = none → s.nextDispatch = none →
      s.evq = [] → s.script[s.fgpc]? = some (.word w) → decode w = .ok i → i.wordClass = .software →
      step s = exec i { s with round := s.round + 1 })

/-- 30_encoding.md R92: BNONE, GOTO, and a `<RES>` statement with RES = none on a word of shape B, IB, Y or IY.
That such a statement raises the fault of an index or ownership check of 60_exceptions.md R186 that fails, and
F_MODEL where none does, is the model's choice of an order R92 does not give (log 25); a `<RES>` on a word of
another shape is refused (log 17). (The model's own: the schedule is log 1.) -/
def Obligations.ScriptControlStatements : Prop :=
  ∀ (s : State) (rest : List Action), s.FgReady → s.sched = .script :: rest →
    (∀ l, s.script[s.fgpc]? = some (.bnone l) → s.res = some 0x0100 →
      step s = .next { s with sched := rest, fgpc := l })
    ∧ (∀ l, s.script[s.fgpc]? = some (.bnone l) → s.res ≠ some 0x0100 →
      step s = .next { s with sched := rest, fgpc := s.fgpc + 1 })
    ∧ (∀ l, s.script[s.fgpc]? = some (.goto l) → step s = .next { s with sched := rest, fgpc := l })
    ∧ (∀ i, s.script[s.fgpc]? = some (.resWord (encode i)) → s.res = none → i.wordClass = .software →
      (i.shape = .b ∨ i.shape = .ib ∨ i.shape = .y ∨ i.shape = .iy) →
      (∀ c, operandFault i = some c →
        step s = .next { s with sched := rest, fault := c.code, hist := s.hist ++ [.fault c.code] })
      ∧ (operandFault i = none → writesOwnedPin i = true → s.booted = true →
        step s = .next { s with sched := rest, fault := 0x07, hist := s.hist ++ [.fault 0x07] })
      ∧ (operandFault i = none → (writesOwnedPin i = true → s.booted = false) →
        step s = .next { s with sched := rest, fault := 0x08, hist := s.hist ++ [.fault 0x08] }))

/-- 30_encoding.md R92: a `<RES>` statement runs its word with `RES[0]` as the bit operand or `RES[7:0]` as the
byte operand, whatever value operand the statement's own word holds.
(The model's own: the schedule is log 1.) -/
def Obligations.ResStatementTakesItsOperandFromRes : Prop :=
  ∀ (s : State) (rest : List Action) (r : Half) (i : Instr), s.FgReady → s.sched = .script :: rest →
    s.res = some r → s.script[s.fgpc]? = some (.resWord (encode i)) →
    (∀ p b, i = .gpioWrite p b → step s = exec (.gpioWrite p (r.getLsbD 0)) { s with sched := rest })
    ∧ (∀ p d, i = .gpioDir p d →
      step s = exec (.gpioDir p (if r.getLsbD 0 then .out else .inp)) { s with sched := rest })
    ∧ (∀ l e, i = .extConfig l e → step s = exec (.extConfig l (r.getLsbD 0)) { s with sched := rest })
    ∧ (∀ b, i = .irqGlobal b → step s = exec (.irqGlobal (r.getLsbD 0)) { s with sched := rest })
    ∧ (∀ m, i = .arbUpdateRunmode m →
      step s = exec (.arbUpdateRunmode (if r.getLsbD 0 then .program else .run)) { s with sched := rest })
    ∧ (∀ m, i = .arbUpdateRole m →
      step s = exec (.arbUpdateRole (if r.getLsbD 0 then .master else .slave)) { s with sched := rest })
    ∧ (∀ y, i = .uartTx y → step s = exec (.uartTx (r.extractLsb' 0 8)) { s with sched := rest })
    ∧ (∀ c y, i = .usbSend c y → step s = exec (.usbSend c (r.extractLsb' 0 8)) { s with sched := rest })

/-- 60_exceptions.md R185: once FAULT is not 0, no agent has a step until reset.
(The model's own: the schedule is log 1.) -/
def Obligations.FaultFreezesEveryAgentUntilReset : Prop :=
  ∀ s : State, s.fault ≠ 0 → s.turn ≠ .reset → step s = .fault (.frozen s.fault)

/-- 70_reset_and_hazards.md R211, 10_state.md R59: reset at any time, a fault, a hold or a running handler
included. PIN is not reset; `c`, `sc`, `sd`, `k` and `m` are the model's own fields, which are none of R59's. -/
def Obligations.ResetSetsEveryField : Prop :=
  ∀ s : State, ∃ (c : Params) (sc : List Stmt) (sd : List Action) (k m : Nat), perform .reset s = .next
      { pin := s.pin, sync := s.pin, dir := ⟨.inp, .inp, .inp⟩, lat := ⟨none, none, none⟩,
        uartEn := false, uartIe := false, tmrEn := false, extaEn := false, extbEn := false, gie := false,
        pendExta := false, pendExtb := false, pendTick := false, rxfull := false, txc := false,
        rxdata := none, txbuf := none, baud := 0, txi := false, rxi := false, cls0 := 0, cls1 := 0,
        clsLast := 0, ctx := .fg, booted := false, fault := 0, res := none, inq0 := [], inq1 := [],
        outq0 := [], outq1 := [], hostconn := false, evq := [], utxline := [], fgpc := 0, fgcb := none,
        hpc := none, tMode := none, tRole := none, tBus := none, tKnob := none, tMatch := none,
        tByte := none, hist := [], cfg := c, script := sc, sched := sd, draws := k, round := m }

/-! ## GPIO (41_gpio.md) -/

/-- R99: an input-role pin gives its synchronized level, an output-role pin its latch, a latch never written a
free level. (The model's own: the word's place in HIST is log 8, free values are log 7.) -/
def Obligations.GpioReadReturnsTheLevel : Prop :=
  ∀ (s : State) (p : Byte), s.FgReady →
    (∀ q, InPin.ofId p = some q →
      exec (.gpioRead p) s = .next { s with
        res := some (if s.sync.get q then 1 else 0), fgpc := s.fgpc + 1,
        hist := s.hist ++ [.word .fg (encode (.gpioRead p))] })
    ∧ (∀ q v, OutPin.ofId p = some q → s.lat.get q = some v →
      exec (.gpioRead p) s = .next { s with
        res := some (if v then 1 else 0), fgpc := s.fgpc + 1,
        hist := s.hist ++ [.word .fg (encode (.gpioRead p))] })
    ∧ (∀ q, OutPin.ofId p = some q → s.lat.get q = none →
      exec (.gpioRead p) s = .next { s with
        res := some (if Config.drawBit s.draws then 1 else 0), fgpc := s.fgpc + 1,
        hist := s.hist ++ [.word .fg (encode (.gpioRead p))], draws := s.draws + 1 })
    ∧ (13 < p.toNat →
      exec (.gpioRead p) s = .next { s with fault := 0x03, hist := s.hist ++ [.fault 0x03] })

/-- R100, R101: before the end of bring-up FG writes a latch or a direction of an output-role pin, and records
it; any other pin id is F_BAD_PIN. (The model's own: the word's place in HIST is log 8.) -/
def Obligations.GpioWriteAndDirDuringBringUp : Prop :=
  ∀ (s : State) (p : Byte) (b : Bool) (d : Direction), s.FgReady → s.booted = false →
    (∀ q, OutPin.ofId p = some q →
      exec (.gpioWrite p b) s = .next { s with
        lat := s.lat.set q (some b), fgpc := s.fgpc + 1,
        hist := s.hist ++ [.word .fg (encode (.gpioWrite p b)), .pinwrite q b] }
      ∧ exec (.gpioDir p d) s = .next { s with
        dir := s.dir.set q d, fgpc := s.fgpc + 1,
        hist := s.hist ++ [.word .fg (encode (.gpioDir p d)), .dirwrite q d] })
    ∧ (p.toNat < 11 ∨ 13 < p.toNat →
      exec (.gpioWrite p b) s = .next { s with fault := 0x03, hist := s.hist ++ [.fault 0x03] }
      ∧ exec (.gpioDir p d) s = .next { s with fault := 0x03, hist := s.hist ++ [.fault 0x03] })

/-- 70_reset_and_hazards.md R229, 60_exceptions.md R184 (b): after bring-up an FG word that writes an output
raises F_OWNERSHIP and changes no output. -/
def Obligations.OutputWordsFaultAfterBringUp : Prop :=
  ∀ (s : State) (p : Byte) (b : Bool) (d : Direction) (m : RunMode) (r : Role) (i : Instr),
    s.FgReady → s.booted = true → 11 ≤ p.toNat → p.toNat ≤ 13 →
    (i = .gpioWrite p b ∨ i = .gpioDir p d ∨ i = .arbUpdateRunmode m ∨ i = .arbUpdateRole r) →
    exec i s = .next { s with fault := 0x07, hist := s.hist ++ [.fault 0x07] }

/-- R97, 44_edge.md R129, R130: SYNC takes PIN; a rising edge on Line A, any edge on Line B, sets the line's
flag while the line is enabled, and may set it, as a free bit says, while it is not.
(The model's own: the word's place in HIST is log 8, free values are log 7.) -/
def Obligations.SyncSampleTakesThePinAndDetectsEdges : Prop :=
  ∀ (s : State) (p : Byte) (q : InPin), s.fault = 0 → InPin.ofId p = some q →
    (q ≠ .linea → q ≠ .lineb →
      exec (.syncSample p) s = .next { s with
        sync := s.sync.set q (s.pin.get q), hist := s.hist ++ [.word .sync (encode (.syncSample p))] })
    ∧ (q = .linea → ¬ (s.sync.linea = false ∧ s.pin.linea = true) →
      exec (.syncSample p) s = .next { s with
        sync := s.sync.set q (s.pin.get q), hist := s.hist ++ [.word .sync (encode (.syncSample p))] })
    ∧ (q = .linea → s.sync.linea = false → s.pin.linea = true → s.extaEn = true →
      exec (.syncSample p) s = .next { s with
        sync := s.sync.set q (s.pin.get q), hist := s.hist ++ [.word .sync (encode (.syncSample p))],
        pendExta := true })
    ∧ (q = .linea → s.sync.linea = false → s.pin.linea = true → s.extaEn = false →
      exec (.syncSample p) s = .next { s with
        sync := s.sync.set q (s.pin.get q), hist := s.hist ++ [.word .sync (encode (.syncSample p))],
        pendExta := s.pendExta || Config.drawBit s.draws, draws := s.draws + 1 })
    ∧ (q = .lineb → s.sync.lineb = s.pin.lineb →
      exec (.syncSample p) s = .next { s with
        sync := s.sync.set q (s.pin.get q), hist := s.hist ++ [.word .sync (encode (.syncSample p))] })
    ∧ (q = .lineb → s.sync.lineb ≠ s.pin.lineb → s.extbEn = true →
      exec (.syncSample p) s = .next { s with
        sync := s.sync.set q (s.pin.get q), hist := s.hist ++ [.word .sync (encode (.syncSample p))],
        pendExtb := true })
    ∧ (q = .lineb → s.sync.lineb ≠ s.pin.lineb → s.extbEn = false →
      exec (.syncSample p) s = .next { s with
        sync := s.sync.set q (s.pin.get q), hist := s.hist ++ [.word .sync (encode (.syncSample p))],
        pendExtb := s.pendExtb || Config.drawBit s.draws, draws := s.draws + 1 })

/-- 10_state.md R33. That the free level of an unwritten, driven latch is the argument `d` of one observation, so
that two observations may differ, is the model's choice (log 22). -/
def Obligations.OutputLevelSeenOutside : Prop :=
  ∀ (s : State) (p : OutPin) (d : Bool),
    (s.dir.get p = .inp → s.outLevel p d = .z)
    ∧ (∀ v, s.dir.get p = .out → s.lat.get p = some v → s.outLevel p d = .level v)
    ∧ (s.dir.get p = .out → s.lat.get p = none → s.outLevel p d = .level d)

/-! ## UART channel (42_uart.md) -/

/-- R106. (The model's own: the word's place in HIST is log 8.) -/
def Obligations.UartInitEnablesTheChannel : Prop :=
  ∀ (s : State) (m : Half), s.FgReady →
    (m ≠ 0 → s.uartEn = false →
      exec (.uartInit m) s = .next { s with
        uartEn := true, rxdata := none, rxfull := false, txc := false, txbuf := none, baud := m,
        fgpc := s.fgpc + 1, hist := s.hist ++ [.word .fg (encode (.uartInit m))] })
    ∧ (m ≠ 0 → s.uartEn = true →
      exec (.uartInit m) s = .next { s with
        baud := m, fgpc := s.fgpc + 1, hist := s.hist ++ [.word .fg (encode (.uartInit m))] })
    ∧ (m = 0 →
      exec (.uartInit m) s = .next { s with fault := 0x02, hist := s.hist ++ [.fault 0x02] })

/-- R107. (The model's own: the word's place in HIST is log 8.) -/
def Obligations.UartDeinitDisablesTheChannel : Prop :=
  ∀ s : State, s.FgReady →
    exec .uartDeinit s = .next { s with
      uartEn := false, uartIe := false, rxdata := none, rxfull := false, txc := false, txbuf := none,
      fgpc := s.fgpc + 1, hist := s.hist ++ [.word .fg (encode .uartDeinit)] }

/-- R108: the byte is written when the channel is enabled and the buffer empty; otherwise the word holds and
nothing changes, FGPC included (that a hold is a step that changes nothing is the model's choice, log 11).
(The model's own: the word's place in HIST is log 8.) -/
def Obligations.UartTxWritesOrHolds : Prop :=
  ∀ (s : State) (y : Byte), s.FgReady →
    (s.uartEn = true → s.txbuf = none →
      exec (.uartTx y) s = .next { s with
        txbuf := some y, fgpc := s.fgpc + 1,
        hist := s.hist ++ [.word .fg (encode (.uartTx y)), .uarttx y] })
    ∧ (s.uartEn = false ∨ s.txbuf ≠ none → exec (.uartTx y) s = .next s)

/-- R109, R110. (The model's own: the word's place in HIST is log 8.) -/
def Obligations.UartInterruptEnableWords : Prop :=
  ∀ s : State, s.FgReady →
    exec .uartIeOn s = .next { s with
      uartIe := true, fgpc := s.fgpc + 1, hist := s.hist ++ [.word .fg (encode .uartIeOn)] }
    ∧ exec .uartIeOff s = .next { s with
      uartIe := false, fgpc := s.fgpc + 1, hist := s.hist ++ [.word .fg (encode .uartIeOff)] }

/-- R111, R112: delivered from the head of EVQ; FGPC stays (46_bridge.md R162).
(The model's own: the word's place in HIST is log 8.) -/
def Obligations.ConnectAndDisconnectCallbacks : Prop :=
  ∀ (s : State) (es : List UsbEvent), s.FgReady →
    (s.evq = .connect :: es → s.uartEn = false →
      exec .cbConnect s = .next { s with
        evq := es, uartEn := true, rxdata := none, rxfull := false, txc := false, txbuf := none,
        baud := s.cfg.baud, hist := s.hist ++ [.word .fg (encode .cbConnect)] })
    ∧ (s.evq = .connect :: es → s.uartEn = true →
      exec .cbConnect s = .next { s with
        evq := es, baud := s.cfg.baud, hist := s.hist ++ [.word .fg (encode .cbConnect)] })
    ∧ (s.evq = .disconnect :: es →
      exec .cbDisconnect s = .next { s with
        evq := es, uartEn := false, uartIe := false, rxdata := none, rxfull := false, txc := false,
        txbuf := none, hist := s.hist ++ [.word .fg (encode .cbDisconnect)] })

/-- R113: the two steps of CB_CLS; the second is `cb2` in the schedule.
(The model's own: the word's place in HIST is log 8, the schedule is log 1.) -/
def Obligations.ControlLineCallbackInTwoSteps : Prop :=
  ∀ (s : State) (m : Half) (es : List UsbEvent) (rest : List Action), s.fault = 0 → s.ctx = .fg →
    (s.fgcb = none → s.evq = .clsChg .data m :: es →
      exec (.cbCls 0 m) s = .next { s with
        evq := es, cls0 := m, clsLast := m, fgcb := some m,
        hist := s.hist ++ [.word .fg (encode (.cbCls 0 m))] })
    ∧ (s.fgcb = none → s.evq = .clsChg .control m :: es →
      exec (.cbCls 1 m) s = .next { s with
        evq := es, cls1 := m, clsLast := m, fgcb := some m,
        hist := s.hist ++ [.word .fg (encode (.cbCls 1 m))] })
    ∧ (s.fgcb = some m → s.sched = .cb2 :: rest →
      step s = .next { s with
        sched := rest, fgcb := none,
        uartIe := if m = 3 then true else if m = 2 then false else s.uartIe })

/-- R114, for both channels, after both steps of the callback, the second following the first. -/
def Obligations.ControlLineGateTruthTable : Prop :=
  ∀ (s : State) (c : Chan) (m : Half) (es : List UsbEvent), s.FgReady → s.evq = .clsChg c m :: es →
    ∃ t u, exec (.cbCls (if c = .data then 0 else 1) m) s = .next t ∧ secondStepOfCls t = .next u
      ∧ (m = 3 → u.uartIe = true) ∧ (m = 2 → u.uartIe = false)
      ∧ (m ≠ 3 → m ≠ 2 → u.uartIe = s.uartIe)

/-- R117: the lifecycle state after each callback, its second step included, from every state.
(The model's own: the schedule is log 1.) -/
def Obligations.UartLifecycleTable : Prop :=
  ∀ (s : State) (c : Chan) (m : Half) (es : List UsbEvent) (rest : List Action), s.FgReady →
    (s.evq = .connect :: es → s.sched = .deliver :: rest →
      ∃ t, step s = .next t ∧
        t.lifecycle = (match s.lifecycle with
          | .off => .onQuiet | .offArmed => .onActive | .onQuiet => .onQuiet | .onActive => .onActive))
    ∧ (s.evq = .disconnect :: es → s.sched = .deliver :: rest →
      ∃ t, step s = .next t ∧ t.lifecycle = .off)
    ∧ (s.evq = .clsChg c m :: es → s.sched = .deliver :: .cb2 :: rest →
      ∃ t, Host.Core.run Sys2Proof.core 2 s = .next t ∧
        (m = 3 → t.lifecycle = (match s.lifecycle with
          | .off => .offArmed | .offArmed => .offArmed | .onQuiet => .onActive | .onActive => .onActive))
        ∧ (m = 2 → t.lifecycle = (match s.lifecycle with
          | .off => .off | .offArmed => .off | .onQuiet => .onQuiet | .onActive => .onQuiet))
        ∧ (m ≠ 3 → m ≠ 2 → t.lifecycle = s.lifecycle))

/-! ## Timer, lines, system words -/

/-- 43_timer.md R123; 44_edge.md R131; 48_system.md R177.
(The model's own: the word's place in HIST is log 8.) -/
def Obligations.EnableWords : Prop :=
  ∀ (s : State) (l : Byte) (e : Bool), s.FgReady →
    exec .tmrInit s = .next { s with
      tmrEn := true, fgpc := s.fgpc + 1, hist := s.hist ++ [.word .fg (encode .tmrInit)] }
    ∧ (l = 0 → exec (.extConfig l e) s = .next { s with
        extaEn := e, fgpc := s.fgpc + 1, hist := s.hist ++ [.word .fg (encode (.extConfig l e))] })
    ∧ (l = 1 → exec (.extConfig l e) s = .next { s with
        extbEn := e, fgpc := s.fgpc + 1, hist := s.hist ++ [.word .fg (encode (.extConfig l e))] })
    ∧ (1 < l.toNat →
      exec (.extConfig l e) s = .next { s with fault := 0x02, hist := s.hist ++ [.fault 0x02] })
    ∧ exec (.irqGlobal true) s = .next { s with
        gie := true, booted := true, fgpc := s.fgpc + 1,
        hist := s.hist ++ [.word .fg (encode (.irqGlobal true))] }
    ∧ exec (.irqGlobal false) s = .next { s with
        gie := false, fgpc := s.fgpc + 1, hist := s.hist ++ [.word .fg (encode (.irqGlobal false))] }

/-- 48_system.md R178, 10_state.md R54, R55, R56: the value of every register, bit by bit where it has fields,
with reserved bits 0 and a free value for a field that holds `none`; nothing of the CORE but RES, FGPC and
HIST changes. (The model's own: the word's place in HIST is log 8, free values are log 7.) -/
def Obligations.RegReadFollowsTheRegisterMap : Prop :=
  ∀ (s : State) (n : Byte), s.FgReady →
    (n.toNat ≤ 15 →
      ∃ (r : Byte) (k : Nat), exec (.regRead n) s = .next { s with
          res := some (r.setWidth 16), fgpc := s.fgpc + 1,
          hist := s.hist ++ [.word .fg (encode (.regRead n))], draws := s.draws + k }
        ∧ (n = 0x00 → ∀ b < 8, r.getLsbD b =
            ([s.uartEn, s.uartIe, s.tmrEn, s.extaEn, s.extbEn, s.gie, s.booted][b]?).getD false)
        ∧ (n = 0x01 → ∀ b < 8, r.getLsbD b =
            ([s.pendExta, s.pendExtb, s.pendTick, s.rxfull, s.txc, s.txbuf.isNone][b]?).getD false)
        ∧ (n = 0x02 → ∀ b < 8, r.getLsbD b = ([s.txi, s.rxi][b]?).getD false)
        ∧ (n = 0x03 → r = 0x0E)
        ∧ (n = 0x04 → ∃ d : Byte, ∀ b < 8, r.getLsbD b =
            ([s.lat.prout.getD (d.getLsbD 0), s.lat.msout.getD (d.getLsbD 1), s.lat.csout.getD (d.getLsbD 2),
              s.lat.prout.isSome, s.lat.msout.isSome, s.lat.csout.isSome][b]?).getD false)
        ∧ (n = 0x05 → ∀ b < 8, r.getLsbD b =
            ([s.dir.prout == .out, s.dir.msout == .out, s.dir.csout == .out][b]?).getD false)
        ∧ (n = 0x06 → ∀ b < 8, r.getLsbD b =
            ([s.sync.prsw, s.sync.mssw, s.sync.linea, s.sync.lineb][b]?).getD false)
        ∧ (n = 0x07 → ∀ b < 8, r.getLsbD b =
            ([s.sync.bus0, s.sync.bus1, s.sync.bus2, false,
              s.sync.knob0, s.sync.knob1, s.sync.knob2, s.sync.knob3][b]?).getD false)
        ∧ (n = 0x08 → r = s.cls0.extractLsb' 0 8) ∧ (n = 0x09 → r = s.cls0.extractLsb' 8 8)
        ∧ (n = 0x0A → r = s.cls1.extractLsb' 0 8) ∧ (n = 0x0B → r = s.cls1.extractLsb' 8 8)
        ∧ (n = 0x0C → ∀ v, s.rxdata = some v → r = v)
        ∧ (n = 0x0D → r = s.baud.extractLsb' 0 8) ∧ (n = 0x0E → r = s.baud.extractLsb' 8 8)
        ∧ (n = 0x0F → r = s.fault))
    ∧ (15 < n.toNat →
      exec (.regRead n) s = .next { s with fault := 0x05, hist := s.hist ++ [.fault 0x05] })

/-- 43_timer.md R124, with the guard TMR_EN = 1.
(The model's own: the word's place in HIST is log 8, a stop that is no step is log 10.) -/
def Obligations.EnvTickSetsThePendingTick : Prop :=
  ∀ s : State, s.fault = 0 →
    (s.tmrEn = true → exec .envTick s = .next { s with
      pendTick := true, hist := s.hist ++ [.word .env (encode .envTick)] })
    ∧ (s.tmrEn = false → exec .envTick s = .refused .guardFalse)

/-! ## Mode arbitration (45_arbitration.md) -/

/-- R141, R142, R145. (The model's own: the word's place in HIST is log 8.) -/
def Obligations.ArbitrationReadWords : Prop :=
  ∀ s : State, s.FgReady →
    exec .arbDetectRunmode s = .next { s with
      res := some (if s.sync.prsw = s.cfg.prswProgramLevel then 1 else 0), fgpc := s.fgpc + 1,
      hist := s.hist ++ [.word .fg (encode .arbDetectRunmode)] }
    ∧ exec .arbDetectRole s = .next { s with
      res := some (if s.sync.mssw = s.cfg.msswMasterLevel then 1 else 0), fgpc := s.fgpc + 1,
      hist := s.hist ++ [.word .fg (encode .arbDetectRole)] }
    ∧ exec .arbAddrMatch s = .next { s with
      res := some (if s.sync.bus0 = s.sync.knob0 ∧ s.sync.bus1 = s.sync.knob1 ∧ s.sync.bus2 = s.sync.knob2
          ∧ s.sync.knob3 = false then 1 else 0),
      fgpc := s.fgpc + 1, hist := s.hist ++ [.word .fg (encode .arbAddrMatch)] }

/-- R143, R144, R146, before the end of bring-up: SLAVE writes MSOUT and then CSOUT, MASTER leaves CSOUT.
(The model's own: the word's place in HIST is log 8.) -/
def Obligations.ArbitrationWriteWords : Prop :=
  ∀ s : State, s.FgReady → s.booted = false →
    (∀ m b, (m = RunMode.program ∧ b = true ∨ m = RunMode.run ∧ b = false) →
      exec (.arbUpdateRunmode m) s = .next { s with
        lat := ⟨some b, s.lat.msout, s.lat.csout⟩, fgpc := s.fgpc + 1,
        hist := s.hist ++ [.word .fg (encode (.arbUpdateRunmode m)), .pinwrite .prout b] })
    ∧ exec (.arbUpdateRole .master) s = .next { s with
        lat := ⟨s.lat.prout, some true, s.lat.csout⟩, fgpc := s.fgpc + 1,
        hist := s.hist ++ [.word .fg (encode (.arbUpdateRole .master)), .pinwrite .msout true] }
    ∧ (∀ cs, cs = (!decide (s.fieldBus.toNat = s.fieldKnob.toNat)) →
      exec (.arbUpdateRole .slave) s = .next { s with
        lat := ⟨s.lat.prout, some false, some cs⟩, fgpc := s.fgpc + 1,
        hist := s.hist ++ [.word .fg (encode (.arbUpdateRole .slave)), .pinwrite .msout false,
          .pinwrite .csout cs] })

/-- R148. -/
def Obligations.AddressesMatchOnTheEqualPairsOnly : Prop :=
  (∀ (b : BitVec 3) (k : BitVec 4), addressMatches b k = true ↔ b.toNat = k.toNat)
    ∧ ∀ (b : BitVec 3) (k : BitVec 4), 8 ≤ k.toNat → addressMatches b k = false

/-! ## Communication bridge (46_bridge.md) -/

/-- R153. (The model's own: the word's place in HIST is log 8.) -/
def Obligations.UsbRecvTakesTheOldestByte : Prop :=
  ∀ (s : State) (c : Byte) (q : Chan), s.FgReady → (c = 0 ∧ q = .data ∨ c = 1 ∧ q = .control) →
    (∀ y ys, s.inq q = y :: ys →
      exec (.usbRecv c) s = .next { s.setInq q ys with
        res := some (y.setWidth 16), fgpc := s.fgpc + 1,
        hist := s.hist ++ [.word .fg (encode (.usbRecv c)), .usbrecv q (some y)] })
    ∧ (s.inq q = [] →
      exec (.usbRecv c) s = .next { s with
        res := some 0x0100, fgpc := s.fgpc + 1,
        hist := s.hist ++ [.word .fg (encode (.usbRecv c)), .usbrecv q none] })

/-- R154, R160: a byte is queued while there is room; a full queue raises F_MODEL and queues nothing.
(The model's own: the word's place in HIST is log 8.) -/
def Obligations.UsbSendQueuesOrFaults : Prop :=
  ∀ (s : State) (c y : Byte) (q : Chan), s.FgReady → (c = 0 ∧ q = .data ∨ c = 1 ∧ q = .control) →
    ((∀ cap, s.cfg.usbqCap = some cap → (s.outq q).length < cap) →
      exec (.usbSend c y) s = .next { s.setOutq q (s.outq q ++ [y]) with
        fgpc := s.fgpc + 1, hist := s.hist ++ [.word .fg (encode (.usbSend c y)), .usbsend q y] })
    ∧ (∀ cap, s.cfg.usbqCap = some cap → cap ≤ (s.outq q).length →
      exec (.usbSend c y) s = .next { s with fault := 0x08, hist := s.hist ++ [.fault 0x08] })

/-- R155: no effect on the CORE's state but HIST and FG's position; the other USB words of FG refuse a channel
above 1 alike. (The model's own: the word's place in HIST is log 8.) -/
def Obligations.UsbServiceChangesNothingButHistory : Prop :=
  ∀ (s : State) (c y : Byte), s.FgReady →
    (c.toNat ≤ 1 →
      exec (.usbService c) s = .next { s with
        fgpc := s.fgpc + 1, hist := s.hist ++ [.word .fg (encode (.usbService c))] })
    ∧ (1 < c.toNat → ∀ i, i = .usbService c ∨ i = .usbRecv c ∨ i = .usbSend c y →
      exec i s = .next { s with fault := 0x04, hist := s.hist ++ [.fault 0x04] })

/-! ## Interrupts (60_exceptions.md) -/

/-- R193, R195: the entry of each vector's handler, when it is the next to be dispatched. -/
def Obligations.DispatchEntersTheHandler : Prop :=
  ∀ (s : State) (v : Source), s.nextDispatch = some v →
    exec (entryWord v) s = .next { s with
      ctx := .handler v, hpc := some 0, tMode := none, tRole := none, tBus := none, tKnob := none,
      tMatch := none, tByte := if v = .urx then s.rxdata else none,
      rxdata := if v = .urx then none else s.rxdata, rxfull := if v = .urx then false else s.rxfull,
      pendExta := if v = .extA then false else s.pendExta,
      pendExtb := if v = .extB then false else s.pendExtb,
      pendTick := if v = .tick then false else s.pendTick, txc := if v = .utx then false else s.txc,
      hist := s.hist ++ [.dispatch v, .word .mux (match v with
        | .extA => 0x70000000 | .extB => 0x71000000 | .tick => 0x72000000
        | .urx => 0x73000000 | .utx => 0x74000000)] }

/-- R189, R190, R191, R192, R194: MUX takes a source iff its flag and its enable, as the table of R189 names them,
are 1, GIE = 1, CTX = FG and FAULT = 0, and no source before it in P_IRQ_PRIO has both. -/
def Obligations.DispatchFollowsThePriority : Prop :=
  ∀ (s : State) (before after : List Source) (v : Source) (requests : Source → Bool),
    (requests = fun u => match u with
      | .extA => s.pendExta && s.extaEn
      | .extB => s.pendExtb && s.extbEn
      | .tick => s.pendTick && s.tmrEn
      | .urx => s.rxfull && s.uartIe
      | .utx => s.txc && s.uartIe) →
    s.cfg.irqPrio = before ++ v :: after → s.cfg.irqPrio.Nodup →
    (s.nextDispatch = some v ↔
      requests v = true ∧ s.gie = true ∧ s.ctx = .fg ∧ s.fault = 0 ∧ ∀ u ∈ before, requests u = false)

/-- 48_system.md R179: RETI as the final micro-step of the handler of each vector; anywhere else F_CONTEXT.
(The model's own: the word's place in HIST is log 8.) -/
def Obligations.RetiReturnsToTheForeground : Prop :=
  ∀ (s : State) (v : Source), s.fault = 0 →
    (s.ctx = .handler v → s.hpc = some (finalStep v) →
      exec .reti s = .next { s with
        ctx := .fg, hpc := none, hist := s.hist ++ [.word .mux 0x7F000000, .reti v] })
    ∧ (s.ctx = .fg →
      exec .reti s = .next { s with fault := 0x06, hist := s.hist ++ [.fault 0x06] })

/-- 45_arbitration.md R149: the outputs of one complete run of each line handler, MUX taking its steps one
after another up to the return, with mode and role as decoded from the synchronized switches. The run writes its
pins in the order PROUT, MSOUT, CSOUT (44_edge.md R133, R134, 45_arbitration.md R144), and changes nothing but the
latches, CTX, HPC, HIST and the line handlers' temporaries. -/
def Obligations.LineHandlerOutputs : Prop :=
  ∀ (s : State) (cs : Bool), cs = (!decide (s.fieldBus.toNat = s.fieldKnob.toNat)) →
    (s.InHandler .extA 0 → s.detectRunMode = .run →
      s.LineHandlerReturns 3 ⟨some false, s.lat.msout, s.lat.csout⟩ [(.prout, false)])
    ∧ (s.InHandler .extA 0 → s.detectRunMode = .program → s.detectRole = .slave →
      s.LineHandlerReturns 8 ⟨some true, some false, some cs⟩
        [(.prout, true), (.msout, false), (.csout, cs)])
    ∧ (s.InHandler .extA 0 → s.detectRunMode = .program → s.detectRole = .master →
      s.LineHandlerReturns 5 ⟨some true, some true, s.lat.csout⟩ [(.prout, true), (.msout, true)])
    ∧ (s.InHandler .extB 0 → s.detectRole = .slave →
      s.LineHandlerReturns 6 ⟨s.lat.prout, some false, some cs⟩ [(.msout, false), (.csout, cs)])
    ∧ (s.InHandler .extB 0 → s.detectRole = .master →
      s.LineHandlerReturns 3 ⟨s.lat.prout, some true, s.lat.csout⟩ [(.msout, true)])

/-- 46_bridge.md R151: one complete run of the UART-receive handler relays its byte and sets RXI, or drops it
and leaves RXI, by GateCLS. (The model's own: the word's place in HIST is log 8, the schedule is log 1.) -/
def Obligations.ReceiveHandlerRelaysOrDrops : Prop :=
  ∀ (s : State) (rest : List Action) (y : Byte) (gate : Half), s.InHandler .urx 0 → s.tByte = some y →
    (s.cfg.rxGateSrc = .data ∧ gate = s.cls0 ∨ s.cfg.rxGateSrc = .last ∧ gate = s.clsLast) →
    (gate = 3 → (∀ cap, s.cfg.usbqCap = some cap → s.outq0.length < cap) →
      s.sched = List.replicate 4 .mux ++ rest →
      Host.Core.run Sys2Proof.core 4 s = .next { s with
        outq0 := s.outq0 ++ [y], rxi := true, ctx := .fg, hpc := none, sched := rest,
        hist := s.hist ++ [.usbsend .data y, .word .mux 0x7F000000, .reti .urx] })
    ∧ (gate ≠ 3 → s.sched = List.replicate 3 .mux ++ rest →
      Host.Core.run Sys2Proof.core 3 s = .next { s with
        ctx := .fg, hpc := none, sched := rest,
        hist := s.hist ++ [.drop y, .word .mux 0x7F000000, .reti .urx] })
    ∧ (∀ cap, gate = 3 → s.cfg.usbqCap = some cap → cap ≤ s.outq0.length →
      s.sched = List.replicate 2 .mux ++ rest →
      Host.Core.run Sys2Proof.core 2 s = .next { s with
        hpc := some 1, sched := rest, fault := 0x08, hist := s.hist ++ [.fault 0x08] })

/-- 43_timer.md R125, 46_bridge.md R152: one complete run of the tick handler clears both indicators and
nothing else; one of the transmit-complete handler sets TXI and nothing else.
(The model's own: the word's place in HIST is log 8, the schedule is log 1.) -/
def Obligations.TickAndTransmitHandlers : Prop :=
  ∀ (s : State) (rest : List Action),
    (s.InHandler .tick 0 → s.sched = List.replicate 3 .mux ++ rest →
      Host.Core.run Sys2Proof.core 3 s = .next { s with
        txi := false, rxi := false, ctx := .fg, hpc := none, sched := rest,
        hist := s.hist ++ [.word .mux 0x7F000000, .reti .tick] })
    ∧ (s.InHandler .utx 0 → s.sched = List.replicate 2 .mux ++ rest →
      Host.Core.run Sys2Proof.core 2 s = .next { s with
        txi := true, ctx := .fg, hpc := none, sched := rest,
        hist := s.hist ++ [.word .mux 0x7F000000, .reti .utx] })

/-! ## Environment (47_environment.md) -/

/-- R164. (The model's own: the word's place in HIST is log 8.) -/
def Obligations.EnvPinSetsThePin : Prop :=
  ∀ (s : State) (p : Byte) (b : Bool), s.fault = 0 →
    (∀ q, InPin.ofId p = some q →
      exec (.envPin p b) s = .next { s with
        pin := s.pin.set q b, hist := s.hist ++ [.word .env (encode (.envPin p b))] })
    ∧ (10 < p.toNat → ∀ i, i = .envPin p b ∨ i = .syncSample p →
      exec i s = .next { s with fault := 0x03, hist := s.hist ++ [.fault 0x03] })

/-- R166: an overrun keeps the old or the new byte, as a free bit says.
(The model's own: the word's place in HIST is log 8, free values are log 7, a stop that is no step is log 10.) -/
def Obligations.EnvUartRxFillsOrOverruns : Prop :=
  ∀ (s : State) (y : Byte), s.fault = 0 →
    (s.uartEn = true → s.rxfull = false →
      exec (.envUartRx y) s = .next { s with
        rxdata := some y, rxfull := true, hist := s.hist ++ [.word .env (encode (.envUartRx y))] })
    ∧ (∀ old, s.uartEn = true → s.rxfull = true → s.rxdata = some old →
      exec (.envUartRx y) s = .next { s with
        rxdata := some (if Config.drawBit s.draws then old else y),
        hist := s.hist ++ [.word .env (encode (.envUartRx y))], draws := s.draws + 1 })
    ∧ (s.uartEn = false → exec (.envUartRx y) s = .refused .guardFalse)

/-- R167. (The model's own: the word's place in HIST is log 8, a stop that is no step is log 10.) -/
def Obligations.EnvTxDoneDeliversTheByte : Prop :=
  ∀ s : State, s.fault = 0 →
    (∀ b, s.uartEn = true → s.txbuf = some b →
      exec .envTxDone s = .next { s with
        utxline := s.utxline ++ [b], txbuf := none, txc := true,
        hist := s.hist ++ [.word .env (encode .envTxDone), .uartline b] })
    ∧ (s.uartEn = false ∨ s.txbuf = none → exec .envTxDone s = .refused .guardFalse)

/-- R168, R172. (The model's own: the word's place in HIST is log 8, a stop that is no step is log 10.) -/
def Obligations.HostSendsAndTakesBytes : Prop :=
  ∀ (s : State) (c y : Byte) (q : Chan), s.fault = 0 → (c = 0 ∧ q = .data ∨ c = 1 ∧ q = .control) →
    (s.hostconn = true → (∀ cap, s.cfg.usbqCap = some cap → (s.inq q).length < cap) →
      exec (.envHostByte c y) s = .next { s.setInq q (s.inq q ++ [y]) with
        hist := s.hist ++ [.word .env (encode (.envHostByte c y))] })
    ∧ ((s.hostconn = false ∨ ∃ cap, s.cfg.usbqCap = some cap ∧ cap ≤ (s.inq q).length) →
      exec (.envHostByte c y) s = .refused .guardFalse)
    ∧ (∀ z zs, s.hostconn = true → s.outq q = z :: zs →
      exec (.envHostTake c) s = .next { s.setOutq q zs with
        hist := s.hist ++ [.word .env (encode (.envHostTake c))] })
    ∧ (s.hostconn = false ∨ s.outq q = [] → exec (.envHostTake c) s = .refused .guardFalse)

/-- R169, R170, R171. (The model's own: the word's place in HIST is log 8, a stop that is no step is log 10.) -/
def Obligations.HostReportsAndConnection : Prop :=
  ∀ (s : State) (c : Byte) (m : Half) (q : Chan), s.fault = 0 →
    (c = 0 ∧ q = .data ∨ c = 1 ∧ q = .control) →
    (s.hostconn = true →
      exec (.envHostCls c m) s = .next { s with
        evq := s.evq ++ [.clsChg q m], hist := s.hist ++ [.word .env (encode (.envHostCls c m))] }
      ∧ exec .envHostDisconnect s = .next { s with
        hostconn := false, inq0 := [], inq1 := [], outq0 := [], outq1 := [],
        evq := s.evq ++ [.disconnect], hist := s.hist ++ [.word .env (encode .envHostDisconnect)] }
      ∧ exec .envHostConnect s = .refused .guardFalse)
    ∧ (s.hostconn = false →
      exec .envHostConnect s = .next { s with
        hostconn := true, evq := s.evq ++ [.connect],
        hist := s.hist ++ [.word .env (encode .envHostConnect)] }
      ∧ exec (.envHostCls c m) s = .refused .guardFalse
      ∧ exec .envHostDisconnect s = .refused .guardFalse)

/-- 30_encoding.md R83, F_BAD_CHANNEL: a channel above 1 in a host event faults, whatever its guard
(47_environment.md R165 (b)). -/
def Obligations.HostEventsOfNoChannelFault : Prop :=
  ∀ (s : State) (c y : Byte) (m : Half) (i : Instr), s.fault = 0 → 1 < c.toNat →
    (i = .envHostByte c y ∨ i = .envHostCls c m ∨ i = .envHostTake c) →
    exec i s = .next { s with fault := 0x04, hist := s.hist ++ [.fault 0x04] }

/-! ## The whole machine -/

/-- The machine right after reset satisfies the invariant, with the values R59 of 10_state.md gives; the
parameters, on which the invariant's first clause rests, are the model's choice (logs 4, 5). -/
def Obligations.ResetSatisfiesTheInvariant : Prop :=
  State.reset.inv = true ∧ State.reset.HistAgrees

/-- Every step keeps the invariant: legal parameters; CTX, HPC and the temporaries in step (10_state.md R25,
R27); RXFULL tells RXDATA and a disabled channel holds nothing (42_uart.md R106, R107); the USB queues within
P_USBQ_CAP (10_state.md R46); CONNECT and DISCONNECT alternate (47_environment.md R170); GIE only after
bring-up (48_system.md R177); a legal fault code (60_exceptions.md R183). -/
def Obligations.StepKeepsTheInvariant : Prop :=
  ∀ s t : State, s.inv = true → step s = .next t → t.inv = true

/-- 10_state.md R53: HIST tells the latches, the directions, the UART line and the fault, at every step. -/
def Obligations.StepKeepsHistoryInAgreement : Prop :=
  ∀ s t : State, s.HistAgrees → step s = .next t → t.HistAgrees

/-- 10_state.md R25: with unbounded USB queues no step of MUX raises a fault, and MUX never lacks a
micro-step while a handler runs. (The model's own: the schedule is log 1.) -/
def Obligations.HandlersNeverFault : Prop :=
  ∀ (s : State) (rest : List Action) (v : Source), s.inv = true → s.fault = 0 → s.ctx = .handler v →
    s.cfg.usbqCap = none → s.sched = .mux :: rest →
    ∃ t, step s = .next t ∧ t.fault = 0 ∧ (t.ctx = .handler v ∨ t.ctx = .fg)

/-- 10_state.md R51, 60_exceptions.md R184 (b): once BOOTED, short of reset, every direction stays as it is, and
every output latch but for a micro-step of a line handler. (The model's own: the schedule is log 1.) -/
def Obligations.OnlyTheLineHandlersWriteOutputsOnceBooted : Prop :=
  ∀ s t : State, s.booted = true → step s = .next t → s.turn ≠ .reset →
    t.dir = s.dir
    ∧ ((s.turn = .mux → s.ctx ≠ .handler .extA ∧ s.ctx ≠ .handler .extB) → t.lat = s.lat)

/-- 10_state.md R32, R43, R53, 48_system.md R177: short of reset, a written latch stays written, BOOTED stays
and HIST only grows. Parameters and FG's script stay at every step, a reset included (logs 4, 18).
(The model's own: the schedule is log 1.) -/
def Obligations.NothingIsForgottenShortOfReset : Prop :=
  ∀ s t : State, step s = .next t →
    (s.turn ≠ .reset →
      (∀ p, s.lat.get p ≠ none → t.lat.get p ≠ none) ∧ (s.booted = true → t.booted = true)
        ∧ ∃ es, t.hist = s.hist ++ es)
    ∧ t.cfg = s.cfg ∧ t.script = s.script

/-- 10_state.md R49, R50, 60_exceptions.md R192: GIE changes only by FG's script; TXI and RXI are set and
cleared only while the UART handlers and the tick handler run. (The model's own: the schedule is log 1.) -/
def Obligations.IndicatorsAndGlobalEnableHaveTheirWriters : Prop :=
  ∀ s t : State, step s = .next t → s.turn ≠ .reset →
    (t.gie ≠ s.gie → s.turn = .script)
    ∧ (t.txi ≠ s.txi → s.turn = .mux ∧
      (s.ctx = .handler .utx ∧ t.txi = true ∨ s.ctx = .handler .tick ∧ t.txi = false))
    ∧ (t.rxi ≠ s.rxi → s.turn = .mux ∧
      (s.ctx = .handler .urx ∧ t.rxi = true ∨ s.ctx = .handler .tick ∧ t.rxi = false))

/-- 60_exceptions.md R192, R197, 00_scope.md R8, 10_state.md R49: while a handler runs no step but reset changes
what is FG's, every field that R49 gives to FG alone, no other handler is entered, and FG's own turns are no steps.
(The model's own: the schedule is log 1, a stop that is no step is log 10.) -/
def Obligations.HandlersRunWithoutTheForeground : Prop :=
  ∀ (s : State) (v : Source), s.fault = 0 → s.ctx = .handler v →
    (∀ t, step s = .next t → s.turn ≠ .reset →
      (t.fgpc = s.fgpc ∧ t.fgcb = s.fgcb ∧ t.res = s.res ∧ t.gie = s.gie ∧ t.booted = s.booted)
        ∧ (t.uartEn = s.uartEn ∧ t.uartIe = s.uartIe ∧ t.baud = s.baud ∧ t.tmrEn = s.tmrEn
          ∧ t.extaEn = s.extaEn ∧ t.extbEn = s.extbEn)
        ∧ (t.cls0 = s.cls0 ∧ t.cls1 = s.cls1 ∧ t.clsLast = s.clsLast ∧ t.dir = s.dir)
        ∧ (t.ctx = .handler v ∨ t.ctx = .fg))
    ∧ (s.turn = .script ∨ s.turn = .deliver ∨ s.turn = .cb2 → step s = .refused .agentHasNoStep)

/-- 60_exceptions.md R187, R188, 42_uart.md R108: FG at a UART_TX of its script, the channel disabled, stays
there; the one step that ends it, short of reset, is the delivery of CONNECT, which enables the channel.
(The model's own: the schedule is log 1.) -/
def Obligations.BlockedTransmitWaitsForConnect : Prop :=
  ∀ s t : State, s.atUartTx = true → s.uartEn = false → step s = .next t → s.turn ≠ .reset →
    (t.atUartTx = true ∧ t.fgpc = s.fgpc ∧ t.uartEn = false)
      ∨ (s.turn = .deliver ∧ s.evq.head? = some .connect ∧ t.uartEn = true ∧ t.atUartTx = true
          ∧ t.fgpc = s.fgpc)

/-- 44_edge.md R136, 45_arbitration.md R147: what a line handler's run writes does not depend on what the
latches held: two states that differ only in the latches give the same values to the latches the run writes.
(One MUX step; the latches not written keep each state's own value.)
(The model's own: the schedule is log 1.) -/
def Obligations.OutputsAreRecomputedFromInputsOnly : Prop :=
  ∀ (s t : State) (l : OutLatches) (rest : List Action), s.sched = .mux :: rest → step s = .next t →
    ∃ l', step { s with lat := l } = .next { t with lat := l' } ∧
      ∀ p, t.lat.get p = l'.get p ∨ (t.lat.get p = s.lat.get p ∧ l'.get p = l.get p)

/-- 60_exceptions.md R192, R196, 10_state.md R25: with unbounded USB queues a handler, wherever it stands, is back
in the foreground after at most the steps its sequence has left, none of them a fault. (With a full OUTQ[0] the
receive handler freezes, R209.) -/
def Obligations.HandlersReturnWithinTheirSteps : Prop :=
  ∀ (s : State) (v : Source) (k : Nat), s.inv = true → s.InHandler v k → s.cfg.usbqCap = none →
    ∃ n t, n + k ≤ finalStep v + 1 ∧ muxSteps n s = .next t ∧ t.ctx = .fg ∧ t.hpc = none ∧ t.fault = 0

/-- 44_edge.md R133, R134, 45_arbitration.md R141, R142, R144: each micro-step of the two line handlers, from the
temporaries it finds and the synchronized levels of that moment, whatever SYNC sampled since the last (00_scope.md
R8). `k` is the index of `T_ROLE <- DetectRole()`, `ret` that of RETI.
(The model's own: the schedule is log 1, the place of RETI's record log 8.) -/
def Obligations.LineHandlerMicroSteps : Prop :=
  ∀ (s : State) (rest : List Action), s.sched = .mux :: rest →
    (s.InHandler .extA 0 → step s = .next { s with
      sched := rest, hpc := some 1,
      tMode := some (if s.sync.prsw = s.cfg.prswProgramLevel then .program else .run) })
    ∧ (s.InHandler .extA 1 → s.tMode = some .run → step s = .next { s with
      sched := rest, hpc := some 7, lat := ⟨some false, s.lat.msout, s.lat.csout⟩,
      hist := s.hist ++ [.pinwrite .prout false] })
    ∧ (s.InHandler .extA 1 → s.tMode = some .program → step s = .next { s with
      sched := rest, hpc := some 2, lat := ⟨some true, s.lat.msout, s.lat.csout⟩,
      hist := s.hist ++ [.pinwrite .prout true] })
    ∧ ∀ v k ret, (v = .extA ∧ k = 2 ∧ ret = 7 ∨ v = .extB ∧ k = 0 ∧ ret = 5) →
      (s.InHandler v k → step s = .next { s with
        sched := rest, hpc := some (k + 1),
        tRole := some (if s.sync.mssw = s.cfg.msswMasterLevel then .master else .slave) })
      ∧ (s.InHandler v (k + 1) → s.tRole = some .slave → step s = .next { s with
        sched := rest, hpc := some (k + 2), lat := ⟨s.lat.prout, some false, s.lat.csout⟩,
        hist := s.hist ++ [.pinwrite .msout false] })
      ∧ (s.InHandler v (k + 1) → s.tRole = some .master → step s = .next { s with
        sched := rest, hpc := some ret, lat := ⟨s.lat.prout, some true, s.lat.csout⟩,
        hist := s.hist ++ [.pinwrite .msout true] })
      ∧ (s.InHandler v (k + 2) → step s = .next { s with
        sched := rest, hpc := some (k + 3), tBus := some s.fieldBus })
      ∧ (s.InHandler v (k + 3) → step s = .next { s with
        sched := rest, hpc := some (k + 4), tKnob := some s.fieldKnob })
      ∧ (∀ b n hit, s.InHandler v (k + 4) → s.tBus = some b → s.tKnob = some n →
        hit = decide (b.toNat = n.toNat) → step s = .next { s with
          sched := rest, hpc := some ret, tMatch := some hit, lat := ⟨s.lat.prout, s.lat.msout, some (!hit)⟩,
          hist := s.hist ++ [.pinwrite .csout (!hit)] })
      ∧ (s.InHandler v ret → step s = .next { s with
        sched := rest, ctx := .fg, hpc := none, hist := s.hist ++ [.word .mux 0x7F000000, .reti v] })

/-- 60_exceptions.md R208 (d), 47_environment.md R167: in a fair fault-free infinite run no byte waits in TXBUF for
ever, while the channel stays enabled. (The model's own: fairness as a predicate on runs is log 21.) -/
def Obligations.FairRunsEndTransmissions : Prop :=
  ∀ (o : Nat → Action) (r : Nat → State), FairRun o r → ∀ n, (r n).uartEn = true → (r n).txbuf ≠ none →
    ∃ m, n ≤ m ∧ ((r m).txbuf = none ∨ (r m).uartEn = false)
end

