-- ==== Sys2Proof/Laws/Fairness.lean ====
section
/-! SUPPORT. A fair run exists (log 21): a machine that transmits one byte after another, ticks and samples every
pin, in turns of period 22. -/

namespace Sys2Proof.Laws.Fairness

open Sys2Proof Sys2Proof.Machine

/-- The machine between two rounds: brought up, FG's script one UART_TX in a loop. -/
def idle : State :=
  { State.reset with dir := ⟨.out, .out, .out⟩, tmrEn := true, gie := true, booted := true, uartEn := true,
                     uartIe := true, baud := 96, script := [.word 0x12000041, .goto 0] }

/-- The state before the j-th turn of a round, but for HIST and UTXLINE, which grow. -/
def phase : Nat → State
  | 1 => { idle with fgpc := 1, txbuf := some 0x41 }
  | 2 => { idle with fgpc := 1, txc := true }
  | 3 => { idle with fgpc := 1, ctx := .handler .utx, hpc := some 0 }
  | 4 => { idle with fgpc := 1, ctx := .handler .utx, hpc := some 1, txi := true }
  | 5 => { idle with fgpc := 1, txi := true }
  | 6 => { idle with txi := true }
  | 7 => { idle with txi := true, pendTick := true }
  | 8 => { idle with txi := true, ctx := .handler .tick, hpc := some 0 }
  | 9 => { idle with ctx := .handler .tick, hpc := some 1 }
  | 10 => { idle with ctx := .handler .tick, hpc := some 2 }
  | _ => idle

/-- The j-th turn of a round. -/
def turnOf : Nat → Action
  | 0 => .script
  | 1 => .word .env (encode .envTxDone)
  | 2 => .mux
  | 3 => .mux
  | 4 => .mux
  | 5 => .script
  | 6 => .word .env (encode .envTick)
  | 7 => .mux
  | 8 => .mux
  | 9 => .mux
  | 10 => .mux
  | j => .word .sync (encode (.syncSample (BitVec.ofNat 8 (j - 11))))

/-- The order of the run's turns. -/
def order (n : Nat) : Action := turnOf (n % 22)

/-- The phase's state with a history and a line. -/
def grown (s : State) (h : List Event) (u : List Byte) : State := { s with hist := h, utxline := u }

/-- The next state, of a step that has one. -/
def nextOf (r : Result) (s : State) : State :=
  match r with
  | .next t => t
  | .fault _ => s
  | .refused _ => s

/-- The run. -/
def run : Nat → State
  | 0 => idle
  | n + 1 => nextOf (stepBy (order n) (run n)) (run n)

theorem step_phase (j : Nat) (hj : j < 22) (h : List Event) (u : List Byte) :
    ∃ h' u', stepBy (turnOf j) (grown (phase j) h u) = .next (grown (phase ((j + 1) % 22)) h' u') := by
  interval_cases j <;> exact ⟨_, _, rfl⟩

theorem run_phase (n : Nat) : ∃ h u, run n = grown (phase (n % 22)) h u := by
  induction n with
  | zero => exact ⟨[], [], rfl⟩
  | succ n ih =>
    obtain ⟨h, u, hn⟩ := ih
    obtain ⟨h', u', hs⟩ := step_phase (n % 22) (Nat.mod_lt _ (by decide)) h u
    refine ⟨h', u', ?_⟩
    rw [Nat.mod_add_mod] at hs
    change nextOf (stepBy (turnOf (n % 22)) (run n)) (run n) = _
    rw [hn, hs]
    rfl

theorem isRun : IsRun order run := fun n => by
  obtain ⟨h, u, hn⟩ := run_phase n
  obtain ⟨h', u', hs⟩ := step_phase (n % 22) (Nat.mod_lt _ (by decide)) h u
  have hr : run (n + 1) = nextOf (stepBy (turnOf (n % 22)) (run n)) (run n) := rfl
  rw [hr, order, hn, hs]
  rfl

/-- What holds of every phase, whatever its history and line, holds of every state of the run. -/
theorem run_of_phase {p : Nat → State → Prop} (hp : ∀ j, j < 22 → ∀ h u, p j (grown (phase j) h u)) (n : Nat) :
    p (n % 22) (run n) := by
  obtain ⟨h, u, hn⟩ := run_phase n
  rw [hn]
  exact hp _ (Nat.mod_lt _ (by decide)) h u

/-- Every phase comes again. -/
theorem comes_again (j : Nat) (hj : j < 22) (n : Nat) : ∃ m, n ≤ m ∧ m % 22 = j :=
  ⟨22 * n + j, by omega, by omega⟩

/-- At phase 0 the foreground's turn comes, nothing can be dispatched and no byte waits. -/
theorem phase_zero (n : Nat) (h0 : n % 22 = 0) :
    (run n).ctx = .fg ∧ (∀ v, (run n).dispatchable v = false) ∧ (run n).fgEnabled = true := by
  obtain ⟨h, u, hn⟩ := run_phase n
  rw [hn, h0]
  exact ⟨rfl, fun v => by cases v <;> rfl, rfl⟩

theorem mux : MuxFair run := by
  refine ⟨fun n _ => ?_, fun v n hv => ?_⟩ <;> obtain ⟨m, hm, h0⟩ := comes_again 0 (by decide) n
  · exact ⟨m, hm, (phase_zero m h0).1⟩
  · exact absurd (hv m hm (phase_zero m h0).1) (by simp [(phase_zero m h0).2.1 v])

theorem fg : FgFair order run := by
  refine ⟨fun _ n => ?_, fun n hn => ?_⟩
  · obtain ⟨m, hm, h0⟩ := comes_again 0 (by decide) n
    exact ⟨m, hm, (phase_zero m h0).2.2, by rw [order, h0]; rfl⟩
  · exact absurd (run_of_phase (p := fun _ s => s.evq = []) (fun j hj h u => by interval_cases j <;> rfl) n) hn

/-- The turn of SYNC at which a pin is sampled. -/
theorem sample_turn : ∀ p : Byte, InPin.ofId p ≠ none →
    p.toNat ≤ 10 ∧ turnOf (11 + p.toNat) = .word .sync (encode (.syncSample p)) := by decide

theorem sync : SyncFair order := by
  intro p hp n
  obtain ⟨hle, ht⟩ := sample_turn p hp
  obtain ⟨m, hm, hj⟩ := comes_again (11 + p.toNat) (by omega) n
  exact ⟨m, hm, (congrArg turnOf hj).trans ht⟩

theorem env : EnvFair order run := by
  refine ⟨fun n _ => ?_, fun n _ => ?_⟩
  · obtain ⟨m, hm, hj⟩ := comes_again 1 (by decide) n
    exact ⟨m, hm, by rw [order, hj]; rfl⟩
  · obtain ⟨m, hm, hj⟩ := comes_again 6 (by decide) n
    exact ⟨m, hm, by rw [order, hj]; rfl⟩

/-- The run is fair, so that claims about fair runs are about something. -/
theorem fairRun : FairRun order run where
  run := isRun
  faultFree := run_of_phase (p := fun _ s => s.FaultFree) fun j hj h u => by interval_cases j <;> rfl
  mux := mux
  fg := fg
  sync := sync
  env := env

end Sys2Proof.Laws.Fairness
end

