-- ==== Sys2Proof/Laws/State.lean ====
section
/-! SUPPORT. One lemma per field of State per update: what each named update leaves and what it writes. -/

namespace Sys2Proof.Machine

variable (s : State)

/-! ## emit -/

@[simp] theorem emit_pin (e : Event) : (s.emit e).pin = s.pin := rfl
@[simp] theorem emit_sync (e : Event) : (s.emit e).sync = s.sync := rfl
@[simp] theorem emit_dir (e : Event) : (s.emit e).dir = s.dir := rfl
@[simp] theorem emit_lat (e : Event) : (s.emit e).lat = s.lat := rfl
@[simp] theorem emit_uartEn (e : Event) : (s.emit e).uartEn = s.uartEn := rfl
@[simp] theorem emit_uartIe (e : Event) : (s.emit e).uartIe = s.uartIe := rfl
@[simp] theorem emit_tmrEn (e : Event) : (s.emit e).tmrEn = s.tmrEn := rfl
@[simp] theorem emit_extaEn (e : Event) : (s.emit e).extaEn = s.extaEn := rfl
@[simp] theorem emit_extbEn (e : Event) : (s.emit e).extbEn = s.extbEn := rfl
@[simp] theorem emit_gie (e : Event) : (s.emit e).gie = s.gie := rfl
@[simp] theorem emit_pendExta (e : Event) : (s.emit e).pendExta = s.pendExta := rfl
@[simp] theorem emit_pendExtb (e : Event) : (s.emit e).pendExtb = s.pendExtb := rfl
@[simp] theorem emit_pendTick (e : Event) : (s.emit e).pendTick = s.pendTick := rfl
@[simp] theorem emit_rxfull (e : Event) : (s.emit e).rxfull = s.rxfull := rfl
@[simp] theorem emit_txc (e : Event) : (s.emit e).txc = s.txc := rfl
@[simp] theorem emit_rxdata (e : Event) : (s.emit e).rxdata = s.rxdata := rfl
@[simp] theorem emit_txbuf (e : Event) : (s.emit e).txbuf = s.txbuf := rfl
@[simp] theorem emit_baud (e : Event) : (s.emit e).baud = s.baud := rfl
@[simp] theorem emit_txi (e : Event) : (s.emit e).txi = s.txi := rfl
@[simp] theorem emit_rxi (e : Event) : (s.emit e).rxi = s.rxi := rfl
@[simp] theorem emit_cls0 (e : Event) : (s.emit e).cls0 = s.cls0 := rfl
@[simp] theorem emit_cls1 (e : Event) : (s.emit e).cls1 = s.cls1 := rfl
@[simp] theorem emit_clsLast (e : Event) : (s.emit e).clsLast = s.clsLast := rfl
@[simp] theorem emit_ctx (e : Event) : (s.emit e).ctx = s.ctx := rfl
@[simp] theorem emit_booted (e : Event) : (s.emit e).booted = s.booted := rfl
@[simp] theorem emit_fault (e : Event) : (s.emit e).fault = s.fault := rfl
@[simp] theorem emit_res (e : Event) : (s.emit e).res = s.res := rfl
@[simp] theorem emit_inq0 (e : Event) : (s.emit e).inq0 = s.inq0 := rfl
@[simp] theorem emit_inq1 (e : Event) : (s.emit e).inq1 = s.inq1 := rfl
@[simp] theorem emit_outq0 (e : Event) : (s.emit e).outq0 = s.outq0 := rfl
@[simp] theorem emit_outq1 (e : Event) : (s.emit e).outq1 = s.outq1 := rfl
@[simp] theorem emit_hostconn (e : Event) : (s.emit e).hostconn = s.hostconn := rfl
@[simp] theorem emit_evq (e : Event) : (s.emit e).evq = s.evq := rfl
@[simp] theorem emit_utxline (e : Event) : (s.emit e).utxline = s.utxline := rfl
@[simp] theorem emit_fgpc (e : Event) : (s.emit e).fgpc = s.fgpc := rfl
@[simp] theorem emit_fgcb (e : Event) : (s.emit e).fgcb = s.fgcb := rfl
@[simp] theorem emit_hpc (e : Event) : (s.emit e).hpc = s.hpc := rfl
@[simp] theorem emit_tMode (e : Event) : (s.emit e).tMode = s.tMode := rfl
@[simp] theorem emit_tRole (e : Event) : (s.emit e).tRole = s.tRole := rfl
@[simp] theorem emit_tBus (e : Event) : (s.emit e).tBus = s.tBus := rfl
@[simp] theorem emit_tKnob (e : Event) : (s.emit e).tKnob = s.tKnob := rfl
@[simp] theorem emit_tMatch (e : Event) : (s.emit e).tMatch = s.tMatch := rfl
@[simp] theorem emit_tByte (e : Event) : (s.emit e).tByte = s.tByte := rfl
@[simp] theorem emit_hist (e : Event) : (s.emit e).hist = s.hist ++ [e] := rfl
@[simp] theorem emit_cfg (e : Event) : (s.emit e).cfg = s.cfg := rfl
@[simp] theorem emit_script (e : Event) : (s.emit e).script = s.script := rfl
@[simp] theorem emit_sched (e : Event) : (s.emit e).sched = s.sched := rfl
@[simp] theorem emit_draws (e : Event) : (s.emit e).draws = s.draws := rfl
@[simp] theorem emit_round (e : Event) : (s.emit e).round = s.round := rfl

/-! ## record -/

@[simp] theorem record_pin (a : Agent) (i : Instr) : (s.record a i).pin = s.pin := rfl
@[simp] theorem record_sync (a : Agent) (i : Instr) : (s.record a i).sync = s.sync := rfl
@[simp] theorem record_dir (a : Agent) (i : Instr) : (s.record a i).dir = s.dir := rfl
@[simp] theorem record_lat (a : Agent) (i : Instr) : (s.record a i).lat = s.lat := rfl
@[simp] theorem record_uartEn (a : Agent) (i : Instr) : (s.record a i).uartEn = s.uartEn := rfl
@[simp] theorem record_uartIe (a : Agent) (i : Instr) : (s.record a i).uartIe = s.uartIe := rfl
@[simp] theorem record_tmrEn (a : Agent) (i : Instr) : (s.record a i).tmrEn = s.tmrEn := rfl
@[simp] theorem record_extaEn (a : Agent) (i : Instr) : (s.record a i).extaEn = s.extaEn := rfl
@[simp] theorem record_extbEn (a : Agent) (i : Instr) : (s.record a i).extbEn = s.extbEn := rfl
@[simp] theorem record_gie (a : Agent) (i : Instr) : (s.record a i).gie = s.gie := rfl
@[simp] theorem record_pendExta (a : Agent) (i : Instr) : (s.record a i).pendExta = s.pendExta := rfl
@[simp] theorem record_pendExtb (a : Agent) (i : Instr) : (s.record a i).pendExtb = s.pendExtb := rfl
@[simp] theorem record_pendTick (a : Agent) (i : Instr) : (s.record a i).pendTick = s.pendTick := rfl
@[simp] theorem record_rxfull (a : Agent) (i : Instr) : (s.record a i).rxfull = s.rxfull := rfl
@[simp] theorem record_txc (a : Agent) (i : Instr) : (s.record a i).txc = s.txc := rfl
@[simp] theorem record_rxdata (a : Agent) (i : Instr) : (s.record a i).rxdata = s.rxdata := rfl
@[simp] theorem record_txbuf (a : Agent) (i : Instr) : (s.record a i).txbuf = s.txbuf := rfl
@[simp] theorem record_baud (a : Agent) (i : Instr) : (s.record a i).baud = s.baud := rfl
@[simp] theorem record_txi (a : Agent) (i : Instr) : (s.record a i).txi = s.txi := rfl
@[simp] theorem record_rxi (a : Agent) (i : Instr) : (s.record a i).rxi = s.rxi := rfl
@[simp] theorem record_cls0 (a : Agent) (i : Instr) : (s.record a i).cls0 = s.cls0 := rfl
@[simp] theorem record_cls1 (a : Agent) (i : Instr) : (s.record a i).cls1 = s.cls1 := rfl
@[simp] theorem record_clsLast (a : Agent) (i : Instr) : (s.record a i).clsLast = s.clsLast := rfl
@[simp] theorem record_ctx (a : Agent) (i : Instr) : (s.record a i).ctx = s.ctx := rfl
@[simp] theorem record_booted (a : Agent) (i : Instr) : (s.record a i).booted = s.booted := rfl
@[simp] theorem record_fault (a : Agent) (i : Instr) : (s.record a i).fault = s.fault := rfl
@[simp] theorem record_res (a : Agent) (i : Instr) : (s.record a i).res = s.res := rfl
@[simp] theorem record_inq0 (a : Agent) (i : Instr) : (s.record a i).inq0 = s.inq0 := rfl
@[simp] theorem record_inq1 (a : Agent) (i : Instr) : (s.record a i).inq1 = s.inq1 := rfl
@[simp] theorem record_outq0 (a : Agent) (i : Instr) : (s.record a i).outq0 = s.outq0 := rfl
@[simp] theorem record_outq1 (a : Agent) (i : Instr) : (s.record a i).outq1 = s.outq1 := rfl
@[simp] theorem record_hostconn (a : Agent) (i : Instr) : (s.record a i).hostconn = s.hostconn := rfl
@[simp] theorem record_evq (a : Agent) (i : Instr) : (s.record a i).evq = s.evq := rfl
@[simp] theorem record_utxline (a : Agent) (i : Instr) : (s.record a i).utxline = s.utxline := rfl
@[simp] theorem record_fgpc (a : Agent) (i : Instr) : (s.record a i).fgpc = s.fgpc := rfl
@[simp] theorem record_fgcb (a : Agent) (i : Instr) : (s.record a i).fgcb = s.fgcb := rfl
@[simp] theorem record_hpc (a : Agent) (i : Instr) : (s.record a i).hpc = s.hpc := rfl
@[simp] theorem record_tMode (a : Agent) (i : Instr) : (s.record a i).tMode = s.tMode := rfl
@[simp] theorem record_tRole (a : Agent) (i : Instr) : (s.record a i).tRole = s.tRole := rfl
@[simp] theorem record_tBus (a : Agent) (i : Instr) : (s.record a i).tBus = s.tBus := rfl
@[simp] theorem record_tKnob (a : Agent) (i : Instr) : (s.record a i).tKnob = s.tKnob := rfl
@[simp] theorem record_tMatch (a : Agent) (i : Instr) : (s.record a i).tMatch = s.tMatch := rfl
@[simp] theorem record_tByte (a : Agent) (i : Instr) : (s.record a i).tByte = s.tByte := rfl
@[simp] theorem record_hist (a : Agent) (i : Instr) : (s.record a i).hist = s.hist ++ [.word a (encode i)] := rfl
@[simp] theorem record_cfg (a : Agent) (i : Instr) : (s.record a i).cfg = s.cfg := rfl
@[simp] theorem record_script (a : Agent) (i : Instr) : (s.record a i).script = s.script := rfl
@[simp] theorem record_sched (a : Agent) (i : Instr) : (s.record a i).sched = s.sched := rfl
@[simp] theorem record_draws (a : Agent) (i : Instr) : (s.record a i).draws = s.draws := rfl
@[simp] theorem record_round (a : Agent) (i : Instr) : (s.record a i).round = s.round := rfl

/-! ## setRes -/

@[simp] theorem setRes_pin (v : Half) : (s.setRes v).pin = s.pin := rfl
@[simp] theorem setRes_sync (v : Half) : (s.setRes v).sync = s.sync := rfl
@[simp] theorem setRes_dir (v : Half) : (s.setRes v).dir = s.dir := rfl
@[simp] theorem setRes_lat (v : Half) : (s.setRes v).lat = s.lat := rfl
@[simp] theorem setRes_uartEn (v : Half) : (s.setRes v).uartEn = s.uartEn := rfl
@[simp] theorem setRes_uartIe (v : Half) : (s.setRes v).uartIe = s.uartIe := rfl
@[simp] theorem setRes_tmrEn (v : Half) : (s.setRes v).tmrEn = s.tmrEn := rfl
@[simp] theorem setRes_extaEn (v : Half) : (s.setRes v).extaEn = s.extaEn := rfl
@[simp] theorem setRes_extbEn (v : Half) : (s.setRes v).extbEn = s.extbEn := rfl
@[simp] theorem setRes_gie (v : Half) : (s.setRes v).gie = s.gie := rfl
@[simp] theorem setRes_pendExta (v : Half) : (s.setRes v).pendExta = s.pendExta := rfl
@[simp] theorem setRes_pendExtb (v : Half) : (s.setRes v).pendExtb = s.pendExtb := rfl
@[simp] theorem setRes_pendTick (v : Half) : (s.setRes v).pendTick = s.pendTick := rfl
@[simp] theorem setRes_rxfull (v : Half) : (s.setRes v).rxfull = s.rxfull := rfl
@[simp] theorem setRes_txc (v : Half) : (s.setRes v).txc = s.txc := rfl
@[simp] theorem setRes_rxdata (v : Half) : (s.setRes v).rxdata = s.rxdata := rfl
@[simp] theorem setRes_txbuf (v : Half) : (s.setRes v).txbuf = s.txbuf := rfl
@[simp] theorem setRes_baud (v : Half) : (s.setRes v).baud = s.baud := rfl
@[simp] theorem setRes_txi (v : Half) : (s.setRes v).txi = s.txi := rfl
@[simp] theorem setRes_rxi (v : Half) : (s.setRes v).rxi = s.rxi := rfl
@[simp] theorem setRes_cls0 (v : Half) : (s.setRes v).cls0 = s.cls0 := rfl
@[simp] theorem setRes_cls1 (v : Half) : (s.setRes v).cls1 = s.cls1 := rfl
@[simp] theorem setRes_clsLast (v : Half) : (s.setRes v).clsLast = s.clsLast := rfl
@[simp] theorem setRes_ctx (v : Half) : (s.setRes v).ctx = s.ctx := rfl
@[simp] theorem setRes_booted (v : Half) : (s.setRes v).booted = s.booted := rfl
@[simp] theorem setRes_fault (v : Half) : (s.setRes v).fault = s.fault := rfl
@[simp] theorem setRes_res (v : Half) : (s.setRes v).res = some v := rfl
@[simp] theorem setRes_inq0 (v : Half) : (s.setRes v).inq0 = s.inq0 := rfl
@[simp] theorem setRes_inq1 (v : Half) : (s.setRes v).inq1 = s.inq1 := rfl
@[simp] theorem setRes_outq0 (v : Half) : (s.setRes v).outq0 = s.outq0 := rfl
@[simp] theorem setRes_outq1 (v : Half) : (s.setRes v).outq1 = s.outq1 := rfl
@[simp] theorem setRes_hostconn (v : Half) : (s.setRes v).hostconn = s.hostconn := rfl
@[simp] theorem setRes_evq (v : Half) : (s.setRes v).evq = s.evq := rfl
@[simp] theorem setRes_utxline (v : Half) : (s.setRes v).utxline = s.utxline := rfl
@[simp] theorem setRes_fgpc (v : Half) : (s.setRes v).fgpc = s.fgpc := rfl
@[simp] theorem setRes_fgcb (v : Half) : (s.setRes v).fgcb = s.fgcb := rfl
@[simp] theorem setRes_hpc (v : Half) : (s.setRes v).hpc = s.hpc := rfl
@[simp] theorem setRes_tMode (v : Half) : (s.setRes v).tMode = s.tMode := rfl
@[simp] theorem setRes_tRole (v : Half) : (s.setRes v).tRole = s.tRole := rfl
@[simp] theorem setRes_tBus (v : Half) : (s.setRes v).tBus = s.tBus := rfl
@[simp] theorem setRes_tKnob (v : Half) : (s.setRes v).tKnob = s.tKnob := rfl
@[simp] theorem setRes_tMatch (v : Half) : (s.setRes v).tMatch = s.tMatch := rfl
@[simp] theorem setRes_tByte (v : Half) : (s.setRes v).tByte = s.tByte := rfl
@[simp] theorem setRes_hist (v : Half) : (s.setRes v).hist = s.hist := rfl
@[simp] theorem setRes_cfg (v : Half) : (s.setRes v).cfg = s.cfg := rfl
@[simp] theorem setRes_script (v : Half) : (s.setRes v).script = s.script := rfl
@[simp] theorem setRes_sched (v : Half) : (s.setRes v).sched = s.sched := rfl
@[simp] theorem setRes_draws (v : Half) : (s.setRes v).draws = s.draws := rfl
@[simp] theorem setRes_round (v : Half) : (s.setRes v).round = s.round := rfl

/-! ## advance -/

@[simp] theorem advance_pin : s.advance.pin = s.pin := rfl
@[simp] theorem advance_sync : s.advance.sync = s.sync := rfl
@[simp] theorem advance_dir : s.advance.dir = s.dir := rfl
@[simp] theorem advance_lat : s.advance.lat = s.lat := rfl
@[simp] theorem advance_uartEn : s.advance.uartEn = s.uartEn := rfl
@[simp] theorem advance_uartIe : s.advance.uartIe = s.uartIe := rfl
@[simp] theorem advance_tmrEn : s.advance.tmrEn = s.tmrEn := rfl
@[simp] theorem advance_extaEn : s.advance.extaEn = s.extaEn := rfl
@[simp] theorem advance_extbEn : s.advance.extbEn = s.extbEn := rfl
@[simp] theorem advance_gie : s.advance.gie = s.gie := rfl
@[simp] theorem advance_pendExta : s.advance.pendExta = s.pendExta := rfl
@[simp] theorem advance_pendExtb : s.advance.pendExtb = s.pendExtb := rfl
@[simp] theorem advance_pendTick : s.advance.pendTick = s.pendTick := rfl
@[simp] theorem advance_rxfull : s.advance.rxfull = s.rxfull := rfl
@[simp] theorem advance_txc : s.advance.txc = s.txc := rfl
@[simp] theorem advance_rxdata : s.advance.rxdata = s.rxdata := rfl
@[simp] theorem advance_txbuf : s.advance.txbuf = s.txbuf := rfl
@[simp] theorem advance_baud : s.advance.baud = s.baud := rfl
@[simp] theorem advance_txi : s.advance.txi = s.txi := rfl
@[simp] theorem advance_rxi : s.advance.rxi = s.rxi := rfl
@[simp] theorem advance_cls0 : s.advance.cls0 = s.cls0 := rfl
@[simp] theorem advance_cls1 : s.advance.cls1 = s.cls1 := rfl
@[simp] theorem advance_clsLast : s.advance.clsLast = s.clsLast := rfl
@[simp] theorem advance_ctx : s.advance.ctx = s.ctx := rfl
@[simp] theorem advance_booted : s.advance.booted = s.booted := rfl
@[simp] theorem advance_fault : s.advance.fault = s.fault := rfl
@[simp] theorem advance_res : s.advance.res = s.res := rfl
@[simp] theorem advance_inq0 : s.advance.inq0 = s.inq0 := rfl
@[simp] theorem advance_inq1 : s.advance.inq1 = s.inq1 := rfl
@[simp] theorem advance_outq0 : s.advance.outq0 = s.outq0 := rfl
@[simp] theorem advance_outq1 : s.advance.outq1 = s.outq1 := rfl
@[simp] theorem advance_hostconn : s.advance.hostconn = s.hostconn := rfl
@[simp] theorem advance_evq : s.advance.evq = s.evq := rfl
@[simp] theorem advance_utxline : s.advance.utxline = s.utxline := rfl
@[simp] theorem advance_fgpc : s.advance.fgpc = s.fgpc + 1 := rfl
@[simp] theorem advance_fgcb : s.advance.fgcb = s.fgcb := rfl
@[simp] theorem advance_hpc : s.advance.hpc = s.hpc := rfl
@[simp] theorem advance_tMode : s.advance.tMode = s.tMode := rfl
@[simp] theorem advance_tRole : s.advance.tRole = s.tRole := rfl
@[simp] theorem advance_tBus : s.advance.tBus = s.tBus := rfl
@[simp] theorem advance_tKnob : s.advance.tKnob = s.tKnob := rfl
@[simp] theorem advance_tMatch : s.advance.tMatch = s.tMatch := rfl
@[simp] theorem advance_tByte : s.advance.tByte = s.tByte := rfl
@[simp] theorem advance_hist : s.advance.hist = s.hist := rfl
@[simp] theorem advance_cfg : s.advance.cfg = s.cfg := rfl
@[simp] theorem advance_script : s.advance.script = s.script := rfl
@[simp] theorem advance_sched : s.advance.sched = s.sched := rfl
@[simp] theorem advance_draws : s.advance.draws = s.draws := rfl
@[simp] theorem advance_round : s.advance.round = s.round := rfl

/-! ## setHpc -/

@[simp] theorem setHpc_pin (k : Nat) : (s.setHpc k).pin = s.pin := rfl
@[simp] theorem setHpc_sync (k : Nat) : (s.setHpc k).sync = s.sync := rfl
@[simp] theorem setHpc_dir (k : Nat) : (s.setHpc k).dir = s.dir := rfl
@[simp] theorem setHpc_lat (k : Nat) : (s.setHpc k).lat = s.lat := rfl
@[simp] theorem setHpc_uartEn (k : Nat) : (s.setHpc k).uartEn = s.uartEn := rfl
@[simp] theorem setHpc_uartIe (k : Nat) : (s.setHpc k).uartIe = s.uartIe := rfl
@[simp] theorem setHpc_tmrEn (k : Nat) : (s.setHpc k).tmrEn = s.tmrEn := rfl
@[simp] theorem setHpc_extaEn (k : Nat) : (s.setHpc k).extaEn = s.extaEn := rfl
@[simp] theorem setHpc_extbEn (k : Nat) : (s.setHpc k).extbEn = s.extbEn := rfl
@[simp] theorem setHpc_gie (k : Nat) : (s.setHpc k).gie = s.gie := rfl
@[simp] theorem setHpc_pendExta (k : Nat) : (s.setHpc k).pendExta = s.pendExta := rfl
@[simp] theorem setHpc_pendExtb (k : Nat) : (s.setHpc k).pendExtb = s.pendExtb := rfl
@[simp] theorem setHpc_pendTick (k : Nat) : (s.setHpc k).pendTick = s.pendTick := rfl
@[simp] theorem setHpc_rxfull (k : Nat) : (s.setHpc k).rxfull = s.rxfull := rfl
@[simp] theorem setHpc_txc (k : Nat) : (s.setHpc k).txc = s.txc := rfl
@[simp] theorem setHpc_rxdata (k : Nat) : (s.setHpc k).rxdata = s.rxdata := rfl
@[simp] theorem setHpc_txbuf (k : Nat) : (s.setHpc k).txbuf = s.txbuf := rfl
@[simp] theorem setHpc_baud (k : Nat) : (s.setHpc k).baud = s.baud := rfl
@[simp] theorem setHpc_txi (k : Nat) : (s.setHpc k).txi = s.txi := rfl
@[simp] theorem setHpc_rxi (k : Nat) : (s.setHpc k).rxi = s.rxi := rfl
@[simp] theorem setHpc_cls0 (k : Nat) : (s.setHpc k).cls0 = s.cls0 := rfl
@[simp] theorem setHpc_cls1 (k : Nat) : (s.setHpc k).cls1 = s.cls1 := rfl
@[simp] theorem setHpc_clsLast (k : Nat) : (s.setHpc k).clsLast = s.clsLast := rfl
@[simp] theorem setHpc_ctx (k : Nat) : (s.setHpc k).ctx = s.ctx := rfl
@[simp] theorem setHpc_booted (k : Nat) : (s.setHpc k).booted = s.booted := rfl
@[simp] theorem setHpc_fault (k : Nat) : (s.setHpc k).fault = s.fault := rfl
@[simp] theorem setHpc_res (k : Nat) : (s.setHpc k).res = s.res := rfl
@[simp] theorem setHpc_inq0 (k : Nat) : (s.setHpc k).inq0 = s.inq0 := rfl
@[simp] theorem setHpc_inq1 (k : Nat) : (s.setHpc k).inq1 = s.inq1 := rfl
@[simp] theorem setHpc_outq0 (k : Nat) : (s.setHpc k).outq0 = s.outq0 := rfl
@[simp] theorem setHpc_outq1 (k : Nat) : (s.setHpc k).outq1 = s.outq1 := rfl
@[simp] theorem setHpc_hostconn (k : Nat) : (s.setHpc k).hostconn = s.hostconn := rfl
@[simp] theorem setHpc_evq (k : Nat) : (s.setHpc k).evq = s.evq := rfl
@[simp] theorem setHpc_utxline (k : Nat) : (s.setHpc k).utxline = s.utxline := rfl
@[simp] theorem setHpc_fgpc (k : Nat) : (s.setHpc k).fgpc = s.fgpc := rfl
@[simp] theorem setHpc_fgcb (k : Nat) : (s.setHpc k).fgcb = s.fgcb := rfl
@[simp] theorem setHpc_hpc (k : Nat) : (s.setHpc k).hpc = some k := rfl
@[simp] theorem setHpc_tMode (k : Nat) : (s.setHpc k).tMode = s.tMode := rfl
@[simp] theorem setHpc_tRole (k : Nat) : (s.setHpc k).tRole = s.tRole := rfl
@[simp] theorem setHpc_tBus (k : Nat) : (s.setHpc k).tBus = s.tBus := rfl
@[simp] theorem setHpc_tKnob (k : Nat) : (s.setHpc k).tKnob = s.tKnob := rfl
@[simp] theorem setHpc_tMatch (k : Nat) : (s.setHpc k).tMatch = s.tMatch := rfl
@[simp] theorem setHpc_tByte (k : Nat) : (s.setHpc k).tByte = s.tByte := rfl
@[simp] theorem setHpc_hist (k : Nat) : (s.setHpc k).hist = s.hist := rfl
@[simp] theorem setHpc_cfg (k : Nat) : (s.setHpc k).cfg = s.cfg := rfl
@[simp] theorem setHpc_script (k : Nat) : (s.setHpc k).script = s.script := rfl
@[simp] theorem setHpc_sched (k : Nat) : (s.setHpc k).sched = s.sched := rfl
@[simp] theorem setHpc_draws (k : Nat) : (s.setHpc k).draws = s.draws := rfl
@[simp] theorem setHpc_round (k : Nat) : (s.setHpc k).round = s.round := rfl

/-! ## drawn -/

@[simp] theorem drawn_pin : s.drawn.pin = s.pin := rfl
@[simp] theorem drawn_sync : s.drawn.sync = s.sync := rfl
@[simp] theorem drawn_dir : s.drawn.dir = s.dir := rfl
@[simp] theorem drawn_lat : s.drawn.lat = s.lat := rfl
@[simp] theorem drawn_uartEn : s.drawn.uartEn = s.uartEn := rfl
@[simp] theorem drawn_uartIe : s.drawn.uartIe = s.uartIe := rfl
@[simp] theorem drawn_tmrEn : s.drawn.tmrEn = s.tmrEn := rfl
@[simp] theorem drawn_extaEn : s.drawn.extaEn = s.extaEn := rfl
@[simp] theorem drawn_extbEn : s.drawn.extbEn = s.extbEn := rfl
@[simp] theorem drawn_gie : s.drawn.gie = s.gie := rfl
@[simp] theorem drawn_pendExta : s.drawn.pendExta = s.pendExta := rfl
@[simp] theorem drawn_pendExtb : s.drawn.pendExtb = s.pendExtb := rfl
@[simp] theorem drawn_pendTick : s.drawn.pendTick = s.pendTick := rfl
@[simp] theorem drawn_rxfull : s.drawn.rxfull = s.rxfull := rfl
@[simp] theorem drawn_txc : s.drawn.txc = s.txc := rfl
@[simp] theorem drawn_rxdata : s.drawn.rxdata = s.rxdata := rfl
@[simp] theorem drawn_txbuf : s.drawn.txbuf = s.txbuf := rfl
@[simp] theorem drawn_baud : s.drawn.baud = s.baud := rfl
@[simp] theorem drawn_txi : s.drawn.txi = s.txi := rfl
@[simp] theorem drawn_rxi : s.drawn.rxi = s.rxi := rfl
@[simp] theorem drawn_cls0 : s.drawn.cls0 = s.cls0 := rfl
@[simp] theorem drawn_cls1 : s.drawn.cls1 = s.cls1 := rfl
@[simp] theorem drawn_clsLast : s.drawn.clsLast = s.clsLast := rfl
@[simp] theorem drawn_ctx : s.drawn.ctx = s.ctx := rfl
@[simp] theorem drawn_booted : s.drawn.booted = s.booted := rfl
@[simp] theorem drawn_fault : s.drawn.fault = s.fault := rfl
@[simp] theorem drawn_res : s.drawn.res = s.res := rfl
@[simp] theorem drawn_inq0 : s.drawn.inq0 = s.inq0 := rfl
@[simp] theorem drawn_inq1 : s.drawn.inq1 = s.inq1 := rfl
@[simp] theorem drawn_outq0 : s.drawn.outq0 = s.outq0 := rfl
@[simp] theorem drawn_outq1 : s.drawn.outq1 = s.outq1 := rfl
@[simp] theorem drawn_hostconn : s.drawn.hostconn = s.hostconn := rfl
@[simp] theorem drawn_evq : s.drawn.evq = s.evq := rfl
@[simp] theorem drawn_utxline : s.drawn.utxline = s.utxline := rfl
@[simp] theorem drawn_fgpc : s.drawn.fgpc = s.fgpc := rfl
@[simp] theorem drawn_fgcb : s.drawn.fgcb = s.fgcb := rfl
@[simp] theorem drawn_hpc : s.drawn.hpc = s.hpc := rfl
@[simp] theorem drawn_tMode : s.drawn.tMode = s.tMode := rfl
@[simp] theorem drawn_tRole : s.drawn.tRole = s.tRole := rfl
@[simp] theorem drawn_tBus : s.drawn.tBus = s.tBus := rfl
@[simp] theorem drawn_tKnob : s.drawn.tKnob = s.tKnob := rfl
@[simp] theorem drawn_tMatch : s.drawn.tMatch = s.tMatch := rfl
@[simp] theorem drawn_tByte : s.drawn.tByte = s.tByte := rfl
@[simp] theorem drawn_hist : s.drawn.hist = s.hist := rfl
@[simp] theorem drawn_cfg : s.drawn.cfg = s.cfg := rfl
@[simp] theorem drawn_script : s.drawn.script = s.script := rfl
@[simp] theorem drawn_sched : s.drawn.sched = s.sched := rfl
@[simp] theorem drawn_draws : s.drawn.draws = s.draws + 1 := rfl
@[simp] theorem drawn_round : s.drawn.round = s.round := rfl

/-! ## writeLat -/

@[simp] theorem writeLat_pin (p : OutPin) (v : Bool) : (s.writeLat p v).pin = s.pin := rfl
@[simp] theorem writeLat_sync (p : OutPin) (v : Bool) : (s.writeLat p v).sync = s.sync := rfl
@[simp] theorem writeLat_dir (p : OutPin) (v : Bool) : (s.writeLat p v).dir = s.dir := rfl
@[simp] theorem writeLat_lat (p : OutPin) (v : Bool) : (s.writeLat p v).lat = s.lat.set p (some v) := rfl
@[simp] theorem writeLat_uartEn (p : OutPin) (v : Bool) : (s.writeLat p v).uartEn = s.uartEn := rfl
@[simp] theorem writeLat_uartIe (p : OutPin) (v : Bool) : (s.writeLat p v).uartIe = s.uartIe := rfl
@[simp] theorem writeLat_tmrEn (p : OutPin) (v : Bool) : (s.writeLat p v).tmrEn = s.tmrEn := rfl
@[simp] theorem writeLat_extaEn (p : OutPin) (v : Bool) : (s.writeLat p v).extaEn = s.extaEn := rfl
@[simp] theorem writeLat_extbEn (p : OutPin) (v : Bool) : (s.writeLat p v).extbEn = s.extbEn := rfl
@[simp] theorem writeLat_gie (p : OutPin) (v : Bool) : (s.writeLat p v).gie = s.gie := rfl
@[simp] theorem writeLat_pendExta (p : OutPin) (v : Bool) : (s.writeLat p v).pendExta = s.pendExta := rfl
@[simp] theorem writeLat_pendExtb (p : OutPin) (v : Bool) : (s.writeLat p v).pendExtb = s.pendExtb := rfl
@[simp] theorem writeLat_pendTick (p : OutPin) (v : Bool) : (s.writeLat p v).pendTick = s.pendTick := rfl
@[simp] theorem writeLat_rxfull (p : OutPin) (v : Bool) : (s.writeLat p v).rxfull = s.rxfull := rfl
@[simp] theorem writeLat_txc (p : OutPin) (v : Bool) : (s.writeLat p v).txc = s.txc := rfl
@[simp] theorem writeLat_rxdata (p : OutPin) (v : Bool) : (s.writeLat p v).rxdata = s.rxdata := rfl
@[simp] theorem writeLat_txbuf (p : OutPin) (v : Bool) : (s.writeLat p v).txbuf = s.txbuf := rfl
@[simp] theorem writeLat_baud (p : OutPin) (v : Bool) : (s.writeLat p v).baud = s.baud := rfl
@[simp] theorem writeLat_txi (p : OutPin) (v : Bool) : (s.writeLat p v).txi = s.txi := rfl
@[simp] theorem writeLat_rxi (p : OutPin) (v : Bool) : (s.writeLat p v).rxi = s.rxi := rfl
@[simp] theorem writeLat_cls0 (p : OutPin) (v : Bool) : (s.writeLat p v).cls0 = s.cls0 := rfl
@[simp] theorem writeLat_cls1 (p : OutPin) (v : Bool) : (s.writeLat p v).cls1 = s.cls1 := rfl
@[simp] theorem writeLat_clsLast (p : OutPin) (v : Bool) : (s.writeLat p v).clsLast = s.clsLast := rfl
@[simp] theorem writeLat_ctx (p : OutPin) (v : Bool) : (s.writeLat p v).ctx = s.ctx := rfl
@[simp] theorem writeLat_booted (p : OutPin) (v : Bool) : (s.writeLat p v).booted = s.booted := rfl
@[simp] theorem writeLat_fault (p : OutPin) (v : Bool) : (s.writeLat p v).fault = s.fault := rfl
@[simp] theorem writeLat_res (p : OutPin) (v : Bool) : (s.writeLat p v).res = s.res := rfl
@[simp] theorem writeLat_inq0 (p : OutPin) (v : Bool) : (s.writeLat p v).inq0 = s.inq0 := rfl
@[simp] theorem writeLat_inq1 (p : OutPin) (v : Bool) : (s.writeLat p v).inq1 = s.inq1 := rfl
@[simp] theorem writeLat_outq0 (p : OutPin) (v : Bool) : (s.writeLat p v).outq0 = s.outq0 := rfl
@[simp] theorem writeLat_outq1 (p : OutPin) (v : Bool) : (s.writeLat p v).outq1 = s.outq1 := rfl
@[simp] theorem writeLat_hostconn (p : OutPin) (v : Bool) : (s.writeLat p v).hostconn = s.hostconn := rfl
@[simp] theorem writeLat_evq (p : OutPin) (v : Bool) : (s.writeLat p v).evq = s.evq := rfl
@[simp] theorem writeLat_utxline (p : OutPin) (v : Bool) : (s.writeLat p v).utxline = s.utxline := rfl
@[simp] theorem writeLat_fgpc (p : OutPin) (v : Bool) : (s.writeLat p v).fgpc = s.fgpc := rfl
@[simp] theorem writeLat_fgcb (p : OutPin) (v : Bool) : (s.writeLat p v).fgcb = s.fgcb := rfl
@[simp] theorem writeLat_hpc (p : OutPin) (v : Bool) : (s.writeLat p v).hpc = s.hpc := rfl
@[simp] theorem writeLat_tMode (p : OutPin) (v : Bool) : (s.writeLat p v).tMode = s.tMode := rfl
@[simp] theorem writeLat_tRole (p : OutPin) (v : Bool) : (s.writeLat p v).tRole = s.tRole := rfl
@[simp] theorem writeLat_tBus (p : OutPin) (v : Bool) : (s.writeLat p v).tBus = s.tBus := rfl
@[simp] theorem writeLat_tKnob (p : OutPin) (v : Bool) : (s.writeLat p v).tKnob = s.tKnob := rfl
@[simp] theorem writeLat_tMatch (p : OutPin) (v : Bool) : (s.writeLat p v).tMatch = s.tMatch := rfl
@[simp] theorem writeLat_tByte (p : OutPin) (v : Bool) : (s.writeLat p v).tByte = s.tByte := rfl
@[simp] theorem writeLat_hist (p : OutPin) (v : Bool) : (s.writeLat p v).hist = s.hist ++ [.pinwrite p v] := rfl
@[simp] theorem writeLat_cfg (p : OutPin) (v : Bool) : (s.writeLat p v).cfg = s.cfg := rfl
@[simp] theorem writeLat_script (p : OutPin) (v : Bool) : (s.writeLat p v).script = s.script := rfl
@[simp] theorem writeLat_sched (p : OutPin) (v : Bool) : (s.writeLat p v).sched = s.sched := rfl
@[simp] theorem writeLat_draws (p : OutPin) (v : Bool) : (s.writeLat p v).draws = s.draws := rfl
@[simp] theorem writeLat_round (p : OutPin) (v : Bool) : (s.writeLat p v).round = s.round := rfl

/-! ## writeDir -/

@[simp] theorem writeDir_pin (p : OutPin) (d : Direction) : (s.writeDir p d).pin = s.pin := rfl
@[simp] theorem writeDir_sync (p : OutPin) (d : Direction) : (s.writeDir p d).sync = s.sync := rfl
@[simp] theorem writeDir_dir (p : OutPin) (d : Direction) : (s.writeDir p d).dir = s.dir.set p d := rfl
@[simp] theorem writeDir_lat (p : OutPin) (d : Direction) : (s.writeDir p d).lat = s.lat := rfl
@[simp] theorem writeDir_uartEn (p : OutPin) (d : Direction) : (s.writeDir p d).uartEn = s.uartEn := rfl
@[simp] theorem writeDir_uartIe (p : OutPin) (d : Direction) : (s.writeDir p d).uartIe = s.uartIe := rfl
@[simp] theorem writeDir_tmrEn (p : OutPin) (d : Direction) : (s.writeDir p d).tmrEn = s.tmrEn := rfl
@[simp] theorem writeDir_extaEn (p : OutPin) (d : Direction) : (s.writeDir p d).extaEn = s.extaEn := rfl
@[simp] theorem writeDir_extbEn (p : OutPin) (d : Direction) : (s.writeDir p d).extbEn = s.extbEn := rfl
@[simp] theorem writeDir_gie (p : OutPin) (d : Direction) : (s.writeDir p d).gie = s.gie := rfl
@[simp] theorem writeDir_pendExta (p : OutPin) (d : Direction) : (s.writeDir p d).pendExta = s.pendExta := rfl
@[simp] theorem writeDir_pendExtb (p : OutPin) (d : Direction) : (s.writeDir p d).pendExtb = s.pendExtb := rfl
@[simp] theorem writeDir_pendTick (p : OutPin) (d : Direction) : (s.writeDir p d).pendTick = s.pendTick := rfl
@[simp] theorem writeDir_rxfull (p : OutPin) (d : Direction) : (s.writeDir p d).rxfull = s.rxfull := rfl
@[simp] theorem writeDir_txc (p : OutPin) (d : Direction) : (s.writeDir p d).txc = s.txc := rfl
@[simp] theorem writeDir_rxdata (p : OutPin) (d : Direction) : (s.writeDir p d).rxdata = s.rxdata := rfl
@[simp] theorem writeDir_txbuf (p : OutPin) (d : Direction) : (s.writeDir p d).txbuf = s.txbuf := rfl
@[simp] theorem writeDir_baud (p : OutPin) (d : Direction) : (s.writeDir p d).baud = s.baud := rfl
@[simp] theorem writeDir_txi (p : OutPin) (d : Direction) : (s.writeDir p d).txi = s.txi := rfl
@[simp] theorem writeDir_rxi (p : OutPin) (d : Direction) : (s.writeDir p d).rxi = s.rxi := rfl
@[simp] theorem writeDir_cls0 (p : OutPin) (d : Direction) : (s.writeDir p d).cls0 = s.cls0 := rfl
@[simp] theorem writeDir_cls1 (p : OutPin) (d : Direction) : (s.writeDir p d).cls1 = s.cls1 := rfl
@[simp] theorem writeDir_clsLast (p : OutPin) (d : Direction) : (s.writeDir p d).clsLast = s.clsLast := rfl
@[simp] theorem writeDir_ctx (p : OutPin) (d : Direction) : (s.writeDir p d).ctx = s.ctx := rfl
@[simp] theorem writeDir_booted (p : OutPin) (d : Direction) : (s.writeDir p d).booted = s.booted := rfl
@[simp] theorem writeDir_fault (p : OutPin) (d : Direction) : (s.writeDir p d).fault = s.fault := rfl
@[simp] theorem writeDir_res (p : OutPin) (d : Direction) : (s.writeDir p d).res = s.res := rfl
@[simp] theorem writeDir_inq0 (p : OutPin) (d : Direction) : (s.writeDir p d).inq0 = s.inq0 := rfl
@[simp] theorem writeDir_inq1 (p : OutPin) (d : Direction) : (s.writeDir p d).inq1 = s.inq1 := rfl
@[simp] theorem writeDir_outq0 (p : OutPin) (d : Direction) : (s.writeDir p d).outq0 = s.outq0 := rfl
@[simp] theorem writeDir_outq1 (p : OutPin) (d : Direction) : (s.writeDir p d).outq1 = s.outq1 := rfl
@[simp] theorem writeDir_hostconn (p : OutPin) (d : Direction) : (s.writeDir p d).hostconn = s.hostconn := rfl
@[simp] theorem writeDir_evq (p : OutPin) (d : Direction) : (s.writeDir p d).evq = s.evq := rfl
@[simp] theorem writeDir_utxline (p : OutPin) (d : Direction) : (s.writeDir p d).utxline = s.utxline := rfl
@[simp] theorem writeDir_fgpc (p : OutPin) (d : Direction) : (s.writeDir p d).fgpc = s.fgpc := rfl
@[simp] theorem writeDir_fgcb (p : OutPin) (d : Direction) : (s.writeDir p d).fgcb = s.fgcb := rfl
@[simp] theorem writeDir_hpc (p : OutPin) (d : Direction) : (s.writeDir p d).hpc = s.hpc := rfl
@[simp] theorem writeDir_tMode (p : OutPin) (d : Direction) : (s.writeDir p d).tMode = s.tMode := rfl
@[simp] theorem writeDir_tRole (p : OutPin) (d : Direction) : (s.writeDir p d).tRole = s.tRole := rfl
@[simp] theorem writeDir_tBus (p : OutPin) (d : Direction) : (s.writeDir p d).tBus = s.tBus := rfl
@[simp] theorem writeDir_tKnob (p : OutPin) (d : Direction) : (s.writeDir p d).tKnob = s.tKnob := rfl
@[simp] theorem writeDir_tMatch (p : OutPin) (d : Direction) : (s.writeDir p d).tMatch = s.tMatch := rfl
@[simp] theorem writeDir_tByte (p : OutPin) (d : Direction) : (s.writeDir p d).tByte = s.tByte := rfl
@[simp] theorem writeDir_hist (p : OutPin) (d : Direction) : (s.writeDir p d).hist = s.hist ++ [.dirwrite p d] := rfl
@[simp] theorem writeDir_cfg (p : OutPin) (d : Direction) : (s.writeDir p d).cfg = s.cfg := rfl
@[simp] theorem writeDir_script (p : OutPin) (d : Direction) : (s.writeDir p d).script = s.script := rfl
@[simp] theorem writeDir_sched (p : OutPin) (d : Direction) : (s.writeDir p d).sched = s.sched := rfl
@[simp] theorem writeDir_draws (p : OutPin) (d : Direction) : (s.writeDir p d).draws = s.draws := rfl
@[simp] theorem writeDir_round (p : OutPin) (d : Direction) : (s.writeDir p d).round = s.round := rfl

/-! ## uartDeinitialize -/

@[simp] theorem uartDeinitialize_pin : s.uartDeinitialize.pin = s.pin := rfl
@[simp] theorem uartDeinitialize_sync : s.uartDeinitialize.sync = s.sync := rfl
@[simp] theorem uartDeinitialize_dir : s.uartDeinitialize.dir = s.dir := rfl
@[simp] theorem uartDeinitialize_lat : s.uartDeinitialize.lat = s.lat := rfl
@[simp] theorem uartDeinitialize_uartEn : s.uartDeinitialize.uartEn = false := rfl
@[simp] theorem uartDeinitialize_uartIe : s.uartDeinitialize.uartIe = false := rfl
@[simp] theorem uartDeinitialize_tmrEn : s.uartDeinitialize.tmrEn = s.tmrEn := rfl
@[simp] theorem uartDeinitialize_extaEn : s.uartDeinitialize.extaEn = s.extaEn := rfl
@[simp] theorem uartDeinitialize_extbEn : s.uartDeinitialize.extbEn = s.extbEn := rfl
@[simp] theorem uartDeinitialize_gie : s.uartDeinitialize.gie = s.gie := rfl
@[simp] theorem uartDeinitialize_pendExta : s.uartDeinitialize.pendExta = s.pendExta := rfl
@[simp] theorem uartDeinitialize_pendExtb : s.uartDeinitialize.pendExtb = s.pendExtb := rfl
@[simp] theorem uartDeinitialize_pendTick : s.uartDeinitialize.pendTick = s.pendTick := rfl
@[simp] theorem uartDeinitialize_rxfull : s.uartDeinitialize.rxfull = false := rfl
@[simp] theorem uartDeinitialize_txc : s.uartDeinitialize.txc = false := rfl
@[simp] theorem uartDeinitialize_rxdata : s.uartDeinitialize.rxdata = none := rfl
@[simp] theorem uartDeinitialize_txbuf : s.uartDeinitialize.txbuf = none := rfl
@[simp] theorem uartDeinitialize_baud : s.uartDeinitialize.baud = s.baud := rfl
@[simp] theorem uartDeinitialize_txi : s.uartDeinitialize.txi = s.txi := rfl
@[simp] theorem uartDeinitialize_rxi : s.uartDeinitialize.rxi = s.rxi := rfl
@[simp] theorem uartDeinitialize_cls0 : s.uartDeinitialize.cls0 = s.cls0 := rfl
@[simp] theorem uartDeinitialize_cls1 : s.uartDeinitialize.cls1 = s.cls1 := rfl
@[simp] theorem uartDeinitialize_clsLast : s.uartDeinitialize.clsLast = s.clsLast := rfl
@[simp] theorem uartDeinitialize_ctx : s.uartDeinitialize.ctx = s.ctx := rfl
@[simp] theorem uartDeinitialize_booted : s.uartDeinitialize.booted = s.booted := rfl
@[simp] theorem uartDeinitialize_fault : s.uartDeinitialize.fault = s.fault := rfl
@[simp] theorem uartDeinitialize_res : s.uartDeinitialize.res = s.res := rfl
@[simp] theorem uartDeinitialize_inq0 : s.uartDeinitialize.inq0 = s.inq0 := rfl
@[simp] theorem uartDeinitialize_inq1 : s.uartDeinitialize.inq1 = s.inq1 := rfl
@[simp] theorem uartDeinitialize_outq0 : s.uartDeinitialize.outq0 = s.outq0 := rfl
@[simp] theorem uartDeinitialize_outq1 : s.uartDeinitialize.outq1 = s.outq1 := rfl
@[simp] theorem uartDeinitialize_hostconn : s.uartDeinitialize.hostconn = s.hostconn := rfl
@[simp] theorem uartDeinitialize_evq : s.uartDeinitialize.evq = s.evq := rfl
@[simp] theorem uartDeinitialize_utxline : s.uartDeinitialize.utxline = s.utxline := rfl
@[simp] theorem uartDeinitialize_fgpc : s.uartDeinitialize.fgpc = s.fgpc := rfl
@[simp] theorem uartDeinitialize_fgcb : s.uartDeinitialize.fgcb = s.fgcb := rfl
@[simp] theorem uartDeinitialize_hpc : s.uartDeinitialize.hpc = s.hpc := rfl
@[simp] theorem uartDeinitialize_tMode : s.uartDeinitialize.tMode = s.tMode := rfl
@[simp] theorem uartDeinitialize_tRole : s.uartDeinitialize.tRole = s.tRole := rfl
@[simp] theorem uartDeinitialize_tBus : s.uartDeinitialize.tBus = s.tBus := rfl
@[simp] theorem uartDeinitialize_tKnob : s.uartDeinitialize.tKnob = s.tKnob := rfl
@[simp] theorem uartDeinitialize_tMatch : s.uartDeinitialize.tMatch = s.tMatch := rfl
@[simp] theorem uartDeinitialize_tByte : s.uartDeinitialize.tByte = s.tByte := rfl
@[simp] theorem uartDeinitialize_hist : s.uartDeinitialize.hist = s.hist := rfl
@[simp] theorem uartDeinitialize_cfg : s.uartDeinitialize.cfg = s.cfg := rfl
@[simp] theorem uartDeinitialize_script : s.uartDeinitialize.script = s.script := rfl
@[simp] theorem uartDeinitialize_sched : s.uartDeinitialize.sched = s.sched := rfl
@[simp] theorem uartDeinitialize_draws : s.uartDeinitialize.draws = s.draws := rfl
@[simp] theorem uartDeinitialize_round : s.uartDeinitialize.round = s.round := rfl

/-! ## returnFromHandler -/

@[simp] theorem returnFromHandler_pin (v : Source) : (s.returnFromHandler v).pin = s.pin := rfl
@[simp] theorem returnFromHandler_sync (v : Source) : (s.returnFromHandler v).sync = s.sync := rfl
@[simp] theorem returnFromHandler_dir (v : Source) : (s.returnFromHandler v).dir = s.dir := rfl
@[simp] theorem returnFromHandler_lat (v : Source) : (s.returnFromHandler v).lat = s.lat := rfl
@[simp] theorem returnFromHandler_uartEn (v : Source) : (s.returnFromHandler v).uartEn = s.uartEn := rfl
@[simp] theorem returnFromHandler_uartIe (v : Source) : (s.returnFromHandler v).uartIe = s.uartIe := rfl
@[simp] theorem returnFromHandler_tmrEn (v : Source) : (s.returnFromHandler v).tmrEn = s.tmrEn := rfl
@[simp] theorem returnFromHandler_extaEn (v : Source) : (s.returnFromHandler v).extaEn = s.extaEn := rfl
@[simp] theorem returnFromHandler_extbEn (v : Source) : (s.returnFromHandler v).extbEn = s.extbEn := rfl
@[simp] theorem returnFromHandler_gie (v : Source) : (s.returnFromHandler v).gie = s.gie := rfl
@[simp] theorem returnFromHandler_pendExta (v : Source) : (s.returnFromHandler v).pendExta = s.pendExta := rfl
@[simp] theorem returnFromHandler_pendExtb (v : Source) : (s.returnFromHandler v).pendExtb = s.pendExtb := rfl
@[simp] theorem returnFromHandler_pendTick (v : Source) : (s.returnFromHandler v).pendTick = s.pendTick := rfl
@[simp] theorem returnFromHandler_rxfull (v : Source) : (s.returnFromHandler v).rxfull = s.rxfull := rfl
@[simp] theorem returnFromHandler_txc (v : Source) : (s.returnFromHandler v).txc = s.txc := rfl
@[simp] theorem returnFromHandler_rxdata (v : Source) : (s.returnFromHandler v).rxdata = s.rxdata := rfl
@[simp] theorem returnFromHandler_txbuf (v : Source) : (s.returnFromHandler v).txbuf = s.txbuf := rfl
@[simp] theorem returnFromHandler_baud (v : Source) : (s.returnFromHandler v).baud = s.baud := rfl
@[simp] theorem returnFromHandler_txi (v : Source) : (s.returnFromHandler v).txi = s.txi := rfl
@[simp] theorem returnFromHandler_rxi (v : Source) : (s.returnFromHandler v).rxi = s.rxi := rfl
@[simp] theorem returnFromHandler_cls0 (v : Source) : (s.returnFromHandler v).cls0 = s.cls0 := rfl
@[simp] theorem returnFromHandler_cls1 (v : Source) : (s.returnFromHandler v).cls1 = s.cls1 := rfl
@[simp] theorem returnFromHandler_clsLast (v : Source) : (s.returnFromHandler v).clsLast = s.clsLast := rfl
@[simp] theorem returnFromHandler_ctx (v : Source) : (s.returnFromHandler v).ctx = .fg := rfl
@[simp] theorem returnFromHandler_booted (v : Source) : (s.returnFromHandler v).booted = s.booted := rfl
@[simp] theorem returnFromHandler_fault (v : Source) : (s.returnFromHandler v).fault = s.fault := rfl
@[simp] theorem returnFromHandler_res (v : Source) : (s.returnFromHandler v).res = s.res := rfl
@[simp] theorem returnFromHandler_inq0 (v : Source) : (s.returnFromHandler v).inq0 = s.inq0 := rfl
@[simp] theorem returnFromHandler_inq1 (v : Source) : (s.returnFromHandler v).inq1 = s.inq1 := rfl
@[simp] theorem returnFromHandler_outq0 (v : Source) : (s.returnFromHandler v).outq0 = s.outq0 := rfl
@[simp] theorem returnFromHandler_outq1 (v : Source) : (s.returnFromHandler v).outq1 = s.outq1 := rfl
@[simp] theorem returnFromHandler_hostconn (v : Source) : (s.returnFromHandler v).hostconn = s.hostconn := rfl
@[simp] theorem returnFromHandler_evq (v : Source) : (s.returnFromHandler v).evq = s.evq := rfl
@[simp] theorem returnFromHandler_utxline (v : Source) : (s.returnFromHandler v).utxline = s.utxline := rfl
@[simp] theorem returnFromHandler_fgpc (v : Source) : (s.returnFromHandler v).fgpc = s.fgpc := rfl
@[simp] theorem returnFromHandler_fgcb (v : Source) : (s.returnFromHandler v).fgcb = s.fgcb := rfl
@[simp] theorem returnFromHandler_hpc (v : Source) : (s.returnFromHandler v).hpc = none := rfl
@[simp] theorem returnFromHandler_tMode (v : Source) : (s.returnFromHandler v).tMode = s.tMode := rfl
@[simp] theorem returnFromHandler_tRole (v : Source) : (s.returnFromHandler v).tRole = s.tRole := rfl
@[simp] theorem returnFromHandler_tBus (v : Source) : (s.returnFromHandler v).tBus = s.tBus := rfl
@[simp] theorem returnFromHandler_tKnob (v : Source) : (s.returnFromHandler v).tKnob = s.tKnob := rfl
@[simp] theorem returnFromHandler_tMatch (v : Source) : (s.returnFromHandler v).tMatch = s.tMatch := rfl
@[simp] theorem returnFromHandler_tByte (v : Source) : (s.returnFromHandler v).tByte = s.tByte := rfl
@[simp] theorem returnFromHandler_hist (v : Source) : (s.returnFromHandler v).hist = s.hist ++ [.word .mux (encode .reti)] ++ [.reti v] := rfl
@[simp] theorem returnFromHandler_cfg (v : Source) : (s.returnFromHandler v).cfg = s.cfg := rfl
@[simp] theorem returnFromHandler_script (v : Source) : (s.returnFromHandler v).script = s.script := rfl
@[simp] theorem returnFromHandler_sched (v : Source) : (s.returnFromHandler v).sched = s.sched := rfl
@[simp] theorem returnFromHandler_draws (v : Source) : (s.returnFromHandler v).draws = s.draws := rfl
@[simp] theorem returnFromHandler_round (v : Source) : (s.returnFromHandler v).round = s.round := rfl

/-! ## schedule -/

@[simp] theorem schedule_pin (a : Action) : (s.schedule a).pin = s.pin := rfl
@[simp] theorem schedule_sync (a : Action) : (s.schedule a).sync = s.sync := rfl
@[simp] theorem schedule_dir (a : Action) : (s.schedule a).dir = s.dir := rfl
@[simp] theorem schedule_lat (a : Action) : (s.schedule a).lat = s.lat := rfl
@[simp] theorem schedule_uartEn (a : Action) : (s.schedule a).uartEn = s.uartEn := rfl
@[simp] theorem schedule_uartIe (a : Action) : (s.schedule a).uartIe = s.uartIe := rfl
@[simp] theorem schedule_tmrEn (a : Action) : (s.schedule a).tmrEn = s.tmrEn := rfl
@[simp] theorem schedule_extaEn (a : Action) : (s.schedule a).extaEn = s.extaEn := rfl
@[simp] theorem schedule_extbEn (a : Action) : (s.schedule a).extbEn = s.extbEn := rfl
@[simp] theorem schedule_gie (a : Action) : (s.schedule a).gie = s.gie := rfl
@[simp] theorem schedule_pendExta (a : Action) : (s.schedule a).pendExta = s.pendExta := rfl
@[simp] theorem schedule_pendExtb (a : Action) : (s.schedule a).pendExtb = s.pendExtb := rfl
@[simp] theorem schedule_pendTick (a : Action) : (s.schedule a).pendTick = s.pendTick := rfl
@[simp] theorem schedule_rxfull (a : Action) : (s.schedule a).rxfull = s.rxfull := rfl
@[simp] theorem schedule_txc (a : Action) : (s.schedule a).txc = s.txc := rfl
@[simp] theorem schedule_rxdata (a : Action) : (s.schedule a).rxdata = s.rxdata := rfl
@[simp] theorem schedule_txbuf (a : Action) : (s.schedule a).txbuf = s.txbuf := rfl
@[simp] theorem schedule_baud (a : Action) : (s.schedule a).baud = s.baud := rfl
@[simp] theorem schedule_txi (a : Action) : (s.schedule a).txi = s.txi := rfl
@[simp] theorem schedule_rxi (a : Action) : (s.schedule a).rxi = s.rxi := rfl
@[simp] theorem schedule_cls0 (a : Action) : (s.schedule a).cls0 = s.cls0 := rfl
@[simp] theorem schedule_cls1 (a : Action) : (s.schedule a).cls1 = s.cls1 := rfl
@[simp] theorem schedule_clsLast (a : Action) : (s.schedule a).clsLast = s.clsLast := rfl
@[simp] theorem schedule_ctx (a : Action) : (s.schedule a).ctx = s.ctx := rfl
@[simp] theorem schedule_booted (a : Action) : (s.schedule a).booted = s.booted := rfl
@[simp] theorem schedule_fault (a : Action) : (s.schedule a).fault = s.fault := rfl
@[simp] theorem schedule_res (a : Action) : (s.schedule a).res = s.res := rfl
@[simp] theorem schedule_inq0 (a : Action) : (s.schedule a).inq0 = s.inq0 := rfl
@[simp] theorem schedule_inq1 (a : Action) : (s.schedule a).inq1 = s.inq1 := rfl
@[simp] theorem schedule_outq0 (a : Action) : (s.schedule a).outq0 = s.outq0 := rfl
@[simp] theorem schedule_outq1 (a : Action) : (s.schedule a).outq1 = s.outq1 := rfl
@[simp] theorem schedule_hostconn (a : Action) : (s.schedule a).hostconn = s.hostconn := rfl
@[simp] theorem schedule_evq (a : Action) : (s.schedule a).evq = s.evq := rfl
@[simp] theorem schedule_utxline (a : Action) : (s.schedule a).utxline = s.utxline := rfl
@[simp] theorem schedule_fgpc (a : Action) : (s.schedule a).fgpc = s.fgpc := rfl
@[simp] theorem schedule_fgcb (a : Action) : (s.schedule a).fgcb = s.fgcb := rfl
@[simp] theorem schedule_hpc (a : Action) : (s.schedule a).hpc = s.hpc := rfl
@[simp] theorem schedule_tMode (a : Action) : (s.schedule a).tMode = s.tMode := rfl
@[simp] theorem schedule_tRole (a : Action) : (s.schedule a).tRole = s.tRole := rfl
@[simp] theorem schedule_tBus (a : Action) : (s.schedule a).tBus = s.tBus := rfl
@[simp] theorem schedule_tKnob (a : Action) : (s.schedule a).tKnob = s.tKnob := rfl
@[simp] theorem schedule_tMatch (a : Action) : (s.schedule a).tMatch = s.tMatch := rfl
@[simp] theorem schedule_tByte (a : Action) : (s.schedule a).tByte = s.tByte := rfl
@[simp] theorem schedule_hist (a : Action) : (s.schedule a).hist = s.hist := rfl
@[simp] theorem schedule_cfg (a : Action) : (s.schedule a).cfg = s.cfg := rfl
@[simp] theorem schedule_script (a : Action) : (s.schedule a).script = s.script := rfl
@[simp] theorem schedule_sched (a : Action) : (s.schedule a).sched = a :: s.sched := rfl
@[simp] theorem schedule_draws (a : Action) : (s.schedule a).draws = s.draws := rfl
@[simp] theorem schedule_round (a : Action) : (s.schedule a).round = s.round := rfl

/-! ## updateRunMode -/

@[simp] theorem updateRunMode_pin (m : RunMode) : (s.updateRunMode m).pin = s.pin := rfl
@[simp] theorem updateRunMode_sync (m : RunMode) : (s.updateRunMode m).sync = s.sync := rfl
@[simp] theorem updateRunMode_dir (m : RunMode) : (s.updateRunMode m).dir = s.dir := rfl
@[simp] theorem updateRunMode_lat (m : RunMode) : (s.updateRunMode m).lat = s.lat.set .prout (some m.bit) := rfl
@[simp] theorem updateRunMode_uartEn (m : RunMode) : (s.updateRunMode m).uartEn = s.uartEn := rfl
@[simp] theorem updateRunMode_uartIe (m : RunMode) : (s.updateRunMode m).uartIe = s.uartIe := rfl
@[simp] theorem updateRunMode_tmrEn (m : RunMode) : (s.updateRunMode m).tmrEn = s.tmrEn := rfl
@[simp] theorem updateRunMode_extaEn (m : RunMode) : (s.updateRunMode m).extaEn = s.extaEn := rfl
@[simp] theorem updateRunMode_extbEn (m : RunMode) : (s.updateRunMode m).extbEn = s.extbEn := rfl
@[simp] theorem updateRunMode_gie (m : RunMode) : (s.updateRunMode m).gie = s.gie := rfl
@[simp] theorem updateRunMode_pendExta (m : RunMode) : (s.updateRunMode m).pendExta = s.pendExta := rfl
@[simp] theorem updateRunMode_pendExtb (m : RunMode) : (s.updateRunMode m).pendExtb = s.pendExtb := rfl
@[simp] theorem updateRunMode_pendTick (m : RunMode) : (s.updateRunMode m).pendTick = s.pendTick := rfl
@[simp] theorem updateRunMode_rxfull (m : RunMode) : (s.updateRunMode m).rxfull = s.rxfull := rfl
@[simp] theorem updateRunMode_txc (m : RunMode) : (s.updateRunMode m).txc = s.txc := rfl
@[simp] theorem updateRunMode_rxdata (m : RunMode) : (s.updateRunMode m).rxdata = s.rxdata := rfl
@[simp] theorem updateRunMode_txbuf (m : RunMode) : (s.updateRunMode m).txbuf = s.txbuf := rfl
@[simp] theorem updateRunMode_baud (m : RunMode) : (s.updateRunMode m).baud = s.baud := rfl
@[simp] theorem updateRunMode_txi (m : RunMode) : (s.updateRunMode m).txi = s.txi := rfl
@[simp] theorem updateRunMode_rxi (m : RunMode) : (s.updateRunMode m).rxi = s.rxi := rfl
@[simp] theorem updateRunMode_cls0 (m : RunMode) : (s.updateRunMode m).cls0 = s.cls0 := rfl
@[simp] theorem updateRunMode_cls1 (m : RunMode) : (s.updateRunMode m).cls1 = s.cls1 := rfl
@[simp] theorem updateRunMode_clsLast (m : RunMode) : (s.updateRunMode m).clsLast = s.clsLast := rfl
@[simp] theorem updateRunMode_ctx (m : RunMode) : (s.updateRunMode m).ctx = s.ctx := rfl
@[simp] theorem updateRunMode_booted (m : RunMode) : (s.updateRunMode m).booted = s.booted := rfl
@[simp] theorem updateRunMode_fault (m : RunMode) : (s.updateRunMode m).fault = s.fault := rfl
@[simp] theorem updateRunMode_res (m : RunMode) : (s.updateRunMode m).res = s.res := rfl
@[simp] theorem updateRunMode_inq0 (m : RunMode) : (s.updateRunMode m).inq0 = s.inq0 := rfl
@[simp] theorem updateRunMode_inq1 (m : RunMode) : (s.updateRunMode m).inq1 = s.inq1 := rfl
@[simp] theorem updateRunMode_outq0 (m : RunMode) : (s.updateRunMode m).outq0 = s.outq0 := rfl
@[simp] theorem updateRunMode_outq1 (m : RunMode) : (s.updateRunMode m).outq1 = s.outq1 := rfl
@[simp] theorem updateRunMode_hostconn (m : RunMode) : (s.updateRunMode m).hostconn = s.hostconn := rfl
@[simp] theorem updateRunMode_evq (m : RunMode) : (s.updateRunMode m).evq = s.evq := rfl
@[simp] theorem updateRunMode_utxline (m : RunMode) : (s.updateRunMode m).utxline = s.utxline := rfl
@[simp] theorem updateRunMode_fgpc (m : RunMode) : (s.updateRunMode m).fgpc = s.fgpc := rfl
@[simp] theorem updateRunMode_fgcb (m : RunMode) : (s.updateRunMode m).fgcb = s.fgcb := rfl
@[simp] theorem updateRunMode_hpc (m : RunMode) : (s.updateRunMode m).hpc = s.hpc := rfl
@[simp] theorem updateRunMode_tMode (m : RunMode) : (s.updateRunMode m).tMode = s.tMode := rfl
@[simp] theorem updateRunMode_tRole (m : RunMode) : (s.updateRunMode m).tRole = s.tRole := rfl
@[simp] theorem updateRunMode_tBus (m : RunMode) : (s.updateRunMode m).tBus = s.tBus := rfl
@[simp] theorem updateRunMode_tKnob (m : RunMode) : (s.updateRunMode m).tKnob = s.tKnob := rfl
@[simp] theorem updateRunMode_tMatch (m : RunMode) : (s.updateRunMode m).tMatch = s.tMatch := rfl
@[simp] theorem updateRunMode_tByte (m : RunMode) : (s.updateRunMode m).tByte = s.tByte := rfl
@[simp] theorem updateRunMode_hist (m : RunMode) : (s.updateRunMode m).hist = s.hist ++ [.pinwrite .prout m.bit] := rfl
@[simp] theorem updateRunMode_cfg (m : RunMode) : (s.updateRunMode m).cfg = s.cfg := rfl
@[simp] theorem updateRunMode_script (m : RunMode) : (s.updateRunMode m).script = s.script := rfl
@[simp] theorem updateRunMode_sched (m : RunMode) : (s.updateRunMode m).sched = s.sched := rfl
@[simp] theorem updateRunMode_draws (m : RunMode) : (s.updateRunMode m).draws = s.draws := rfl
@[simp] theorem updateRunMode_round (m : RunMode) : (s.updateRunMode m).round = s.round := rfl

/-! ## setCls -/

@[simp] theorem setCls_pin (c : Chan) (m : Half) : (s.setCls c m).pin = s.pin := by cases c <;> rfl
@[simp] theorem setCls_sync (c : Chan) (m : Half) : (s.setCls c m).sync = s.sync := by cases c <;> rfl
@[simp] theorem setCls_dir (c : Chan) (m : Half) : (s.setCls c m).dir = s.dir := by cases c <;> rfl
@[simp] theorem setCls_lat (c : Chan) (m : Half) : (s.setCls c m).lat = s.lat := by cases c <;> rfl
@[simp] theorem setCls_uartEn (c : Chan) (m : Half) : (s.setCls c m).uartEn = s.uartEn := by cases c <;> rfl
@[simp] theorem setCls_uartIe (c : Chan) (m : Half) : (s.setCls c m).uartIe = s.uartIe := by cases c <;> rfl
@[simp] theorem setCls_tmrEn (c : Chan) (m : Half) : (s.setCls c m).tmrEn = s.tmrEn := by cases c <;> rfl
@[simp] theorem setCls_extaEn (c : Chan) (m : Half) : (s.setCls c m).extaEn = s.extaEn := by cases c <;> rfl
@[simp] theorem setCls_extbEn (c : Chan) (m : Half) : (s.setCls c m).extbEn = s.extbEn := by cases c <;> rfl
@[simp] theorem setCls_gie (c : Chan) (m : Half) : (s.setCls c m).gie = s.gie := by cases c <;> rfl
@[simp] theorem setCls_pendExta (c : Chan) (m : Half) : (s.setCls c m).pendExta = s.pendExta := by cases c <;> rfl
@[simp] theorem setCls_pendExtb (c : Chan) (m : Half) : (s.setCls c m).pendExtb = s.pendExtb := by cases c <;> rfl
@[simp] theorem setCls_pendTick (c : Chan) (m : Half) : (s.setCls c m).pendTick = s.pendTick := by cases c <;> rfl
@[simp] theorem setCls_rxfull (c : Chan) (m : Half) : (s.setCls c m).rxfull = s.rxfull := by cases c <;> rfl
@[simp] theorem setCls_txc (c : Chan) (m : Half) : (s.setCls c m).txc = s.txc := by cases c <;> rfl
@[simp] theorem setCls_rxdata (c : Chan) (m : Half) : (s.setCls c m).rxdata = s.rxdata := by cases c <;> rfl
@[simp] theorem setCls_txbuf (c : Chan) (m : Half) : (s.setCls c m).txbuf = s.txbuf := by cases c <;> rfl
@[simp] theorem setCls_baud (c : Chan) (m : Half) : (s.setCls c m).baud = s.baud := by cases c <;> rfl
@[simp] theorem setCls_txi (c : Chan) (m : Half) : (s.setCls c m).txi = s.txi := by cases c <;> rfl
@[simp] theorem setCls_rxi (c : Chan) (m : Half) : (s.setCls c m).rxi = s.rxi := by cases c <;> rfl
@[simp] theorem setCls_clsLast (c : Chan) (m : Half) : (s.setCls c m).clsLast = s.clsLast := by cases c <;> rfl
@[simp] theorem setCls_ctx (c : Chan) (m : Half) : (s.setCls c m).ctx = s.ctx := by cases c <;> rfl
@[simp] theorem setCls_booted (c : Chan) (m : Half) : (s.setCls c m).booted = s.booted := by cases c <;> rfl
@[simp] theorem setCls_fault (c : Chan) (m : Half) : (s.setCls c m).fault = s.fault := by cases c <;> rfl
@[simp] theorem setCls_res (c : Chan) (m : Half) : (s.setCls c m).res = s.res := by cases c <;> rfl
@[simp] theorem setCls_inq0 (c : Chan) (m : Half) : (s.setCls c m).inq0 = s.inq0 := by cases c <;> rfl
@[simp] theorem setCls_inq1 (c : Chan) (m : Half) : (s.setCls c m).inq1 = s.inq1 := by cases c <;> rfl
@[simp] theorem setCls_outq0 (c : Chan) (m : Half) : (s.setCls c m).outq0 = s.outq0 := by cases c <;> rfl
@[simp] theorem setCls_outq1 (c : Chan) (m : Half) : (s.setCls c m).outq1 = s.outq1 := by cases c <;> rfl
@[simp] theorem setCls_hostconn (c : Chan) (m : Half) : (s.setCls c m).hostconn = s.hostconn := by cases c <;> rfl
@[simp] theorem setCls_evq (c : Chan) (m : Half) : (s.setCls c m).evq = s.evq := by cases c <;> rfl
@[simp] theorem setCls_utxline (c : Chan) (m : Half) : (s.setCls c m).utxline = s.utxline := by cases c <;> rfl
@[simp] theorem setCls_fgpc (c : Chan) (m : Half) : (s.setCls c m).fgpc = s.fgpc := by cases c <;> rfl
@[simp] theorem setCls_fgcb (c : Chan) (m : Half) : (s.setCls c m).fgcb = s.fgcb := by cases c <;> rfl
@[simp] theorem setCls_hpc (c : Chan) (m : Half) : (s.setCls c m).hpc = s.hpc := by cases c <;> rfl
@[simp] theorem setCls_tMode (c : Chan) (m : Half) : (s.setCls c m).tMode = s.tMode := by cases c <;> rfl
@[simp] theorem setCls_tRole (c : Chan) (m : Half) : (s.setCls c m).tRole = s.tRole := by cases c <;> rfl
@[simp] theorem setCls_tBus (c : Chan) (m : Half) : (s.setCls c m).tBus = s.tBus := by cases c <;> rfl
@[simp] theorem setCls_tKnob (c : Chan) (m : Half) : (s.setCls c m).tKnob = s.tKnob := by cases c <;> rfl
@[simp] theorem setCls_tMatch (c : Chan) (m : Half) : (s.setCls c m).tMatch = s.tMatch := by cases c <;> rfl
@[simp] theorem setCls_tByte (c : Chan) (m : Half) : (s.setCls c m).tByte = s.tByte := by cases c <;> rfl
@[simp] theorem setCls_hist (c : Chan) (m : Half) : (s.setCls c m).hist = s.hist := by cases c <;> rfl
@[simp] theorem setCls_cfg (c : Chan) (m : Half) : (s.setCls c m).cfg = s.cfg := by cases c <;> rfl
@[simp] theorem setCls_script (c : Chan) (m : Half) : (s.setCls c m).script = s.script := by cases c <;> rfl
@[simp] theorem setCls_sched (c : Chan) (m : Half) : (s.setCls c m).sched = s.sched := by cases c <;> rfl
@[simp] theorem setCls_draws (c : Chan) (m : Half) : (s.setCls c m).draws = s.draws := by cases c <;> rfl
@[simp] theorem setCls_round (c : Chan) (m : Half) : (s.setCls c m).round = s.round := by cases c <;> rfl

/-! ## setInq -/

@[simp] theorem setInq_pin (c : Chan) (q : List Byte) : (s.setInq c q).pin = s.pin := by cases c <;> rfl
@[simp] theorem setInq_sync (c : Chan) (q : List Byte) : (s.setInq c q).sync = s.sync := by cases c <;> rfl
@[simp] theorem setInq_dir (c : Chan) (q : List Byte) : (s.setInq c q).dir = s.dir := by cases c <;> rfl
@[simp] theorem setInq_lat (c : Chan) (q : List Byte) : (s.setInq c q).lat = s.lat := by cases c <;> rfl
@[simp] theorem setInq_uartEn (c : Chan) (q : List Byte) : (s.setInq c q).uartEn = s.uartEn := by cases c <;> rfl
@[simp] theorem setInq_uartIe (c : Chan) (q : List Byte) : (s.setInq c q).uartIe = s.uartIe := by cases c <;> rfl
@[simp] theorem setInq_tmrEn (c : Chan) (q : List Byte) : (s.setInq c q).tmrEn = s.tmrEn := by cases c <;> rfl
@[simp] theorem setInq_extaEn (c : Chan) (q : List Byte) : (s.setInq c q).extaEn = s.extaEn := by cases c <;> rfl
@[simp] theorem setInq_extbEn (c : Chan) (q : List Byte) : (s.setInq c q).extbEn = s.extbEn := by cases c <;> rfl
@[simp] theorem setInq_gie (c : Chan) (q : List Byte) : (s.setInq c q).gie = s.gie := by cases c <;> rfl
@[simp] theorem setInq_pendExta (c : Chan) (q : List Byte) : (s.setInq c q).pendExta = s.pendExta := by cases c <;> rfl
@[simp] theorem setInq_pendExtb (c : Chan) (q : List Byte) : (s.setInq c q).pendExtb = s.pendExtb := by cases c <;> rfl
@[simp] theorem setInq_pendTick (c : Chan) (q : List Byte) : (s.setInq c q).pendTick = s.pendTick := by cases c <;> rfl
@[simp] theorem setInq_rxfull (c : Chan) (q : List Byte) : (s.setInq c q).rxfull = s.rxfull := by cases c <;> rfl
@[simp] theorem setInq_txc (c : Chan) (q : List Byte) : (s.setInq c q).txc = s.txc := by cases c <;> rfl
@[simp] theorem setInq_rxdata (c : Chan) (q : List Byte) : (s.setInq c q).rxdata = s.rxdata := by cases c <;> rfl
@[simp] theorem setInq_txbuf (c : Chan) (q : List Byte) : (s.setInq c q).txbuf = s.txbuf := by cases c <;> rfl
@[simp] theorem setInq_baud (c : Chan) (q : List Byte) : (s.setInq c q).baud = s.baud := by cases c <;> rfl
@[simp] theorem setInq_txi (c : Chan) (q : List Byte) : (s.setInq c q).txi = s.txi := by cases c <;> rfl
@[simp] theorem setInq_rxi (c : Chan) (q : List Byte) : (s.setInq c q).rxi = s.rxi := by cases c <;> rfl
@[simp] theorem setInq_cls0 (c : Chan) (q : List Byte) : (s.setInq c q).cls0 = s.cls0 := by cases c <;> rfl
@[simp] theorem setInq_cls1 (c : Chan) (q : List Byte) : (s.setInq c q).cls1 = s.cls1 := by cases c <;> rfl
@[simp] theorem setInq_clsLast (c : Chan) (q : List Byte) : (s.setInq c q).clsLast = s.clsLast := by cases c <;> rfl
@[simp] theorem setInq_ctx (c : Chan) (q : List Byte) : (s.setInq c q).ctx = s.ctx := by cases c <;> rfl
@[simp] theorem setInq_booted (c : Chan) (q : List Byte) : (s.setInq c q).booted = s.booted := by cases c <;> rfl
@[simp] theorem setInq_fault (c : Chan) (q : List Byte) : (s.setInq c q).fault = s.fault := by cases c <;> rfl
@[simp] theorem setInq_res (c : Chan) (q : List Byte) : (s.setInq c q).res = s.res := by cases c <;> rfl
@[simp] theorem setInq_outq0 (c : Chan) (q : List Byte) : (s.setInq c q).outq0 = s.outq0 := by cases c <;> rfl
@[simp] theorem setInq_outq1 (c : Chan) (q : List Byte) : (s.setInq c q).outq1 = s.outq1 := by cases c <;> rfl
@[simp] theorem setInq_hostconn (c : Chan) (q : List Byte) : (s.setInq c q).hostconn = s.hostconn := by cases c <;> rfl
@[simp] theorem setInq_evq (c : Chan) (q : List Byte) : (s.setInq c q).evq = s.evq := by cases c <;> rfl
@[simp] theorem setInq_utxline (c : Chan) (q : List Byte) : (s.setInq c q).utxline = s.utxline := by cases c <;> rfl
@[simp] theorem setInq_fgpc (c : Chan) (q : List Byte) : (s.setInq c q).fgpc = s.fgpc := by cases c <;> rfl
@[simp] theorem setInq_fgcb (c : Chan) (q : List Byte) : (s.setInq c q).fgcb = s.fgcb := by cases c <;> rfl
@[simp] theorem setInq_hpc (c : Chan) (q : List Byte) : (s.setInq c q).hpc = s.hpc := by cases c <;> rfl
@[simp] theorem setInq_tMode (c : Chan) (q : List Byte) : (s.setInq c q).tMode = s.tMode := by cases c <;> rfl
@[simp] theorem setInq_tRole (c : Chan) (q : List Byte) : (s.setInq c q).tRole = s.tRole := by cases c <;> rfl
@[simp] theorem setInq_tBus (c : Chan) (q : List Byte) : (s.setInq c q).tBus = s.tBus := by cases c <;> rfl
@[simp] theorem setInq_tKnob (c : Chan) (q : List Byte) : (s.setInq c q).tKnob = s.tKnob := by cases c <;> rfl
@[simp] theorem setInq_tMatch (c : Chan) (q : List Byte) : (s.setInq c q).tMatch = s.tMatch := by cases c <;> rfl
@[simp] theorem setInq_tByte (c : Chan) (q : List Byte) : (s.setInq c q).tByte = s.tByte := by cases c <;> rfl
@[simp] theorem setInq_hist (c : Chan) (q : List Byte) : (s.setInq c q).hist = s.hist := by cases c <;> rfl
@[simp] theorem setInq_cfg (c : Chan) (q : List Byte) : (s.setInq c q).cfg = s.cfg := by cases c <;> rfl
@[simp] theorem setInq_script (c : Chan) (q : List Byte) : (s.setInq c q).script = s.script := by cases c <;> rfl
@[simp] theorem setInq_sched (c : Chan) (q : List Byte) : (s.setInq c q).sched = s.sched := by cases c <;> rfl
@[simp] theorem setInq_draws (c : Chan) (q : List Byte) : (s.setInq c q).draws = s.draws := by cases c <;> rfl
@[simp] theorem setInq_round (c : Chan) (q : List Byte) : (s.setInq c q).round = s.round := by cases c <;> rfl

/-! ## setOutq -/

@[simp] theorem setOutq_pin (c : Chan) (q : List Byte) : (s.setOutq c q).pin = s.pin := by cases c <;> rfl
@[simp] theorem setOutq_sync (c : Chan) (q : List Byte) : (s.setOutq c q).sync = s.sync := by cases c <;> rfl
@[simp] theorem setOutq_dir (c : Chan) (q : List Byte) : (s.setOutq c q).dir = s.dir := by cases c <;> rfl
@[simp] theorem setOutq_lat (c : Chan) (q : List Byte) : (s.setOutq c q).lat = s.lat := by cases c <;> rfl
@[simp] theorem setOutq_uartEn (c : Chan) (q : List Byte) : (s.setOutq c q).uartEn = s.uartEn := by cases c <;> rfl
@[simp] theorem setOutq_uartIe (c : Chan) (q : List Byte) : (s.setOutq c q).uartIe = s.uartIe := by cases c <;> rfl
@[simp] theorem setOutq_tmrEn (c : Chan) (q : List Byte) : (s.setOutq c q).tmrEn = s.tmrEn := by cases c <;> rfl
@[simp] theorem setOutq_extaEn (c : Chan) (q : List Byte) : (s.setOutq c q).extaEn = s.extaEn := by cases c <;> rfl
@[simp] theorem setOutq_extbEn (c : Chan) (q : List Byte) : (s.setOutq c q).extbEn = s.extbEn := by cases c <;> rfl
@[simp] theorem setOutq_gie (c : Chan) (q : List Byte) : (s.setOutq c q).gie = s.gie := by cases c <;> rfl
@[simp] theorem setOutq_pendExta (c : Chan) (q : List Byte) : (s.setOutq c q).pendExta = s.pendExta := by cases c <;> rfl
@[simp] theorem setOutq_pendExtb (c : Chan) (q : List Byte) : (s.setOutq c q).pendExtb = s.pendExtb := by cases c <;> rfl
@[simp] theorem setOutq_pendTick (c : Chan) (q : List Byte) : (s.setOutq c q).pendTick = s.pendTick := by cases c <;> rfl
@[simp] theorem setOutq_rxfull (c : Chan) (q : List Byte) : (s.setOutq c q).rxfull = s.rxfull := by cases c <;> rfl
@[simp] theorem setOutq_txc (c : Chan) (q : List Byte) : (s.setOutq c q).txc = s.txc := by cases c <;> rfl
@[simp] theorem setOutq_rxdata (c : Chan) (q : List Byte) : (s.setOutq c q).rxdata = s.rxdata := by cases c <;> rfl
@[simp] theorem setOutq_txbuf (c : Chan) (q : List Byte) : (s.setOutq c q).txbuf = s.txbuf := by cases c <;> rfl
@[simp] theorem setOutq_baud (c : Chan) (q : List Byte) : (s.setOutq c q).baud = s.baud := by cases c <;> rfl
@[simp] theorem setOutq_txi (c : Chan) (q : List Byte) : (s.setOutq c q).txi = s.txi := by cases c <;> rfl
@[simp] theorem setOutq_rxi (c : Chan) (q : List Byte) : (s.setOutq c q).rxi = s.rxi := by cases c <;> rfl
@[simp] theorem setOutq_cls0 (c : Chan) (q : List Byte) : (s.setOutq c q).cls0 = s.cls0 := by cases c <;> rfl
@[simp] theorem setOutq_cls1 (c : Chan) (q : List Byte) : (s.setOutq c q).cls1 = s.cls1 := by cases c <;> rfl
@[simp] theorem setOutq_clsLast (c : Chan) (q : List Byte) : (s.setOutq c q).clsLast = s.clsLast := by cases c <;> rfl
@[simp] theorem setOutq_ctx (c : Chan) (q : List Byte) : (s.setOutq c q).ctx = s.ctx := by cases c <;> rfl
@[simp] theorem setOutq_booted (c : Chan) (q : List Byte) : (s.setOutq c q).booted = s.booted := by cases c <;> rfl
@[simp] theorem setOutq_fault (c : Chan) (q : List Byte) : (s.setOutq c q).fault = s.fault := by cases c <;> rfl
@[simp] theorem setOutq_res (c : Chan) (q : List Byte) : (s.setOutq c q).res = s.res := by cases c <;> rfl
@[simp] theorem setOutq_inq0 (c : Chan) (q : List Byte) : (s.setOutq c q).inq0 = s.inq0 := by cases c <;> rfl
@[simp] theorem setOutq_inq1 (c : Chan) (q : List Byte) : (s.setOutq c q).inq1 = s.inq1 := by cases c <;> rfl
@[simp] theorem setOutq_hostconn (c : Chan) (q : List Byte) : (s.setOutq c q).hostconn = s.hostconn := by cases c <;> rfl
@[simp] theorem setOutq_evq (c : Chan) (q : List Byte) : (s.setOutq c q).evq = s.evq := by cases c <;> rfl
@[simp] theorem setOutq_utxline (c : Chan) (q : List Byte) : (s.setOutq c q).utxline = s.utxline := by cases c <;> rfl
@[simp] theorem setOutq_fgpc (c : Chan) (q : List Byte) : (s.setOutq c q).fgpc = s.fgpc := by cases c <;> rfl
@[simp] theorem setOutq_fgcb (c : Chan) (q : List Byte) : (s.setOutq c q).fgcb = s.fgcb := by cases c <;> rfl
@[simp] theorem setOutq_hpc (c : Chan) (q : List Byte) : (s.setOutq c q).hpc = s.hpc := by cases c <;> rfl
@[simp] theorem setOutq_tMode (c : Chan) (q : List Byte) : (s.setOutq c q).tMode = s.tMode := by cases c <;> rfl
@[simp] theorem setOutq_tRole (c : Chan) (q : List Byte) : (s.setOutq c q).tRole = s.tRole := by cases c <;> rfl
@[simp] theorem setOutq_tBus (c : Chan) (q : List Byte) : (s.setOutq c q).tBus = s.tBus := by cases c <;> rfl
@[simp] theorem setOutq_tKnob (c : Chan) (q : List Byte) : (s.setOutq c q).tKnob = s.tKnob := by cases c <;> rfl
@[simp] theorem setOutq_tMatch (c : Chan) (q : List Byte) : (s.setOutq c q).tMatch = s.tMatch := by cases c <;> rfl
@[simp] theorem setOutq_tByte (c : Chan) (q : List Byte) : (s.setOutq c q).tByte = s.tByte := by cases c <;> rfl
@[simp] theorem setOutq_hist (c : Chan) (q : List Byte) : (s.setOutq c q).hist = s.hist := by cases c <;> rfl
@[simp] theorem setOutq_cfg (c : Chan) (q : List Byte) : (s.setOutq c q).cfg = s.cfg := by cases c <;> rfl
@[simp] theorem setOutq_script (c : Chan) (q : List Byte) : (s.setOutq c q).script = s.script := by cases c <;> rfl
@[simp] theorem setOutq_sched (c : Chan) (q : List Byte) : (s.setOutq c q).sched = s.sched := by cases c <;> rfl
@[simp] theorem setOutq_draws (c : Chan) (q : List Byte) : (s.setOutq c q).draws = s.draws := by cases c <;> rfl
@[simp] theorem setOutq_round (c : Chan) (q : List Byte) : (s.setOutq c q).round = s.round := by cases c <;> rfl

@[simp] theorem setCls_cls_same (c : Chan) (m : Half) : (s.setCls c m).cls c = m := by cases c <;> rfl
@[simp] theorem setInq_inq_same (c : Chan) (q : List Byte) : (s.setInq c q).inq c = q := by cases c <;> rfl
@[simp] theorem setOutq_outq_same (c : Chan) (q : List Byte) : (s.setOutq c q).outq c = q := by cases c <;> rfl

theorem setCls_cls_other {c d : Chan} (h : d ≠ c) (m : Half) : (s.setCls c m).cls d = s.cls d := by
  cases c <;> cases d <;> first | rfl | exact absurd rfl h
theorem setInq_inq_other {c d : Chan} (h : d ≠ c) (q : List Byte) : (s.setInq c q).inq d = s.inq d := by
  cases c <;> cases d <;> first | rfl | exact absurd rfl h
theorem setOutq_outq_other {c d : Chan} (h : d ≠ c) (q : List Byte) : (s.setOutq c q).outq d = s.outq d := by
  cases c <;> cases d <;> first | rfl | exact absurd rfl h

/-! ## raise -/

@[simp] theorem raise_pin (c : FaultCode) : (s.raise c).pin = s.pin := by unfold State.raise; split <;> rfl
@[simp] theorem raise_sync (c : FaultCode) : (s.raise c).sync = s.sync := by unfold State.raise; split <;> rfl
@[simp] theorem raise_dir (c : FaultCode) : (s.raise c).dir = s.dir := by unfold State.raise; split <;> rfl
@[simp] theorem raise_lat (c : FaultCode) : (s.raise c).lat = s.lat := by unfold State.raise; split <;> rfl
@[simp] theorem raise_uartEn (c : FaultCode) : (s.raise c).uartEn = s.uartEn := by unfold State.raise; split <;> rfl
@[simp] theorem raise_uartIe (c : FaultCode) : (s.raise c).uartIe = s.uartIe := by unfold State.raise; split <;> rfl
@[simp] theorem raise_tmrEn (c : FaultCode) : (s.raise c).tmrEn = s.tmrEn := by unfold State.raise; split <;> rfl
@[simp] theorem raise_extaEn (c : FaultCode) : (s.raise c).extaEn = s.extaEn := by unfold State.raise; split <;> rfl
@[simp] theorem raise_extbEn (c : FaultCode) : (s.raise c).extbEn = s.extbEn := by unfold State.raise; split <;> rfl
@[simp] theorem raise_gie (c : FaultCode) : (s.raise c).gie = s.gie := by unfold State.raise; split <;> rfl
@[simp] theorem raise_pendExta (c : FaultCode) : (s.raise c).pendExta = s.pendExta := by unfold State.raise; split <;> rfl
@[simp] theorem raise_pendExtb (c : FaultCode) : (s.raise c).pendExtb = s.pendExtb := by unfold State.raise; split <;> rfl
@[simp] theorem raise_pendTick (c : FaultCode) : (s.raise c).pendTick = s.pendTick := by unfold State.raise; split <;> rfl
@[simp] theorem raise_rxfull (c : FaultCode) : (s.raise c).rxfull = s.rxfull := by unfold State.raise; split <;> rfl
@[simp] theorem raise_txc (c : FaultCode) : (s.raise c).txc = s.txc := by unfold State.raise; split <;> rfl
@[simp] theorem raise_rxdata (c : FaultCode) : (s.raise c).rxdata = s.rxdata := by unfold State.raise; split <;> rfl
@[simp] theorem raise_txbuf (c : FaultCode) : (s.raise c).txbuf = s.txbuf := by unfold State.raise; split <;> rfl
@[simp] theorem raise_baud (c : FaultCode) : (s.raise c).baud = s.baud := by unfold State.raise; split <;> rfl
@[simp] theorem raise_txi (c : FaultCode) : (s.raise c).txi = s.txi := by unfold State.raise; split <;> rfl
@[simp] theorem raise_rxi (c : FaultCode) : (s.raise c).rxi = s.rxi := by unfold State.raise; split <;> rfl
@[simp] theorem raise_cls0 (c : FaultCode) : (s.raise c).cls0 = s.cls0 := by unfold State.raise; split <;> rfl
@[simp] theorem raise_cls1 (c : FaultCode) : (s.raise c).cls1 = s.cls1 := by unfold State.raise; split <;> rfl
@[simp] theorem raise_clsLast (c : FaultCode) : (s.raise c).clsLast = s.clsLast := by unfold State.raise; split <;> rfl
@[simp] theorem raise_ctx (c : FaultCode) : (s.raise c).ctx = s.ctx := by unfold State.raise; split <;> rfl
@[simp] theorem raise_booted (c : FaultCode) : (s.raise c).booted = s.booted := by unfold State.raise; split <;> rfl
@[simp] theorem raise_res (c : FaultCode) : (s.raise c).res = s.res := by unfold State.raise; split <;> rfl
@[simp] theorem raise_inq0 (c : FaultCode) : (s.raise c).inq0 = s.inq0 := by unfold State.raise; split <;> rfl
@[simp] theorem raise_inq1 (c : FaultCode) : (s.raise c).inq1 = s.inq1 := by unfold State.raise; split <;> rfl
@[simp] theorem raise_outq0 (c : FaultCode) : (s.raise c).outq0 = s.outq0 := by unfold State.raise; split <;> rfl
@[simp] theorem raise_outq1 (c : FaultCode) : (s.raise c).outq1 = s.outq1 := by unfold State.raise; split <;> rfl
@[simp] theorem raise_hostconn (c : FaultCode) : (s.raise c).hostconn = s.hostconn := by unfold State.raise; split <;> rfl
@[simp] theorem raise_evq (c : FaultCode) : (s.raise c).evq = s.evq := by unfold State.raise; split <;> rfl
@[simp] theorem raise_utxline (c : FaultCode) : (s.raise c).utxline = s.utxline := by unfold State.raise; split <;> rfl
@[simp] theorem raise_fgpc (c : FaultCode) : (s.raise c).fgpc = s.fgpc := by unfold State.raise; split <;> rfl
@[simp] theorem raise_fgcb (c : FaultCode) : (s.raise c).fgcb = s.fgcb := by unfold State.raise; split <;> rfl
@[simp] theorem raise_hpc (c : FaultCode) : (s.raise c).hpc = s.hpc := by unfold State.raise; split <;> rfl
@[simp] theorem raise_tMode (c : FaultCode) : (s.raise c).tMode = s.tMode := by unfold State.raise; split <;> rfl
@[simp] theorem raise_tRole (c : FaultCode) : (s.raise c).tRole = s.tRole := by unfold State.raise; split <;> rfl
@[simp] theorem raise_tBus (c : FaultCode) : (s.raise c).tBus = s.tBus := by unfold State.raise; split <;> rfl
@[simp] theorem raise_tKnob (c : FaultCode) : (s.raise c).tKnob = s.tKnob := by unfold State.raise; split <;> rfl
@[simp] theorem raise_tMatch (c : FaultCode) : (s.raise c).tMatch = s.tMatch := by unfold State.raise; split <;> rfl
@[simp] theorem raise_tByte (c : FaultCode) : (s.raise c).tByte = s.tByte := by unfold State.raise; split <;> rfl
@[simp] theorem raise_cfg (c : FaultCode) : (s.raise c).cfg = s.cfg := by unfold State.raise; split <;> rfl
@[simp] theorem raise_script (c : FaultCode) : (s.raise c).script = s.script := by unfold State.raise; split <;> rfl
@[simp] theorem raise_sched (c : FaultCode) : (s.raise c).sched = s.sched := by unfold State.raise; split <;> rfl
@[simp] theorem raise_draws (c : FaultCode) : (s.raise c).draws = s.draws := by unfold State.raise; split <;> rfl
@[simp] theorem raise_round (c : FaultCode) : (s.raise c).round = s.round := by unfold State.raise; split <;> rfl

theorem raise_of_faultFree (c : FaultCode) (h : s.fault = 0) :
    s.raise c = { s with fault := c.code, hist := s.hist ++ [.fault c.code] } := by
  simp [State.raise, h, State.emit]

theorem raise_of_faulted (c : FaultCode) (h : s.fault ≠ 0) : s.raise c = s := if_neg h

/-! ## uartInitialize -/

@[simp] theorem uartInitialize_pin (m : Half) : (s.uartInitialize m).pin = s.pin := by unfold State.uartInitialize; split <;> rfl
@[simp] theorem uartInitialize_sync (m : Half) : (s.uartInitialize m).sync = s.sync := by unfold State.uartInitialize; split <;> rfl
@[simp] theorem uartInitialize_dir (m : Half) : (s.uartInitialize m).dir = s.dir := by unfold State.uartInitialize; split <;> rfl
@[simp] theorem uartInitialize_lat (m : Half) : (s.uartInitialize m).lat = s.lat := by unfold State.uartInitialize; split <;> rfl
@[simp] theorem uartInitialize_uartIe (m : Half) : (s.uartInitialize m).uartIe = s.uartIe := by unfold State.uartInitialize; split <;> rfl
@[simp] theorem uartInitialize_tmrEn (m : Half) : (s.uartInitialize m).tmrEn = s.tmrEn := by unfold State.uartInitialize; split <;> rfl
@[simp] theorem uartInitialize_extaEn (m : Half) : (s.uartInitialize m).extaEn = s.extaEn := by unfold State.uartInitialize; split <;> rfl
@[simp] theorem uartInitialize_extbEn (m : Half) : (s.uartInitialize m).extbEn = s.extbEn := by unfold State.uartInitialize; split <;> rfl
@[simp] theorem uartInitialize_gie (m : Half) : (s.uartInitialize m).gie = s.gie := by unfold State.uartInitialize; split <;> rfl
@[simp] theorem uartInitialize_pendExta (m : Half) : (s.uartInitialize m).pendExta = s.pendExta := by unfold State.uartInitialize; split <;> rfl
@[simp] theorem uartInitialize_pendExtb (m : Half) : (s.uartInitialize m).pendExtb = s.pendExtb := by unfold State.uartInitialize; split <;> rfl
@[simp] theorem uartInitialize_pendTick (m : Half) : (s.uartInitialize m).pendTick = s.pendTick := by unfold State.uartInitialize; split <;> rfl
@[simp] theorem uartInitialize_txi (m : Half) : (s.uartInitialize m).txi = s.txi := by unfold State.uartInitialize; split <;> rfl
@[simp] theorem uartInitialize_rxi (m : Half) : (s.uartInitialize m).rxi = s.rxi := by unfold State.uartInitialize; split <;> rfl
@[simp] theorem uartInitialize_cls0 (m : Half) : (s.uartInitialize m).cls0 = s.cls0 := by unfold State.uartInitialize; split <;> rfl
@[simp] theorem uartInitialize_cls1 (m : Half) : (s.uartInitialize m).cls1 = s.cls1 := by unfold State.uartInitialize; split <;> rfl
@[simp] theorem uartInitialize_clsLast (m : Half) : (s.uartInitialize m).clsLast = s.clsLast := by unfold State.uartInitialize; split <;> rfl
@[simp] theorem uartInitialize_ctx (m : Half) : (s.uartInitialize m).ctx = s.ctx := by unfold State.uartInitialize; split <;> rfl
@[simp] theorem uartInitialize_booted (m : Half) : (s.uartInitialize m).booted = s.booted := by unfold State.uartInitialize; split <;> rfl
@[simp] theorem uartInitialize_fault (m : Half) : (s.uartInitialize m).fault = s.fault := by unfold State.uartInitialize; split <;> rfl
@[simp] theorem uartInitialize_res (m : Half) : (s.uartInitialize m).res = s.res := by unfold State.uartInitialize; split <;> rfl
@[simp] theorem uartInitialize_inq0 (m : Half) : (s.uartInitialize m).inq0 = s.inq0 := by unfold State.uartInitialize; split <;> rfl
@[simp] theorem uartInitialize_inq1 (m : Half) : (s.uartInitialize m).inq1 = s.inq1 := by unfold State.uartInitialize; split <;> rfl
@[simp] theorem uartInitialize_outq0 (m : Half) : (s.uartInitialize m).outq0 = s.outq0 := by unfold State.uartInitialize; split <;> rfl
@[simp] theorem uartInitialize_outq1 (m : Half) : (s.uartInitialize m).outq1 = s.outq1 := by unfold State.uartInitialize; split <;> rfl
@[simp] theorem uartInitialize_hostconn (m : Half) : (s.uartInitialize m).hostconn = s.hostconn := by unfold State.uartInitialize; split <;> rfl
@[simp] theorem uartInitialize_evq (m : Half) : (s.uartInitialize m).evq = s.evq := by unfold State.uartInitialize; split <;> rfl
@[simp] theorem uartInitialize_utxline (m : Half) : (s.uartInitialize m).utxline = s.utxline := by unfold State.uartInitialize; split <;> rfl
@[simp] theorem uartInitialize_fgpc (m : Half) : (s.uartInitialize m).fgpc = s.fgpc := by unfold State.uartInitialize; split <;> rfl
@[simp] theorem uartInitialize_fgcb (m : Half) : (s.uartInitialize m).fgcb = s.fgcb := by unfold State.uartInitialize; split <;> rfl
@[simp] theorem uartInitialize_hpc (m : Half) : (s.uartInitialize m).hpc = s.hpc := by unfold State.uartInitialize; split <;> rfl
@[simp] theorem uartInitialize_tMode (m : Half) : (s.uartInitialize m).tMode = s.tMode := by unfold State.uartInitialize; split <;> rfl
@[simp] theorem uartInitialize_tRole (m : Half) : (s.uartInitialize m).tRole = s.tRole := by unfold State.uartInitialize; split <;> rfl
@[simp] theorem uartInitialize_tBus (m : Half) : (s.uartInitialize m).tBus = s.tBus := by unfold State.uartInitialize; split <;> rfl
@[simp] theorem uartInitialize_tKnob (m : Half) : (s.uartInitialize m).tKnob = s.tKnob := by unfold State.uartInitialize; split <;> rfl
@[simp] theorem uartInitialize_tMatch (m : Half) : (s.uartInitialize m).tMatch = s.tMatch := by unfold State.uartInitialize; split <;> rfl
@[simp] theorem uartInitialize_tByte (m : Half) : (s.uartInitialize m).tByte = s.tByte := by unfold State.uartInitialize; split <;> rfl
@[simp] theorem uartInitialize_hist (m : Half) : (s.uartInitialize m).hist = s.hist := by unfold State.uartInitialize; split <;> rfl
@[simp] theorem uartInitialize_cfg (m : Half) : (s.uartInitialize m).cfg = s.cfg := by unfold State.uartInitialize; split <;> rfl
@[simp] theorem uartInitialize_script (m : Half) : (s.uartInitialize m).script = s.script := by unfold State.uartInitialize; split <;> rfl
@[simp] theorem uartInitialize_sched (m : Half) : (s.uartInitialize m).sched = s.sched := by unfold State.uartInitialize; split <;> rfl
@[simp] theorem uartInitialize_draws (m : Half) : (s.uartInitialize m).draws = s.draws := by unfold State.uartInitialize; split <;> rfl
@[simp] theorem uartInitialize_round (m : Half) : (s.uartInitialize m).round = s.round := by unfold State.uartInitialize; split <;> rfl
@[simp] theorem uartInitialize_baud (m : Half) : (s.uartInitialize m).baud = m := by
  unfold State.uartInitialize; split <;> rfl
@[simp] theorem uartInitialize_uartEn (m : Half) : (s.uartInitialize m).uartEn = true := by
  unfold State.uartInitialize; split <;> simp_all

/-! ## takeInterrupt -/

@[simp] theorem takeInterrupt_pin (v : Source) : (s.takeInterrupt v).pin = s.pin := by cases v <;> rfl
@[simp] theorem takeInterrupt_sync (v : Source) : (s.takeInterrupt v).sync = s.sync := by cases v <;> rfl
@[simp] theorem takeInterrupt_dir (v : Source) : (s.takeInterrupt v).dir = s.dir := by cases v <;> rfl
@[simp] theorem takeInterrupt_lat (v : Source) : (s.takeInterrupt v).lat = s.lat := by cases v <;> rfl
@[simp] theorem takeInterrupt_uartEn (v : Source) : (s.takeInterrupt v).uartEn = s.uartEn := by cases v <;> rfl
@[simp] theorem takeInterrupt_uartIe (v : Source) : (s.takeInterrupt v).uartIe = s.uartIe := by cases v <;> rfl
@[simp] theorem takeInterrupt_tmrEn (v : Source) : (s.takeInterrupt v).tmrEn = s.tmrEn := by cases v <;> rfl
@[simp] theorem takeInterrupt_extaEn (v : Source) : (s.takeInterrupt v).extaEn = s.extaEn := by cases v <;> rfl
@[simp] theorem takeInterrupt_extbEn (v : Source) : (s.takeInterrupt v).extbEn = s.extbEn := by cases v <;> rfl
@[simp] theorem takeInterrupt_gie (v : Source) : (s.takeInterrupt v).gie = s.gie := by cases v <;> rfl
@[simp] theorem takeInterrupt_txbuf (v : Source) : (s.takeInterrupt v).txbuf = s.txbuf := by cases v <;> rfl
@[simp] theorem takeInterrupt_baud (v : Source) : (s.takeInterrupt v).baud = s.baud := by cases v <;> rfl
@[simp] theorem takeInterrupt_txi (v : Source) : (s.takeInterrupt v).txi = s.txi := by cases v <;> rfl
@[simp] theorem takeInterrupt_rxi (v : Source) : (s.takeInterrupt v).rxi = s.rxi := by cases v <;> rfl
@[simp] theorem takeInterrupt_cls0 (v : Source) : (s.takeInterrupt v).cls0 = s.cls0 := by cases v <;> rfl
@[simp] theorem takeInterrupt_cls1 (v : Source) : (s.takeInterrupt v).cls1 = s.cls1 := by cases v <;> rfl
@[simp] theorem takeInterrupt_clsLast (v : Source) : (s.takeInterrupt v).clsLast = s.clsLast := by cases v <;> rfl
@[simp] theorem takeInterrupt_booted (v : Source) : (s.takeInterrupt v).booted = s.booted := by cases v <;> rfl
@[simp] theorem takeInterrupt_fault (v : Source) : (s.takeInterrupt v).fault = s.fault := by cases v <;> rfl
@[simp] theorem takeInterrupt_res (v : Source) : (s.takeInterrupt v).res = s.res := by cases v <;> rfl
@[simp] theorem takeInterrupt_inq0 (v : Source) : (s.takeInterrupt v).inq0 = s.inq0 := by cases v <;> rfl
@[simp] theorem takeInterrupt_inq1 (v : Source) : (s.takeInterrupt v).inq1 = s.inq1 := by cases v <;> rfl
@[simp] theorem takeInterrupt_outq0 (v : Source) : (s.takeInterrupt v).outq0 = s.outq0 := by cases v <;> rfl
@[simp] theorem takeInterrupt_outq1 (v : Source) : (s.takeInterrupt v).outq1 = s.outq1 := by cases v <;> rfl
@[simp] theorem takeInterrupt_hostconn (v : Source) : (s.takeInterrupt v).hostconn = s.hostconn := by cases v <;> rfl
@[simp] theorem takeInterrupt_evq (v : Source) : (s.takeInterrupt v).evq = s.evq := by cases v <;> rfl
@[simp] theorem takeInterrupt_utxline (v : Source) : (s.takeInterrupt v).utxline = s.utxline := by cases v <;> rfl
@[simp] theorem takeInterrupt_fgpc (v : Source) : (s.takeInterrupt v).fgpc = s.fgpc := by cases v <;> rfl
@[simp] theorem takeInterrupt_fgcb (v : Source) : (s.takeInterrupt v).fgcb = s.fgcb := by cases v <;> rfl
@[simp] theorem takeInterrupt_cfg (v : Source) : (s.takeInterrupt v).cfg = s.cfg := by cases v <;> rfl
@[simp] theorem takeInterrupt_script (v : Source) : (s.takeInterrupt v).script = s.script := by cases v <;> rfl
@[simp] theorem takeInterrupt_sched (v : Source) : (s.takeInterrupt v).sched = s.sched := by cases v <;> rfl
@[simp] theorem takeInterrupt_draws (v : Source) : (s.takeInterrupt v).draws = s.draws := by cases v <;> rfl
@[simp] theorem takeInterrupt_round (v : Source) : (s.takeInterrupt v).round = s.round := by cases v <;> rfl
@[simp] theorem takeInterrupt_ctx (v : Source) : (s.takeInterrupt v).ctx = .handler v := by cases v <;> rfl
@[simp] theorem takeInterrupt_hpc (v : Source) : (s.takeInterrupt v).hpc = some 0 := by cases v <;> rfl
@[simp] theorem takeInterrupt_hist (v : Source) : (s.takeInterrupt v).hist
    = s.hist ++ [.dispatch v] ++ [.word .mux (encode (entryWord v))] := by cases v <;> rfl

/-! ## resetNow -/

@[simp] theorem resetNow_pin : s.resetNow.pin = s.pin := rfl
@[simp] theorem resetNow_sync : s.resetNow.sync = s.pin := rfl
@[simp] theorem resetNow_cfg : s.resetNow.cfg = s.cfg := rfl
@[simp] theorem resetNow_script : s.resetNow.script = s.script := rfl
@[simp] theorem resetNow_sched : s.resetNow.sched = s.sched := rfl
@[simp] theorem resetNow_draws : s.resetNow.draws = s.draws := rfl
@[simp] theorem resetNow_round : s.resetNow.round = s.round := rfl

end Sys2Proof.Machine
end

