-- ==== Sys2Proof/Laws/Ops.lean ====
section
/-! SUPPORT. What each shared operation can do, said once. -/

namespace Sys2Proof.Machine

/-! ## Pins and queues -/

@[simp] theorem InLevels.get_set_same (l : InLevels) (p : InPin) (b : Bool) : (l.set p b).get p = b := by
  cases p <;> rfl

theorem InLevels.get_set_other (l : InLevels) {p q : InPin} (h : q ≠ p) (b : Bool) :
    (l.set p b).get q = l.get q := by
  cases p <;> cases q <;> first | rfl | exact absurd rfl h

@[simp] theorem OutLatches.get_set_same (l : OutLatches) (p : OutPin) (v : Option Bool) :
    (l.set p v).get p = v := by
  cases p <;> rfl

theorem OutLatches.get_set_other (l : OutLatches) {p q : OutPin} (h : q ≠ p) (v : Option Bool) :
    (l.set p v).get q = l.get q := by
  cases p <;> cases q <;> first | rfl | exact absurd rfl h

@[simp] theorem OutDirs.get_set_same (l : OutDirs) (p : OutPin) (d : Direction) : (l.set p d).get p = d := by
  cases p <;> rfl

theorem OutDirs.get_set_other (l : OutDirs) {p q : OutPin} (h : q ≠ p) (d : Direction) :
    (l.set p d).get q = l.get q := by
  cases p <;> cases q <;> first | rfl | exact absurd rfl h

theorem Chan.ofId_id (c : Chan) : Chan.ofId c.id = some c := by cases c <;> rfl

theorem FaultCode.code_ne_zero (c : FaultCode) : c.code ≠ 0 := by cases c <;> decide

theorem FaultCode.code_le (c : FaultCode) : c.code.toNat ≤ 8 := by cases c <;> decide

/-- The bits of a packed list are its entries, and 0 above them. -/
theorem packBits_testBit (l : List Bool) (b : Nat) : (packBits l).testBit b = (l[b]?).getD false := by
  induction l generalizing b with
  | nil => simp [packBits]
  | cons x xs ih =>
    cases b with
    | zero => cases x <;> simp [packBits]
    | succ n =>
      simp only [packBits, Nat.testBit_succ, List.getElem?_cons_succ, ← ih]
      congr 1
      cases x
      · simp
      · simp; omega

theorem hasRoom_iff (c : Params) (n : Nat) : hasRoom c n = true ↔ ∀ k, c.usbqCap = some k → n < k := by
  unfold hasRoom
  cases c.usbqCap <;> simp

/-- An id names an input pin or an output pin, not both. -/
theorem InPin.ofId_of_output {p : Byte} {q : OutPin} (h : OutPin.ofId p = some q) : InPin.ofId p = none := by
  unfold OutPin.ofId at h
  unfold InPin.ofId
  split at h <;> simp_all

/-- A send succeeds exactly where there is room, and then it appends the byte and records it. -/
theorem sendByte_eq_some {s t : State} {c : Chan} {y : Byte} :
    s.sendByte c y = some t ↔ hasRoom s.cfg (s.outq c).length = true
      ∧ t = (s.setOutq c (s.outq c ++ [y])).emit (.usbsend c y) := by
  unfold State.sendByte
  split
  · rename_i h
    exact ⟨fun e => ⟨h, (Option.some.inj e).symm⟩, fun e => congrArg some e.2.symm⟩
  · rename_i h
    exact ⟨fun e => (nomatch e), fun e => absurd e.1 h⟩

/-! ## The four shapes of a word's meaning -/

/-- A class S word that answers a next state has raised one of its faults or run its effect. -/
theorem softwareWord_next {i : Instr} {s t : State} {run : State → Result}
    (h : softwareWord i s run = .next t) :
    s.fault = 0 ∧ s.fgcb = none ∧
      ((s.ctx ≠ .fg ∧ t = s.raise .context)
        ∨ (s.ctx = .fg ∧ ∃ c, operandFault i = some c ∧ t = s.raise c)
        ∨ (s.ctx = .fg ∧ operandFault i = none ∧ writesOwnedPin i = true ∧ s.booted = true
            ∧ t = s.raise .ownership)
        ∨ (s.ctx = .fg ∧ operandFault i = none ∧ (writesOwnedPin i = true → s.booted = false)
            ∧ run (s.record .fg i) = .next t)) := by
  unfold softwareWord at h
  split at h
  · cases h
  · split at h
    · cases h
    · split at h
      · rename_i h0 h1 h2
        exact ⟨by simpa using h0, by simpa using h1, .inl ⟨h2, by cases h; rfl⟩⟩
      · rename_i h0 h1 h2
        refine ⟨by simpa using h0, by simpa using h1, .inr ?_⟩
        have hc : s.ctx = .fg := by simpa using h2
        split at h
        · rename_i c hop
          exact .inl ⟨hc, c, hop, by cases h; rfl⟩
        · rename_i hop
          split at h
          · rename_i hw
            simp only [Bool.and_eq_true] at hw
            exact .inr (.inl ⟨hc, hop, hw.1, hw.2, by cases h; rfl⟩)
          · rename_i hw
            refine .inr (.inr ⟨hc, hop, fun h' => ?_, h⟩)
            simpa [h'] using hw

/-- A class S word of a ready FG, its operands legal and its pins its own, runs its effect. -/
theorem softwareWord_run {i : Instr} {s : State} {run : State → Result} (hf : s.fault = 0)
    (hb : s.fgcb = none) (hc : s.ctx = .fg) (ho : operandFault i = none)
    (hw : writesOwnedPin i = true → s.booted = false) :
    softwareWord i s run = run (s.record .fg i) := by
  unfold softwareWord
  cases hwi : writesOwnedPin i <;> simp_all

/-- A class C word that answers a next state has raised a fault or delivered the head of EVQ. -/
theorem callbackWord_next {i : Instr} {kind : UsbEvent} {e : Option UsbEvent} {s t : State}
    {run : State → Result} (h : callbackWord i kind e s run = .next t) :
    s.fault = 0 ∧
      ((∃ c, t = s.raise c)
        ∨ (s.ctx = .fg ∧ s.fgcb = none ∧ ∃ head rest, s.evq = head :: rest ∧ e = some head
            ∧ run ({ s with evq := rest }.record .fg i) = .next t)) := by
  unfold callbackWord at h
  split at h
  · cases h
  · rename_i h0
    refine ⟨by simpa using h0, ?_⟩
    split at h
    · exact .inl ⟨_, by cases h; rfl⟩
    · rename_i hb
      simp only [Bool.or_eq_true, decide_eq_true_eq, not_or, ne_eq, Decidable.not_not,
        Option.isSome_iff_ne_none] at hb
      split at h
      · exact .inl ⟨_, by cases h; rfl⟩
      · rename_i head rest hev
        split at h
        · exact .inl ⟨_, by cases h; rfl⟩
        · split at h
          · exact .inl ⟨_, by cases h; rfl⟩
          · split at h
            · rename_i he
              exact .inr ⟨hb.1, hb.2, head, rest, hev, he, h⟩
            · exact .inl ⟨_, by cases h; rfl⟩

/-- An entry word that answers a next state is the dispatch of its vector, or raises F_CONTEXT. -/
theorem handlerEntry_next {v : Source} {s t : State} (h : handlerEntry v s = .next t) :
    s.fault = 0 ∧ ((s.nextDispatch = some v ∧ t = s.takeInterrupt v)
      ∨ (s.nextDispatch ≠ some v ∧ t = s.raise .context)) := by
  unfold handlerEntry at h
  split at h
  · cases h
  · rename_i h0
    refine ⟨by simpa using h0, ?_⟩
    split at h
    · rename_i hd; exact .inl ⟨hd, by cases h; rfl⟩
    · rename_i hd; exact .inr ⟨hd, by cases h; rfl⟩

/-- A class E word that answers a next state has raised its operand fault or run its effect, its guard true. -/
theorem eventWord_next {a : Agent} {i : Instr} {g : Bool} {s t : State} {run : State → Result}
    (h : eventWord a i g s run = .next t) :
    s.fault = 0 ∧ ((∃ c, operandFault i = some c ∧ t = s.raise c)
      ∨ (operandFault i = none ∧ g = true ∧ run (s.record a i) = .next t)) := by
  unfold eventWord at h
  split at h
  · cases h
  · rename_i h0
    refine ⟨by simpa using h0, ?_⟩
    split at h
    · rename_i c hc; exact .inl ⟨c, hc, by cases h; rfl⟩
    · rename_i hc
      split at h
      · rename_i hg; exact .inr ⟨hc, hg, h⟩
      · cases h

/-- RETI returns from the handler whose final micro-step is next, or raises F_CONTEXT. -/
theorem execReti_next {s t : State} (h : execReti s = .next t) :
    s.fault = 0 ∧ ((∃ v, s.atFinalStep = some v ∧ t = s.returnFromHandler v)
      ∨ (s.atFinalStep = none ∧ t = s.raise .context)) := by
  unfold execReti at h
  split at h
  · cases h
  · rename_i h0
    refine ⟨by simpa using h0, ?_⟩
    split at h
    · rename_i v hv; exact .inl ⟨v, hv, by cases h; rfl⟩
    · rename_i hv; exact .inr ⟨hv, by cases h; rfl⟩

/-! ## Dispatch -/

/-- The next dispatch is of a source that requests, with interrupts enabled, in context FG and fault-free. -/
theorem nextDispatch_some {s : State} {v : Source} (h : s.nextDispatch = some v) :
    s.flag v = true ∧ s.enable v = true ∧ s.gie = true ∧ s.ctx = .fg ∧ s.fault = 0 := by
  have := List.find?_some h
  simpa [State.dispatchable, State.requests, and_assoc] using this

/-- Taking an interrupt, written out per vector. -/
theorem takeInterrupt_eq (s : State) (v : Source) :
    s.takeInterrupt v =
      { s with
        ctx := .handler v, hpc := some 0, tMode := none, tRole := none, tBus := none, tKnob := none,
        tMatch := none, tByte := if v = .urx then s.rxdata else none,
        rxdata := if v = .urx then none else s.rxdata, rxfull := if v = .urx then false else s.rxfull,
        pendExta := if v = .extA then false else s.pendExta,
        pendExtb := if v = .extB then false else s.pendExtb,
        pendTick := if v = .tick then false else s.pendTick, txc := if v = .utx then false else s.txc,
        hist := s.hist ++ [.dispatch v, .word .mux (encode (entryWord v))] } := by
  cases v <;> simp [State.takeInterrupt, State.clearAtDispatch, State.record, State.emit]

/-! ## A micro-step of UpdateRoleSeq -/

theorem roleStepWrite_next {k e : Nat} {s t : State} (h : roleStepWrite k e s = .next t) :
    (s.tRole = some .slave ∧ t = (s.writeLat .msout false).setHpc (k + 1))
      ∨ (s.tRole = some .master ∧ t = (s.writeLat .msout true).setHpc e)
      ∨ (s.tRole = none ∧ t = s.raise .model) := by
  unfold roleStepWrite at h
  split at h <;> cases h <;> simp_all

theorem roleStepCompare_next {e : Nat} {s t : State} (h : roleStepCompare e s = .next t) :
    (∃ b n, s.tBus = some b ∧ s.tKnob = some n ∧
        t = (({ s with tMatch := some (addressMatches b n) }.writeLat .csout
          (csLevel (addressMatches b n))).setHpc e))
      ∨ ((s.tBus = none ∨ s.tKnob = none) ∧ t = s.raise .model) := by
  unfold roleStepCompare at h
  split at h
  · rename_i b n hb hn
    cases h
    exact .inl ⟨b, n, hb, hn, rfl⟩
  · rename_i hno
    cases h
    refine .inr ⟨?_, rfl⟩
    cases hb : s.tBus with
    | none => exact .inl rfl
    | some b =>
      cases hn : s.tKnob with
      | none => exact .inr rfl
      | some n => exact absurd hn (hno b n hb)

/-! ## Presenting a word and a step of MUX -/

/-- Presenting a word that answers a next state: one of the faults of checks 1 to 3, or its meaning. -/
theorem presentWord_next {a : Agent} {w : Word} {s t : State} (h : presentWord a w s = .next t) :
    s.fault = 0 ∧ ((∃ c, t = s.raise c) ∨
      ∃ i, readFields w = some i ∧ mayPerform a i s = true ∧ reservedClear i w = true
        ∧ exec i s = .next t) := by
  unfold presentWord at h
  split at h
  · cases h
  · rename_i h0
    refine ⟨by simpa using h0, ?_⟩
    split at h
    · cases h
    · split at h
      · exact .inl ⟨_, by cases h; rfl⟩
      · rename_i i hi
        split at h
        · rename_i hm
          split at h
          · rename_i hr; exact .inr ⟨i, hi, hm, hr, h⟩
          · exact .inl ⟨_, by cases h; rfl⟩
        · exact .inl ⟨_, by cases h; rfl⟩

/-- A step of MUX: a micro-step of the running handler, or the dispatch of the next source. -/
theorem muxStep_next {s t : State} (h : muxStep s = .next t) :
    s.fault = 0 ∧ ((∃ v, s.ctx = .handler v ∧ microStep v s = .next t)
      ∨ (s.ctx = .fg ∧ ∃ v, s.nextDispatch = some v ∧ exec (entryWord v) s = .next t)) := by
  unfold muxStep at h
  split at h
  · cases h
  · rename_i h0
    refine ⟨by simpa using h0, ?_⟩
    split at h
    · rename_i v hv; exact .inl ⟨v, hv, h⟩
    · rename_i hc
      split at h
      · rename_i v hv; exact .inr ⟨hc, v, hv, h⟩
      · cases h

/-! ## FG's steps -/

/-- Checks 4 to 6 of R186: a class S word of a ready FG that fails one of them raises its fault. -/
theorem softwareWord_of_lateFault {i : Instr} {s : State} {c : FaultCode} (hf : s.fault = 0)
    (hb : s.fgcb = none) (hc : s.ctx = .fg) (h : lateFault i s = some c) (run : State → Result) :
    softwareWord i s run = .next (s.raise c) := by
  unfold lateFault at h
  unfold softwareWord
  rw [if_neg (by simpa using hf), if_neg (by simp [hb]), if_neg (by simpa using hc)]
  cases ho : operandFault i with
  | some d =>
    rw [ho, Option.some_or] at h
    cases h
    rfl
  | none =>
    rw [ho, Option.none_or] at h
    by_cases hw : (writesOwnedPin i && s.booted) = true
    · rw [if_pos hw] at h
      cases h
      exact if_pos hw
    · rw [if_neg hw] at h
      cases h

/-- Check 4 of R186 for a class E word. -/
theorem eventWord_of_operandFault {i : Instr} {s : State} {c : FaultCode} (hf : s.fault = 0)
    (h : operandFault i = some c) (a : Agent) (g : Bool) (run : State → Result) :
    eventWord a i g s run = .next (s.raise c) := by
  unfold eventWord
  rw [if_neg (by simpa using hf), h]

/-- Checks 4 to 6 of R186, whatever the instruction: one that its agent may perform now raises the fault of the
first that fails. -/
theorem exec_of_lateFault {a : Agent} {i : Instr} {s : State} {c : FaultCode} (hf : s.fault = 0)
    (hb : a = .fg → s.fgcb = none) (hm : mayPerform a i s = true) (h : lateFault i s = some c) :
    exec i s = .next (s.raise c) := by
  have sw : i.wordClass = .software → ∀ run, softwareWord i s run = .next (s.raise c) := by
    intro hc
    simp only [mayPerform, hc, Bool.and_eq_true, decide_eq_true_eq] at hm
    exact softwareWord_of_lateFault hf (hb hm.1) hm.2 h
  have ev : writesOwnedPin i = false → ∀ b g run, eventWord b i g s run = .next (s.raise c) := fun hw =>
    eventWord_of_operandFault hf (by simpa [lateFault, hw] using h)
  cases i <;> first
    | cases h
    | cases hm
    | (simp only [exec, execGpioRead, execGpioWrite, execGpioDir, execUartInit, execExtConfig,
        execArbUpdateRunmode, execArbUpdateRole, execUsbRecv, execUsbSend, execUsbService, execRegRead]
       exact sw rfl _)
    | (simp only [exec, execEnvPin, execSyncSample, execEnvHostCls, execEnvHostByte, execEnvHostTake]
       exact ev rfl _ _ _)

/-- The word's first failing check is the fault that presenting it raises. -/
theorem presentWord_of_firstFault {a : Agent} {w : Word} {s : State} {c : FaultCode} (hf : s.fault = 0)
    (hb : a = .fg → s.fgcb = none) (h : firstFault a w s = some c) : presentWord a w s = .next (s.raise c) := by
  have hb' : ¬ (a = .fg ∧ s.fgcb.isSome = true) := fun ⟨ha, hs⟩ => by simp [hb ha] at hs
  unfold firstFault at h
  unfold presentWord
  rw [if_neg (by simpa using hf), if_neg hb']
  split at h
  · cases h; rfl
  · rename_i i hi
    split at h
    · rename_i hm
      cases h
      rw [if_neg (by simpa using hm)]
    · rename_i hm
      rw [if_pos (by simpa using hm)]
      split at h
      · rename_i hr
        cases h
        rw [if_neg (by simpa using hr)]
      · rename_i hr
        rw [if_pos (by simpa using hr)]
        exact exec_of_lateFault hf hb (by simpa using hm) h

/-- A `<RES>` statement that answers a next state: an unknown OPC, a fault for want of a result, or its word with
the operand from RES presented. -/
theorem runResStmt_next {w : Word} {s t : State} (h : runResStmt w s = .next t) :
    (readFields w = none ∧ presentWord .fg w s = .next t)
      ∨ (s.res = none ∧ ∃ c, t = s.raise c)
      ∨ (∃ r w', s.res = some r ∧ fillRes w r = some w' ∧ presentWord .fg w' s = .next t) := by
  unfold runResStmt at h
  split at h
  · rename_i hr; exact .inl ⟨hr, h⟩
  · split at h
    · cases h
    · rename_i w' hw
      cases hres : s.res with
      | none => simp only [hres] at h; cases h; exact .inr (.inl ⟨rfl, _, rfl⟩)
      | some r => simp only [hres] at h hw; exact .inr (.inr ⟨r, w', rfl, hw, h⟩)

/-- A statement of FG's script that answers a next state: its word presented, a `<RES>` statement run, or a new
FGPC. -/
theorem runStmt_next {st : Stmt} {s t : State} (h : runStmt st s = .next t) :
    (∃ w, st = .word w ∧ presentWord .fg w s = .next t)
      ∨ (∃ w, st = .resWord w ∧ runResStmt w s = .next t)
      ∨ (∃ l, st = .bnone l ∧ t = { s with fgpc := if s.res = some resNone then l else s.fgpc + 1 })
      ∨ (∃ l, st = .goto l ∧ t = { s with fgpc := l }) := by
  unfold runStmt at h
  split at h
  · exact .inl ⟨_, rfl, h⟩
  · exact .inr (.inl ⟨_, rfl, h⟩)
  · exact .inr (.inr (.inl ⟨_, rfl, by cases h; rfl⟩))
  · exact .inr (.inr (.inr ⟨_, rfl, by cases h; rfl⟩))

/-- FG's script turn that answers a next state: a statement at an FG boundary. -/
theorem scriptStep_next {s t : State} (h : scriptStep s = .next t) :
    s.fault = 0 ∧ s.ctx = .fg ∧ s.fgcb = none ∧ ∃ st, s.script[s.fgpc]? = some st ∧ runStmt st s = .next t := by
  unfold scriptStep at h
  split at h
  · cases h
  · rename_i h0
    split at h
    · rename_i hb
      simp only [State.atBoundary, Bool.and_eq_true, decide_eq_true_eq, Option.isNone_iff_eq_none] at hb
      split at h
      · rename_i st hst
        exact ⟨by simpa using h0, hb.1, hb.2, st, hst, h⟩
      · cases h
    · cases h

/-- A delivery that answers a next state: the callback of EVQ's head at an FG boundary. -/
theorem deliverStep_next {s t : State} (h : deliverStep s = .next t) :
    s.fault = 0 ∧ s.ctx = .fg ∧ s.fgcb = none ∧ ∃ e es, s.evq = e :: es ∧ exec (callbackOf e) s = .next t := by
  unfold deliverStep at h
  split at h
  · cases h
  · rename_i h0
    split at h
    · rename_i hb
      simp only [State.atBoundary, Bool.and_eq_true, decide_eq_true_eq, Option.isNone_iff_eq_none] at hb
      split at h
      · rename_i e es he
        exact ⟨by simpa using h0, hb.1, hb.2, e, es, he, h⟩
      · cases h
    · cases h

/-- The second step of CB_CLS that answers a next state. -/
theorem secondStepOfCls_next {s t : State} (h : secondStepOfCls s = .next t) :
    s.fault = 0 ∧ s.ctx = .fg ∧ ∃ m, s.fgcb = some m ∧ t = { s with fgcb := none, uartIe := uartGate m s.uartIe } := by
  unfold secondStepOfCls at h
  split at h
  · cases h
  · rename_i h0
    split at h
    · cases h
    · rename_i hc
      split at h
      · rename_i m hm
        exact ⟨by simpa using h0, by simpa using hc, m, hm, by cases h; rfl⟩
      · cases h

/-- A scheduled word that answers a next state is presented by MUX, SYNC or ENV. -/
theorem scheduledWord_next {a : Agent} {w : Word} {s t : State} (h : scheduledWord a w s = .next t) :
    a ≠ .fg ∧ presentWord a w s = .next t := by
  unfold scheduledWord at h
  split at h
  · split at h <;> cases h
  all_goals exact ⟨by simp, h⟩

/-- The state an action is taken in differs from the one before in its schedule and its count of turns alone. -/
theorem nextAction_state (s : State) :
    ∃ rest k, s.nextAction.2 = { s with sched := rest, round := k } := by
  unfold State.nextAction
  split
  · exact ⟨_, _, rfl⟩
  · split
    · exact ⟨s.sched, s.round, rfl⟩
    · exact ⟨s.sched, _, rfl⟩

end Sys2Proof.Machine
end

