-- ==== Sys2Proof/Laws/PerInstr.lean ====
section
/-! SUPPORT. Per instruction: the operand checks of the machine (60_exceptions.md R186, checks 4 and 5)
pass exactly on the well-formed instructions (30_encoding.md R83). -/

namespace Sys2Proof.Laws.OperandChecks

open Sys2Proof.Machine

/-- The machine's operand checks accept the instruction iff it is well formed. -/
def Statement (i : Instr) : Prop := operandFault i = none ↔ i.wellFormed = true

theorem checkIndex_iff (legal : Bool) (c : FaultCode) : checkIndex legal c = none ↔ legal = true := by
  cases legal <;> simp [checkIndex]

theorem inPin_isSome : ∀ p : Byte, (InPin.ofId p).isSome = isInputPin p := by decide
theorem outPin_isSome : ∀ p : Byte, (OutPin.ofId p).isSome = isOutputPin p := by decide
theorem chan_isSome : ∀ c : Byte, (Chan.ofId c).isSome = isChannel c := by decide
theorem line_isSome : ∀ l : Byte, (Line.ofId l).isSome = isLine l := by decide
theorem pin_isSome : ∀ p : Byte, (isInputPin p || isOutputPin p) = isPin p := by decide

theorem pin_check (p : Byte) :
    checkIndex ((InPin.ofId p).isSome || (OutPin.ofId p).isSome) .badPin = none ↔ isPin p = true := by
  rw [checkIndex_iff, inPin_isSome, outPin_isSome, pin_isSome]

theorem inPin_check (p : Byte) : checkIndex (InPin.ofId p).isSome .badPin = none ↔ isInputPin p = true := by
  rw [checkIndex_iff, inPin_isSome]

theorem outPin_check (p : Byte) :
    checkIndex (OutPin.ofId p).isSome .badPin = none ↔ isOutputPin p = true := by
  rw [checkIndex_iff, outPin_isSome]

theorem chan_check (c : Byte) : checkIndex (Chan.ofId c).isSome .badChannel = none ↔ isChannel c = true := by
  rw [checkIndex_iff, chan_isSome]

theorem line_check (l : Byte) : checkIndex (Line.ofId l).isSome .badOperand = none ↔ isLine l = true := by
  rw [checkIndex_iff, line_isSome]

theorem gpioRead (p : Byte) : Statement (.gpioRead p) := pin_check p
theorem gpioWrite (p : Byte) (b : Bool) : Statement (.gpioWrite p b) := outPin_check p
theorem gpioDir (p : Byte) (d : Direction) : Statement (.gpioDir p d) := outPin_check p
theorem uartInit (m : Half) : Statement (.uartInit m) := checkIndex_iff _ _
theorem uartDeinit : Statement (.uartDeinit) := ⟨fun _ => rfl, fun _ => rfl⟩
theorem uartTx (y : Byte) : Statement (.uartTx y) := ⟨fun _ => rfl, fun _ => rfl⟩
theorem uartIeOn : Statement (.uartIeOn) := ⟨fun _ => rfl, fun _ => rfl⟩
theorem uartIeOff : Statement (.uartIeOff) := ⟨fun _ => rfl, fun _ => rfl⟩
theorem tmrInit : Statement (.tmrInit) := ⟨fun _ => rfl, fun _ => rfl⟩
theorem extConfig (l : Byte) (e : Bool) : Statement (.extConfig l e) := line_check l
theorem irqGlobal (b : Bool) : Statement (.irqGlobal b) := ⟨fun _ => rfl, fun _ => rfl⟩
theorem arbDetectRunmode : Statement (.arbDetectRunmode) := ⟨fun _ => rfl, fun _ => rfl⟩
theorem arbDetectRole : Statement (.arbDetectRole) := ⟨fun _ => rfl, fun _ => rfl⟩
theorem arbUpdateRunmode (m : RunMode) : Statement (.arbUpdateRunmode m) := ⟨fun _ => rfl, fun _ => rfl⟩
theorem arbUpdateRole (r : Role) : Statement (.arbUpdateRole r) := ⟨fun _ => rfl, fun _ => rfl⟩
theorem arbAddrMatch : Statement (.arbAddrMatch) := ⟨fun _ => rfl, fun _ => rfl⟩
theorem usbRecv (c : Byte) : Statement (.usbRecv c) := chan_check c
theorem usbSend (c y : Byte) : Statement (.usbSend c y) := chan_check c
theorem usbService (c : Byte) : Statement (.usbService c) := chan_check c
theorem regRead (n : Byte) : Statement (.regRead n) := checkIndex_iff _ _
theorem cbCls (c : Byte) (m : Half) : Statement (.cbCls c m) := chan_check c
theorem cbConnect : Statement (.cbConnect) := ⟨fun _ => rfl, fun _ => rfl⟩
theorem cbDisconnect : Statement (.cbDisconnect) := ⟨fun _ => rfl, fun _ => rfl⟩
theorem hExtA : Statement (.hExtA) := ⟨fun _ => rfl, fun _ => rfl⟩
theorem hExtB : Statement (.hExtB) := ⟨fun _ => rfl, fun _ => rfl⟩
theorem hTick : Statement (.hTick) := ⟨fun _ => rfl, fun _ => rfl⟩
theorem hUrx : Statement (.hUrx) := ⟨fun _ => rfl, fun _ => rfl⟩
theorem hUtx : Statement (.hUtx) := ⟨fun _ => rfl, fun _ => rfl⟩
theorem reti : Statement (.reti) := ⟨fun _ => rfl, fun _ => rfl⟩
theorem envPin (p : Byte) (b : Bool) : Statement (.envPin p b) := inPin_check p
theorem syncSample (p : Byte) : Statement (.syncSample p) := inPin_check p
theorem envUartRx (y : Byte) : Statement (.envUartRx y) := ⟨fun _ => rfl, fun _ => rfl⟩
theorem envTxDone : Statement (.envTxDone) := ⟨fun _ => rfl, fun _ => rfl⟩
theorem envTick : Statement (.envTick) := ⟨fun _ => rfl, fun _ => rfl⟩
theorem envHostCls (c : Byte) (m : Half) : Statement (.envHostCls c m) := chan_check c
theorem envHostConnect : Statement (.envHostConnect) := ⟨fun _ => rfl, fun _ => rfl⟩
theorem envHostDisconnect : Statement (.envHostDisconnect) := ⟨fun _ => rfl, fun _ => rfl⟩
theorem envHostByte (c y : Byte) : Statement (.envHostByte c y) := chan_check c
theorem envHostTake (c : Byte) : Statement (.envHostTake c) := chan_check c

end Sys2Proof.Laws.OperandChecks
end

