-- ==== Sys2Proof/Laws/Safety.lean ====
section
/-! SUPPORT. What the clauses of the invariant say, and how the queue of host events keeps its own. -/

namespace Sys2Proof.Machine

/-- The invariant, clause by clause. -/
theorem inv_iff (s : State) : s.inv = true ↔ s.cfg.legal = true ∧ contextOk s = true ∧ uartOk s = true
    ∧ queuesOk s = true ∧ connectionsAlternate s.hostconn s.evq = true ∧ (s.gie = true → s.booted = true)
    ∧ s.fault.toNat ≤ 8 := by
  simp only [State.inv, Bool.and_eq_true, Bool.or_eq_true, Bool.not_eq_true', decide_eq_true_eq, and_assoc]
  cases s.gie <;> cases s.booted <;> simp

theorem withinCap_iff (c : Params) (n : Nat) : withinCap c n = true ↔ ∀ k, c.usbqCap = some k → n ≤ k := by
  unfold withinCap
  cases c.usbqCap <;> simp

/-- The queues' clause, by channel. -/
theorem queuesOk_iff (s : State) : queuesOk s = true ↔
    (∀ c k, s.cfg.usbqCap = some k → (s.inq c).length ≤ k)
      ∧ (∀ c k, s.cfg.usbqCap = some k → (s.outq c).length ≤ k)
      ∧ (s.hostconn = false → s.inq0 = [] ∧ s.inq1 = []) := by
  simp only [queuesOk, Bool.and_eq_true, withinCap_iff]
  constructor
  · rintro ⟨⟨⟨⟨a, b⟩, c⟩, d⟩, e⟩
    exact ⟨fun x => by cases x; exact a; exact b, fun x => by cases x; exact c; exact d,
      fun h => by simpa [h] using e⟩
  · rintro ⟨a, b, c⟩
    refine ⟨⟨⟨⟨a .data, a .control⟩, b .data⟩, b .control⟩, ?_⟩
    cases h : s.hostconn
    · simpa using c h
    · rfl

/-- A report does not touch the alternation. -/
theorem connectionsAlternate_append_clsChg (b : Bool) (q : List UsbEvent) (c : Chan) (m : Half) :
    connectionsAlternate b (q ++ [.clsChg c m]) = connectionsAlternate b q := by
  induction q with
  | nil => simp [connectionsAlternate]
  | cons e q ih => cases e <;> simp [connectionsAlternate, ih, List.find?_append]

/-- Delivering the head keeps the alternation. -/
theorem connectionsAlternate_tail {b : Bool} {e : UsbEvent} {q : List UsbEvent}
    (h : connectionsAlternate b (e :: q) = true) : connectionsAlternate b q = true := by
  cases e <;> simp_all [connectionsAlternate]

end Sys2Proof.Machine
end

