-- ==== Sys2Proof/Machine/Assembler.lean ====
section
/-! DEFINITION. The assembler syntax of one word (30_encoding.md R91): a mnemonic and its operands, an
index operand as a number or a name, a value operand as a number or a name, `baud=<n>` for UART_INIT. -/

namespace Sys2Proof.Machine

/-- One operand as written. -/
inductive AsmOperand where
  | num (n : Nat)
  | name (s : String)
  | baud (n : Nat)
  deriving DecidableEq, Repr

/-- Which names an index operand may use. -/
inductive IndexKind where
  | unused
  | pin
  | line
  | channel
  | register
  deriving DecidableEq, Repr

/-- Pin names (10_state.md R28). -/
def pinNames : List String :=
  ["PRSW", "MSSW", "BUS0", "BUS1", "BUS2", "KNOB0", "KNOB1", "KNOB2", "KNOB3", "LINEA", "LINEB",
    "PROUT", "MSOUT", "CSOUT"]

/-- Line names (30_encoding.md R91). -/
def lineNames : List String := ["A", "B"]

/-- Register names (10_state.md R54). -/
def registerNames : List String :=
  ["CTRL", "FLAGS", "IND", "CTXR", "OUTLAT", "OUTDIR", "SYNCIN", "ADDR", "CLS0_LO", "CLS0_HI", "CLS1_LO",
    "CLS1_HI", "RXDATA", "BAUD_LO", "BAUD_HI", "FAULTR"]

/-- The position of a name in a list of names. -/
def indexOfName (names : List String) (s : String) : Option Nat :=
  names.findIdx? (fun t => decide (t = s))

/-- The value names of 30_encoding.md R91, with the codes of 00_scope.md R14. -/
def valueName (s : String) : Option Nat :=
  match s with
  | "PROGRAM" => some 1
  | "RUN" => some 0
  | "MASTER" => some 1
  | "SLAVE" => some 0
  | "OUT" => some 1
  | "IN" => some 0
  | _ => none

/-- OPC, shape and index names of a mnemonic (30_encoding.md R83). -/
def asmRow (mn : String) : Option (Byte × Shape × IndexKind) :=
  match mn with
  | "GPIO_READ" => some (0x01, .i, .pin)
  | "GPIO_WRITE" => some (0x02, .ib, .pin)
  | "GPIO_DIR" => some (0x03, .ib, .pin)
  | "UART_INIT" => some (0x10, .m, .unused)
  | "UART_DEINIT" => some (0x11, .n, .unused)
  | "UART_TX" => some (0x12, .y, .unused)
  | "UART_IE_ON" => some (0x13, .n, .unused)
  | "UART_IE_OFF" => some (0x14, .n, .unused)
  | "TMR_INIT" => some (0x20, .n, .unused)
  | "EXT_CONFIG" => some (0x28, .ib, .line)
  | "IRQ_GLOBAL" => some (0x29, .b, .unused)
  | "ARB_DETECT_RUNMODE" => some (0x30, .n, .unused)
  | "ARB_DETECT_ROLE" => some (0x31, .n, .unused)
  | "ARB_UPDATE_RUNMODE" => some (0x32, .b, .unused)
  | "ARB_UPDATE_ROLE" => some (0x33, .b, .unused)
  | "ARB_ADDR_MATCH" => some (0x34, .n, .unused)
  | "USB_RECV" => some (0x40, .i, .channel)
  | "USB_SEND" => some (0x41, .iy, .channel)
  | "USB_SERVICE" => some (0x42, .i, .channel)
  | "REG_READ" => some (0x50, .i, .register)
  | "CB_CLS" => some (0x60, .im, .channel)
  | "CB_CONNECT" => some (0x61, .n, .unused)
  | "CB_DISCONNECT" => some (0x62, .n, .unused)
  | "H_EXT_A" => some (0x70, .n, .unused)
  | "H_EXT_B" => some (0x71, .n, .unused)
  | "H_TICK" => some (0x72, .n, .unused)
  | "H_URX" => some (0x73, .n, .unused)
  | "H_UTX" => some (0x74, .n, .unused)
  | "RETI" => some (0x7F, .n, .unused)
  | "ENV_PIN" => some (0x80, .ib, .pin)
  | "SYNC_SAMPLE" => some (0x81, .i, .pin)
  | "ENV_UART_RX" => some (0x82, .y, .unused)
  | "ENV_TX_DONE" => some (0x83, .n, .unused)
  | "ENV_TICK" => some (0x84, .n, .unused)
  | "ENV_HOST_CLS" => some (0x85, .im, .channel)
  | "ENV_HOST_CONNECT" => some (0x86, .n, .unused)
  | "ENV_HOST_DISCONNECT" => some (0x87, .n, .unused)
  | "ENV_HOST_BYTE" => some (0x88, .iy, .channel)
  | "ENV_HOST_TAKE" => some (0x89, .i, .channel)
  | _ => none

/-- An index operand; it must fit SUB. -/
def indexOperand (k : IndexKind) (x : AsmOperand) : Option Byte :=
  match x with
  | .num n => if n < 256 then some (BitVec.ofNat 8 n) else none
  | .name s =>
    (match k with
      | .pin => indexOfName pinNames s
      | .line => indexOfName lineNames s
      | .register => indexOfName registerNames s
      | .channel => none
      | .unused => none).map (BitVec.ofNat 8)
  | .baud _ => none

/-- The values a shape's DATA field can hold: 2 for a bit, 256 for a byte, 65536 for 16 bits, 0 for none. -/
def Shape.valueBound : Shape → Nat
  | .n => 0
  | .i => 0
  | .ib => 2
  | .iy => 256
  | .im => 65536
  | .b => 2
  | .y => 256
  | .m => 65536

/-- A value operand of a shape. The shape M is UART_INIT's alone and takes `baud=<n>` with n a multiple of
100, encoded n / 100; every other shape takes a number or a name. -/
def valueOperand (shape : Shape) (x : AsmOperand) : Option Half :=
  match shape, x with
  | .m, .baud n => if n % 100 = 0 ∧ n / 100 < 65536 then some (BitVec.ofNat 16 (n / 100)) else none
  | .m, .num _ => none
  | .m, .name _ => none
  | _, .baud _ => none
  | _, .num n => if n < Shape.valueBound shape then some (BitVec.ofNat 16 n) else none
  | _, .name s => (valueName s).map (BitVec.ofNat 16)

/-- The shape has an index operand. -/
def Shape.hasIndex : Shape → Bool
  | .n => false
  | .i => true
  | .ib => true
  | .iy => true
  | .im => true
  | .b => false
  | .y => false
  | .m => false

/-- The word of a mnemonic and its operands (30_encoding.md R91, R79). -/
def assemble (mn : String) (ops : List AsmOperand) : Option Word :=
  match asmRow mn with
  | none => none
  | some (opc, shape, kind) =>
    match Shape.hasIndex shape, decide (0 < Shape.valueBound shape), ops with
    | false, false, [] => some (opc ++ (0 : Byte) ++ (0 : Half))
    | true, false, [x] => (indexOperand kind x).map fun i => opc ++ i ++ (0 : Half)
    | false, true, [v] => (valueOperand shape v).map fun d => opc ++ (0 : Byte) ++ d
    | true, true, [x, v] =>
      match indexOperand kind x, valueOperand shape v with
      | some i, some d => some (opc ++ i ++ d)
      | _, _ => none
    | _, _, _ => none

end Sys2Proof.Machine
end

