-- ==== Sys2Proof/Tests/Slice0.lean ====
section
/-! SUPPORT. Tests: the well-formedness checks, words written out from 30_encoding.md and 95_test_vectors.md
section 2.1, one-step vectors of 95_test_vectors.md section 2, and a witness that meets the hypotheses of each
statement of Certificates/Slice0/Obligations.lean. -/

namespace Sys2Proof.Tests

open Sys2Proof Sys2Proof.Machine

/-! ## States and readers of outcomes -/

/-- S_R of 95_test_vectors.md: FG is ready, BOOTED = 0. -/
def ready : State := State.reset

/-- S_B of 95_test_vectors.md, its HIST left out. -/
def bootedUp : State :=
  { State.reset with dir := ⟨.out, .out, .out⟩, tmrEn := true, extaEn := true, extbEn := true, gie := true,
                     booted := true, fgpc := 7 }

/-- S_B with the UART channel on, as the vectors of sections 1.5 to 1.7 start. -/
def uartOn : State := { bootedUp with uartEn := true, uartIe := true, baud := 96 }

/-- S_B with the USB host connected. -/
def hosted : State := { bootedUp with hostconn := true }

/-- P_USBQ_CAP = 1. -/
def capOne : Params := { Params.default with usbqCap := some 1 }

/-- One scheduled action. -/
def sched (a : Action) (s : State) : State := { s with sched := [a] }

/-- A next state that satisfies `p`. -/
def after (r : Result) (p : State → Bool) : Bool :=
  match r with
  | .next t => p t
  | .fault _ => false
  | .refused _ => false

/-- The FAULT code of the next state. -/
def codeOf (r : Result) : Option Byte :=
  match r with
  | .next t => some t.fault
  | .fault _ => none
  | .refused _ => none

/-- "not a step". -/
def isRefused (r : Result) : Bool :=
  match r with
  | .next _ => false
  | .fault _ => false
  | .refused _ => true

/-! ## WellFormed refuses an ill-formed term for each of its checks -/

theorem test_wf_pin : (Instr.gpioRead 14).wellFormed = false ∧ (Instr.gpioRead 13).wellFormed = true := by decide

theorem test_wf_outputPin : (Instr.gpioWrite 10 true).wellFormed = false ∧
    (Instr.gpioDir 14 .out).wellFormed = false ∧ (Instr.gpioWrite 11 true).wellFormed = true := by decide

theorem test_wf_inputPin : (Instr.envPin 11 true).wellFormed = false ∧
    (Instr.syncSample 11).wellFormed = false ∧ (Instr.syncSample 10).wellFormed = true := by decide

theorem test_wf_channel : (Instr.usbRecv 2).wellFormed = false ∧ (Instr.usbSend 2 0).wellFormed = false ∧
    (Instr.usbService 2).wellFormed = false ∧ (Instr.cbCls 2 0).wellFormed = false ∧
    (Instr.envHostCls 2 0).wellFormed = false ∧ (Instr.envHostByte 2 0).wellFormed = false ∧
    (Instr.envHostTake 2).wellFormed = false ∧ (Instr.usbRecv 1).wellFormed = true := by decide

theorem test_wf_line : (Instr.extConfig 2 true).wellFormed = false ∧
    (Instr.extConfig 1 true).wellFormed = true := by decide

theorem test_wf_register : (Instr.regRead 16).wellFormed = false ∧ (Instr.regRead 15).wellFormed = true := by
  decide

theorem test_wf_uartInit : (Instr.uartInit 0).wellFormed = false ∧ (Instr.uartInit 1).wellFormed = true := by
  decide

/-! ## Decoding: one word per constructor, from 30_encoding.md R83 and the table of 95_test_vectors.md 2.1 -/

theorem test_decode_gpioRead : decode 0x010D0000 = .ok (.gpioRead 13) := by decide
theorem test_decode_gpioWrite : decode 0x020C0000 = .ok (.gpioWrite 12 false) := by decide
theorem test_decode_gpioDir : decode 0x030B0001 = .ok (.gpioDir 11 .out) := by decide
theorem test_decode_uartInit : decode 0x10000480 = .ok (.uartInit 1152) := by decide
theorem test_decode_uartDeinit : decode 0x11000000 = .ok .uartDeinit := by decide
theorem test_decode_uartTx : decode 0x120000FF = .ok (.uartTx 0xFF) := by decide
theorem test_decode_uartIeOn : decode 0x13000000 = .ok .uartIeOn := by decide
theorem test_decode_uartIeOff : decode 0x14000000 = .ok .uartIeOff := by decide
theorem test_decode_tmrInit : decode 0x20000000 = .ok .tmrInit := by decide
theorem test_decode_extConfig : decode 0x28010001 = .ok (.extConfig 1 true) := by decide
theorem test_decode_irqGlobal : decode 0x29000000 = .ok (.irqGlobal false) := by decide
theorem test_decode_arbDetectRunmode : decode 0x30000000 = .ok .arbDetectRunmode := by decide
theorem test_decode_arbDetectRole : decode 0x31000000 = .ok .arbDetectRole := by decide
theorem test_decode_arbUpdateRunmode : decode 0x32000001 = .ok (.arbUpdateRunmode .program) := by decide
theorem test_decode_arbUpdateRole : decode 0x33000001 = .ok (.arbUpdateRole .master) := by decide
theorem test_decode_arbAddrMatch : decode 0x34000000 = .ok .arbAddrMatch := by decide
theorem test_decode_usbRecv : decode 0x40010000 = .ok (.usbRecv 1) := by decide
theorem test_decode_usbSend : decode 0x41000041 = .ok (.usbSend 0 0x41) := by decide
theorem test_decode_usbService : decode 0x42010000 = .ok (.usbService 1) := by decide
theorem test_decode_regRead : decode 0x500F0000 = .ok (.regRead 15) := by decide
theorem test_decode_cbCls : decode 0x60010002 = .ok (.cbCls 1 2) := by decide
theorem test_decode_cbConnect : decode 0x61000000 = .ok .cbConnect := by decide
theorem test_decode_cbDisconnect : decode 0x62000000 = .ok .cbDisconnect := by decide
theorem test_decode_hExtA : decode 0x70000000 = .ok .hExtA := by decide
theorem test_decode_hExtB : decode 0x71000000 = .ok .hExtB := by decide
theorem test_decode_hTick : decode 0x72000000 = .ok .hTick := by decide
theorem test_decode_hUrx : decode 0x73000000 = .ok .hUrx := by decide
theorem test_decode_hUtx : decode 0x74000000 = .ok .hUtx := by decide
theorem test_decode_reti : decode 0x7F000000 = .ok .reti := by decide
theorem test_decode_envPin : decode 0x80080001 = .ok (.envPin 8 true) := by decide
theorem test_decode_syncSample : decode 0x81020000 = .ok (.syncSample 2) := by decide
theorem test_decode_envUartRx : decode 0x82000041 = .ok (.envUartRx 0x41) := by decide
theorem test_decode_envTxDone : decode 0x83000000 = .ok .envTxDone := by decide
theorem test_decode_envTick : decode 0x84000000 = .ok .envTick := by decide
theorem test_decode_envHostCls : decode 0x85000003 = .ok (.envHostCls 0 3) := by decide
theorem test_decode_envHostConnect : decode 0x86000000 = .ok .envHostConnect := by decide
theorem test_decode_envHostDisconnect : decode 0x87000000 = .ok .envHostDisconnect := by decide
theorem test_decode_envHostByte : decode 0x88010007 = .ok (.envHostByte 1 0x07) := by decide
theorem test_decode_envHostTake : decode 0x89000000 = .ok (.envHostTake 0) := by decide

/-- 20_memory.md R62, the two examples of 95_test_vectors.md 2.1. -/
theorem test_serialize : serialize 0x030B0001 = [0x01, 0x00, 0x0B, 0x03] ∧
    serialize 0x60000003 = [0x03, 0x00, 0x00, 0x60] := by decide

/-- The words come out of the serialized form as they went in, and a partial word is none (R64). -/
theorem test_wordOfBytes : wordOfBytes [0x01, 0x00, 0x0B, 0x03, 0xAA] = some (0x030B0001, [0xAA]) ∧
    wordOfBytes [0x01, 0x00, 0x0B] = none := by decide

/-- Some of the assembly table of 95_test_vectors.md 2.1, one row per kind of operand. -/
theorem test_assemble : assemble "GPIO_DIR" [.name "CSOUT", .name "IN"] = some 0x030D0000 ∧
    assemble "UART_INIT" [.baud 115200] = some 0x10000480 ∧
    assemble "EXT_CONFIG" [.name "A", .num 0] = some 0x28000000 ∧
    assemble "REG_READ" [.name "CTRL"] = some 0x50000000 ∧
    assemble "ENV_HOST_BYTE" [.num 1, .num 7] = some 0x88010007 ∧
    assemble "ARB_UPDATE_ROLE" [.name "MASTER"] = some 0x33000001 := by decide

/-- 70_reset_and_hazards.md R213 and the table of 95_test_vectors.md section 0: the reference script. -/
theorem test_referenceScript : referenceScript Params.default =
    [.word 0x030B0001, .word 0x030C0001, .word 0x030D0001, .word 0x20000000, .word 0x28000001,
      .word 0x28010001, .word 0x29000001, .word 0x40000000, .bnone 10, .resWord 0x12000000,
      .word 0x42000000, .word 0x42010000, .goto 7] := by decide

/-! ## The checks, in their order (95_test_vectors.md 2.1) -/

/-- V2.1b to V2.1k. -/
theorem test_checks_opcode_context_reserved_pin :
    [codeOf (presentWord .fg 0x00000000 ready), codeOf (presentWord .env 0xFF000000 ready),
      codeOf (presentWord .mux 0x7E000000 ready), codeOf (presentWord .fg 0x8400FFFF ready),
      codeOf (presentWord .fg 0x01FF0001 ready), codeOf (presentWord .fg 0x01FF0000 ready),
      codeOf (presentWord .fg 0x010E0000 ready)]
    = [some 0x01, some 0x01, some 0x01, some 0x06, some 0x02, some 0x03, some 0x03] := by decide

/-- V2.1n to V2.1y. -/
theorem test_checks_operands_ownership :
    [codeOf (presentWord .fg 0x020B0001 bootedUp), codeOf (presentWord .fg 0x020E0003 bootedUp),
      codeOf (presentWord .fg 0x10000000 ready), codeOf (presentWord .fg 0x10010060 ready),
      codeOf (presentWord .fg 0x28020001 ready), codeOf (presentWord .fg 0x29000002 ready),
      codeOf (presentWord .fg 0x32000001 bootedUp), codeOf (presentWord .fg 0x30000000 bootedUp),
      codeOf (presentWord .fg 0x40020000 ready)]
    = [some 0x07, some 0x02, some 0x02, some 0x02, some 0x02, some 0x02, some 0x07, some 0x00, some 0x04] := by
  decide

/-- V2.1aa to V2.1aj. -/
theorem test_checks_registers_classes :
    [codeOf (presentWord .fg 0x50100000 ready), codeOf (presentWord .fg 0x60000003 ready),
      codeOf (presentWord .fg 0x70000000 ready), codeOf (presentWord .mux 0x7F000000 ready),
      codeOf (presentWord .env 0x81000000 ready), codeOf (presentWord .sync 0x810B0000 ready),
      codeOf (presentWord .env 0x800B0001 ready), codeOf (presentWord .env 0x85020003 hosted),
      codeOf (presentWord .env 0x88000155 hosted)]
    = [some 0x05, some 0x06, some 0x06, some 0x06, some 0x06, some 0x03, some 0x03, some 0x04, some 0x02] := by
  decide

/-! ## One step per instruction (95_test_vectors.md section 2) -/

/-- V2.2b, V2.2c. -/
theorem test_gpioRead :
    after (exec (.gpioRead 1) { ready with pin := { ready.pin with mssw := true } }) (·.res = some 0) ∧
    after (exec (.gpioRead 11) { ready with lat := ⟨some true, none, none⟩ })
      (fun t => t.res = some 1 && t.outLevel .prout true = .z) := by decide

/-- V2.2e. -/
theorem test_gpioWrite :
    after (exec (.gpioWrite 13 true) ready) (fun t => t.lat = ⟨none, none, some true⟩ &&
      t.hist = [.word .fg 0x020D0001, .pinwrite .csout true]) := by decide

/-- V2.2f, V2.2g. -/
theorem test_gpioDir :
    after (exec (.gpioDir 13 .out) { ready with lat := ⟨none, none, some true⟩ })
      (fun t => t.outLevel .csout false = .level true) ∧
    after (exec (.gpioDir 13 .inp) { ready with lat := ⟨none, none, some true⟩, dir := ⟨.inp, .inp, .out⟩ })
      (fun t => t.outLevel .csout false = .z && t.lat.csout = some true) := by decide

/-- V2.3a, V2.3b. -/
theorem test_uartInit :
    after (exec (.uartInit 96) ready) (fun t => t.uartEn && t.baud = 96 && !t.uartIe) ∧
    after (exec (.uartInit 192) { uartOn with rxfull := true, rxdata := some 0x33 })
      (fun t => t.baud = 192 && t.rxdata = some 0x33 && t.rxfull) := by decide

/-- V2.3e. -/
theorem test_uartDeinit :
    after (exec .uartDeinit { uartOn with rxfull := true, rxdata := some 0x33, txbuf := some 0x55, txc := true })
      (fun t => !t.uartEn && !t.uartIe && !t.rxfull && !t.txc && t.rxdata = none && t.txbuf = none
        && t.baud = 96) := by decide

/-- V2.3g, V2.3h. -/
theorem test_uartTx :
    after (exec (.uartTx 0x41) uartOn) (fun t => t.txbuf = some 0x41 && t.fgpc = 8) ∧
    after (exec (.uartTx 0x41) { uartOn with txbuf := some 0x40 })
      (fun t => t.txbuf = some 0x40 && t.fgpc = 7) := by decide

/-- V2.3j. -/
theorem test_uartIeOn :
    after (exec .uartIeOn { bootedUp with uartEn := true, rxfull := true, rxdata := some 1 })
      (fun t => t.dispatchable .urx) := by decide

/-- V2.3k. -/
theorem test_uartIeOff :
    after (exec .uartIeOff { uartOn with txc := true }) (fun t => !t.uartIe && t.txc) := by decide

/-- V2.4a. -/
theorem test_tmrInit : after (exec .tmrInit ready) (·.tmrEn) := by decide

/-- V2.5f, V2.5g. -/
theorem test_extConfig :
    after (exec (.extConfig 1 true) { bootedUp with extbEn := false, pendExtb := true })
      (fun t => t.dispatchable .extB) ∧
    after (exec (.extConfig 0 false) { bootedUp with pendExta := true })
      (fun t => !t.extaEn && t.pendExta && t.extbEn) := by decide

/-- V2.9r, V2.9s. -/
theorem test_irqGlobal :
    after (exec (.irqGlobal true) ready) (fun t => t.gie && t.booted) ∧
    after (exec (.irqGlobal false) bootedUp) (fun t => !t.gie && t.booted) := by decide

/-- V1.2a, V1.2c. -/
theorem test_arbDetectRunmode :
    after (exec .arbDetectRunmode { ready with sync := { ready.sync with prsw := true } })
      (·.res = some 1) ∧
    after (exec .arbDetectRunmode { ready with cfg := { ready.cfg with prswProgramLevel := false } })
      (·.res = some 1) := by decide

/-- V2.6a, V2.6b. -/
theorem test_arbDetectRole :
    after (exec .arbDetectRole ready) (·.res = some 0) ∧
    after (exec .arbDetectRole { ready with cfg := { ready.cfg with msswMasterLevel := false } })
      (·.res = some 1) := by decide

/-- V2.6d. -/
theorem test_arbUpdateRunmode :
    after (exec (.arbUpdateRunmode .run) { ready with lat := ⟨some false, none, none⟩ })
      (fun t => t.lat.prout = some false && t.hist = [.word .fg 0x32000000, .pinwrite .prout false]) := by
  decide

/-- V2.6e (BUS = 3, KNOB = 11), V2.6g. -/
theorem test_arbUpdateRole :
    after (exec (.arbUpdateRole .slave) { ready with sync := { ready.sync with
        bus0 := true, bus1 := true, knob0 := true, knob1 := true, knob3 := true } })
      (fun t => t.lat = ⟨none, some false, some true⟩ && t.tMatch = none &&
        t.hist = [.word .fg 0x33000000, .pinwrite .msout false, .pinwrite .csout true]) ∧
    after (exec (.arbUpdateRole .master) { ready with lat := ⟨none, none, some false⟩ })
      (fun t => t.lat = ⟨none, some true, some false⟩) := by decide

/-- V1.1b (7, 7) and V1.1c (7, 15). -/
theorem test_arbAddrMatch :
    after (exec .arbAddrMatch { ready with sync := { ready.sync with
        bus0 := true, bus1 := true, bus2 := true, knob0 := true, knob1 := true, knob2 := true } })
      (·.res = some 1) ∧
    after (exec .arbAddrMatch { ready with sync := { ready.sync with
        bus0 := true, bus1 := true, bus2 := true, knob0 := true, knob1 := true, knob2 := true, knob3 := true } })
      (·.res = some 0) := by decide

/-- V2.7a, V2.7d. -/
theorem test_usbRecv :
    after (exec (.usbRecv 0) { ready with inq0 := [0x41, 0x42] })
      (fun t => t.res = some 0x0041 && t.inq0 = [0x42]) ∧
    after (exec (.usbRecv 0) { ready with inq1 := [0x07] })
      (fun t => t.res = some 0x0100 && t.inq1 = [0x07]) := by decide

/-- V2.7e, V2.7f. -/
theorem test_usbSend :
    after (exec (.usbSend 1 0x07) ready) (fun t => t.outq1 = [0x07] && t.outq0 = []) ∧
    after (exec (.usbSend 0 0x11) { ready with cfg := capOne, outq0 := [0x10] })
      (fun t => t.fault = 0x08 && t.outq0 = [0x10]) := by decide

/-- V2.7h. -/
theorem test_usbService :
    after (exec (.usbService 1) bootedUp)
      (fun t => t = { bootedUp with fgpc := 8, hist := [.word .fg 0x42010000] }) := by decide

/-- V2.9j without its free bit, V2.9k. -/
theorem test_regRead :
    after (exec (.regRead 4) { ready with lat := ⟨some true, some false, some true⟩ })
      (·.res = some 0x003D) ∧
    after (exec (.regRead 7) { ready with sync := { ready.sync with
        bus0 := true, bus2 := true, knob0 := true, knob2 := true, knob3 := true } })
      (·.res = some 0x00D5) := by decide

/-- V2.9g, V2.9q. -/
theorem test_regRead_controlAndFlags :
    after (exec (.regRead 0) bootedUp) (·.res = some 0x007C) ∧
    after (exec (.regRead 1) { ready with pendExtb := true, rxfull := true, rxdata := some 1, txbuf := some 0x41 })
      (·.res = some 0x000A) := by decide

/-- V2.3p, the first step. -/
theorem test_cbCls :
    after (exec (.cbCls 1 2) { uartOn with cls0 := 3, evq := [.clsChg .control 2] })
      (fun t => t.cls1 = 2 && t.cls0 = 3 && t.clsLast = 2 && t.fgcb = some 2 && t.uartIe && t.evq = []) := by
  decide

/-- V1.4c and V1.4h, the second step. -/
theorem test_cbCls_secondStep :
    after (secondStepOfCls { uartOn with fgcb := some 2 }) (fun t => !t.uartIe && t.fgcb = none) ∧
    after (secondStepOfCls { bootedUp with fgcb := some 0x0103 }) (fun t => !t.uartIe) := by decide

/-- V2.3m. -/
theorem test_cbConnect :
    after (exec .cbConnect { bootedUp with uartIe := true, evq := [.connect] })
      (fun t => t.uartEn && t.uartIe && t.baud = 96 && t.fgpc = 7) := by decide

/-- V2.3n. -/
theorem test_cbDisconnect :
    after (exec .cbDisconnect { uartOn with cls0 := 3, evq := [.disconnect] })
      (fun t => !t.uartEn && !t.uartIe && t.cls0 = 3) := by decide

/-- V1.8, `MUX dispatch 0`. -/
theorem test_hExtA :
    after (exec .hExtA { bootedUp with pendExta := true })
      (fun t => !t.pendExta && t.ctx = .handler .extA && t.hpc = some 0) := by decide

/-- V1.3a, `MUX dispatch 1` and `MUX 4`. -/
theorem test_hExtB :
    after (exec .hExtB { bootedUp with pendExtb := true })
      (fun t => !t.pendExtb && t.ctx = .handler .extB) ∧
    after (microStep .extB { bootedUp with ctx := .handler .extB, hpc := some 4, tBus := some 2, tKnob := some 2 })
      (fun t => t.tMatch = some true && t.lat.csout = some false && t.hpc = some 5) := by decide

/-- V1.7a, `MUX dispatch 2` and `MUX 0`. -/
theorem test_hTick :
    after (exec .hTick { bootedUp with pendTick := true }) (fun t => !t.pendTick && t.hpc = some 0) ∧
    after (microStep .tick { bootedUp with ctx := .handler .tick, hpc := some 0, txi := true, rxi := true })
      (fun t => !t.txi && t.rxi && t.hpc = some 1) := by decide

/-- V1.5, `MUX dispatch 3` and `MUX 0`. -/
theorem test_hUrx :
    after (exec .hUrx { uartOn with rxfull := true, rxdata := some 0x41, cls0 := 3 })
      (fun t => t.tByte = some 0x41 && t.rxdata = none && !t.rxfull) ∧
    after (microStep .urx { uartOn with ctx := .handler .urx, hpc := some 0, tByte := some 0x41, cls0 := 3 })
      (·.hpc = some 1) := by decide

/-- V1.7b, `MUX dispatch 4` and `MUX 0`. -/
theorem test_hUtx :
    after (exec .hUtx { uartOn with txc := true }) (fun t => !t.txc && t.ctx = .handler .utx) ∧
    after (microStep .utx { uartOn with ctx := .handler .utx, hpc := some 0 })
      (fun t => t.txi && t.hpc = some 1) := by decide

/-- V2.9v; V1.8, `MUX 1` leaves for the final step in RUN. -/
theorem test_reti :
    after (exec .reti { uartOn with ctx := .handler .utx, hpc := some 1 })
      (fun t => t.ctx = .fg && t.hpc = none && t.hist = [.word .mux 0x7F000000, .reti .utx]) ∧
    after (microStep .extA { bootedUp with ctx := .handler .extA, hpc := some 1, tMode := some .run })
      (fun t => t.lat.prout = some false && t.hpc = some 7) := by decide

/-- V2.8l. -/
theorem test_envPin :
    after (exec (.envPin 1 true) ready) (fun t => t.pin.mssw && !t.sync.mssw) := by decide

/-- V2.5a, V2.5b. -/
theorem test_syncSample :
    after (exec (.syncSample 9) { bootedUp with pin := { ready.pin with linea := true } })
      (fun t => t.pendExta && t.sync.linea) ∧
    after (exec (.syncSample 9) { bootedUp with sync := { ready.sync with linea := true } })
      (fun t => !t.pendExta && !t.sync.linea) := by decide

/-- V2.8a; V1.5, the first step. -/
theorem test_envUartRx :
    isRefused (exec (.envUartRx 0x41) ready) ∧
    after (exec (.envUartRx 0x41) uartOn) (fun t => t.rxdata = some 0x41 && t.rxfull) := by decide

/-- V2.8c, V2.8d. -/
theorem test_envTxDone :
    isRefused (exec .envTxDone uartOn) ∧
    after (exec .envTxDone { uartOn with txbuf := some 0x41, txc := true })
      (fun t => t.utxline = [0x41] && t.txbuf = none && t.txc) := by decide

/-- V2.4c, V2.4e. -/
theorem test_envTick :
    isRefused (exec .envTick ready) ∧
    after (exec .envTick { bootedUp with pendTick := true }) (·.pendTick) := by decide

/-- V2.8g. -/
theorem test_envHostCls :
    after (exec (.envHostCls 0 3) hosted) (fun t => t.evq = [.clsChg .data 3] && t.cls0 = 0) := by decide

/-- V2.8h. -/
theorem test_envHostConnect :
    isRefused (exec .envHostConnect hosted) ∧
    after (exec .envHostConnect bootedUp) (fun t => t.hostconn && t.evq = [.connect]) := by decide

/-- V2.8i. -/
theorem test_envHostDisconnect :
    after (exec .envHostDisconnect { hosted with
        inq0 := [0x55], inq1 := [0x07], outq0 := [0x41], evq := [.clsChg .data 3] })
      (fun t => !t.hostconn && t.inq0 = [] && t.inq1 = [] && t.outq0 = [] && t.outq1 = []
        && t.evq = [.clsChg .data 3, .disconnect]) := by decide

/-- V2.8e, V2.8f with capacity 1. -/
theorem test_envHostByte :
    isRefused (exec (.envHostByte 0 0x55) bootedUp) ∧
    isRefused (exec (.envHostByte 0 3) { hosted with cfg := capOne, inq0 := [1] }) := by decide

/-- V2.8j, V2.8k. -/
theorem test_envHostTake :
    after (exec (.envHostTake 0) { hosted with outq0 := [0x41, 0x42] }) (·.outq0 = [0x42]) ∧
    isRefused (exec (.envHostTake 1) hosted) := by decide

/-! ## The machine -/

/-- V2.11a: a reset out of a fault, a line high: SYNC takes it and no edge is seen. -/
theorem test_reset :
    after (step (sched .reset { bootedUp with fault := 1, pendExta := true, pin := { ready.pin with linea := true } }))
      (fun t => t.fault = 0 && t.sync.linea && !t.pendExta && t.fgpc = 0) := by decide

/-- V2.6k: `<RES>` with RES = none. -/
theorem test_resStatement_none :
    after (runStmt (.resWord 0x33000000) ready) (·.fault = 0x08) := by decide

/-- 60_exceptions.md R186 before F_MODEL (log 25): GPIO_WRITE PRSW, GPIO_WRITE PROUT and ARB_UPDATE_ROLE with a
`<RES>` that holds none; an OPC that names no operation; a word without a value operand (log 17). -/
theorem test_resStatement_checks :
    [codeOf (runStmt (.resWord 0x02000000) ready), codeOf (runStmt (.resWord 0x020B0000) bootedUp),
      codeOf (runStmt (.resWord 0x020B0000) ready), codeOf (runStmt (.resWord 0x41020000) ready),
      codeOf (runStmt (.resWord 0x15000000) ready)] = [some 0x03, some 0x07, some 0x08, some 0x04, some 0x01] ∧
    isRefused (runStmt (.resWord 0x42000000) ready) := by decide

/-- V2.3i: FG at UART_TX with the channel disabled reports S_TX_DISABLED, while a handler runs
(60_exceptions.md R197) and inside a callback too; an ill-formed UART_TX faults and does not hold. -/
theorem test_stuckReason :
    { bootedUp with fgpc := 9, res := some 0x41 }.stuckReason = some .txDisabled ∧
    { uartOn with fgpc := 9, res := some 0x41 }.stuckReason = none ∧
    { bootedUp with fgpc := 9, res := some 0x41, ctx := .handler .tick, hpc := some 0 }.stuckReason
      = some .txDisabled ∧
    { bootedUp with fgpc := 9, res := some 0x41, fgcb := some 3 }.stuckReason = some .txDisabled ∧
    { bootedUp with fgpc := 0, script := [.word 0x12000141] }.stuckReason = none ∧
    { bootedUp with fgpc := 0, script := [.word 0x12000041] }.stuckReason = some .txDisabled := by decide

/-- The default order (log 2): FG, SYNC, ENV's two, and MUX before them all. -/
theorem test_defaultOrder :
    [ready.turn, { bootedUp with round := 5 }.turn, { uartOn with txbuf := some 1, round := 2 }.turn,
      { bootedUp with round := 3 }.turn, { bootedUp with pendTick := true }.turn,
      { ready with round := 3 }.turn, { ready with fgpc := 13 }.turn]
    = [.script, .word .sync 0x81010000, .word .env 0x83000000, .word .env 0x84000000, .mux,
      .word .sync 0x81000000, .word .sync 0x81000000] := by decide

/-- V2.10b: P_IRQ_PRIO reversed. -/
theorem test_priority :
    { uartOn with pendExta := true, pendTick := true, txc := true }.nextDispatch = some .extA ∧
    { uartOn with pendExta := true, pendTick := true, txc := true,
                  cfg := { Params.default with irqPrio := [.utx, .urx, .tick, .extB, .extA] } }.nextDispatch
      = some .utx := by decide

/-- A word put where the next step takes it from runs, one word of each class. -/
theorem test_withFetchWord :
    after (step (State.reset.withFetchWord 32 0x030B0001)) (fun t => t.dir.prout = .out) ∧
    after (step (State.reset.withFetchWord 32 0x60010002)) (fun t => t.cls1 = 2) ∧
    after (step (State.reset.withFetchWord 32 0x72000000)) (fun t => t.ctx = .handler .tick) ∧
    after (step (State.reset.withFetchWord 32 0x7F000000)) (fun t => t.ctx = .fg) ∧
    after (step (State.reset.withFetchWord 32 0x80000001)) (fun t => t.pin.prsw) := by decide

/-! ## Witnesses: a state and operands that meet the hypotheses of each statement -/

theorem witness_DecodedWordIsTheEncoding : decode 0x030B0001 = .ok (.gpioDir 11 .out) := by decide

theorem witness_MaskAndMatchSelectTheOperation :
    (0x020B0001 : Word) &&& (Instr.gpioWrite 0 false).shape.mask = matchWord (Instr.gpioWrite 0 false).opc := by
  decide

theorem witness_NoWordMatchesTwoRows :
    ((0x020B0001 : Word) &&& (Instr.gpioWrite 0 false).shape.mask = matchWord (Instr.gpioWrite 0 false).opc ∧
      (0x020B0001 : Word) &&& (Instr.gpioWrite 11 true).shape.mask = matchWord (Instr.gpioWrite 11 true).opc)
    ∧ (Instr.gpioWrite 0 false).opc = (Instr.gpioWrite 11 true).opc := by decide

/-- Both ends of every range of OPC. -/
theorem witness_IllegalOpcodeFaults : ∀ w ∈ ([0x00000000, 0x04000000, 0x0F000000, 0x15000000, 0x1F000000,
    0x21000000, 0x27000000, 0x2A000000, 0x2F000000, 0x35000000, 0x3F000000, 0x43000000, 0x4F000000,
    0x51000000, 0x5F000000, 0x63000000, 0x6F000000, 0x75000000, 0x7E000000, 0x8A000000, 0xFF000000] : List Word),
    ready.fault = 0 ∧ (Agent.fg = Agent.fg → ready.fgcb = none) ∧ ∃ o, o = (opcField w).toNat ∧
      (o = 0x00 ∨ (0x04 ≤ o ∧ o ≤ 0x0F) ∨ (0x15 ≤ o ∧ o ≤ 0x1F) ∨ (0x21 ≤ o ∧ o ≤ 0x27)
        ∨ (0x2A ≤ o ∧ o ≤ 0x2F) ∨ (0x35 ≤ o ∧ o ≤ 0x3F) ∨ (0x43 ≤ o ∧ o ≤ 0x4F)
        ∨ (0x51 ≤ o ∧ o ≤ 0x5F) ∨ (0x63 ≤ o ∧ o ≤ 0x6F) ∨ (0x75 ≤ o ∧ o ≤ 0x7E) ∨ 0x8A ≤ o) :=
  fun w hw => ⟨rfl, fun _ => rfl, _, rfl, by fin_cases hw <;> decide⟩

/-- The first faulting check is 1, 2, 3, 4, 5 and 6 in turn. -/
theorem witness_FirstFailingCheckGivesTheFault :
    (ready.fault = 0 ∧ ready.fgcb = none ∧ bootedUp.fault = 0 ∧ bootedUp.fgcb = none)
    ∧ readFields 0x15000000 = none
    ∧ (readFields 0x13000000 = some .uartIeOn ∧ mayPerform .env .uartIeOn ready = false)
    ∧ (readFields 0x020B0003 = some (.gpioWrite 11 true) ∧ mayPerform .fg (.gpioWrite 11 true) ready = true
      ∧ (0x020B0003 : Word) &&& (Instr.gpioWrite 11 true).shape.mask ≠ matchWord (Instr.gpioWrite 11 true).opc)
    ∧ (readFields 0x010E0000 = some (.gpioRead 14) ∧ operandFault (.gpioRead 14) = some .badPin)
    ∧ (readFields 0x10000000 = some (.uartInit 0) ∧ operandFault (.uartInit 0) = some .badOperand)
    ∧ (readFields 0x020B0001 = some (.gpioWrite 11 true) ∧ mayPerform .fg (.gpioWrite 11 true) bootedUp = true
      ∧ (0x020B0001 : Word) &&& (Instr.gpioWrite 11 true).shape.mask = matchWord (Instr.gpioWrite 11 true).opc
      ∧ operandFault (.gpioWrite 11 true) = none ∧ writesOwnedPin (.gpioWrite 11 true) = true
      ∧ bootedUp.booted = true) := by decide

theorem witness_WordOfAnotherAgentOrContextFaults :
    (ready.fault = 0 ∧ ready.fgcb = none)
    ∧ (Instr.uartIeOn.wordClass = .software ∧ Agent.env ≠ .fg)
    ∧ { ready with ctx := .handler .tick }.ctx ≠ .fg
    ∧ Instr.cbConnect.wordClass = .callback
    ∧ (Instr.hTick.wordClass = .handler ∧ Agent.fg ≠ .mux)
    ∧ (Instr.hTick = entryWord .tick ∧ ready.nextDispatch ≠ some .tick)
    ∧ ((Instr.syncSample 0).wordClass = .event ∧ Agent.env ≠ .sync)
    ∧ (Instr.envTick.wordClass = .event ∧ Agent.fg ≠ .env) := by decide

/-- Its clauses that quantify inside: RETI in the foreground, and an event that is no SYNC_SAMPLE. -/
theorem witness_WordOfAnotherAgentOrContextFaults_inner :
    (∀ v, ¬ ready.InHandler v (finalStep v)) ∧ (∃ p, Instr.syncSample 0 = .syncSample p)
    ∧ ¬ (∃ p, Instr.envTick = .syncSample p) :=
  ⟨fun _ h => (nomatch h.2.1), ⟨0, rfl⟩, fun h => (nomatch h)⟩

theorem witness_StepRunsTheDecodedInstruction :
    (sched (.word .env 0x84000000) bootedUp).fault = 0
    ∧ (sched (.word .env 0x84000000) bootedUp).sched = [.word .env 0x84000000]
    ∧ (Agent.env ≠ .fg ∧ decode 0x84000000 = .ok .envTick
      ∧ mayPerform .env .envTick { sched (.word .env 0x84000000) bootedUp with sched := [] } = true)
    ∧ ((sched .script ready).sched = [.script] ∧ (sched .script ready).ctx = .fg
      ∧ (sched .script ready).fgcb = none
      ∧ (sched .script ready).script[(sched .script ready).fgpc]? = some (.word 0x030B0001)
      ∧ decode 0x030B0001 = .ok (.gpioDir 11 .out) ∧ (Instr.gpioDir 11 .out).wordClass = .software)
    ∧ ({ ready with evq := [.connect] }.evq = [.connect])
    ∧ { bootedUp with pendTick := true, sched := [.mux] }.nextDispatch = some .tick
    ∧ (ready.sched = [] ∧ ready.round % 4 = 0 ∧ ready.ctx = .fg ∧ ready.fgcb = none ∧ ready.nextDispatch = none ∧ ready.evq = []
      ∧ ready.script[ready.fgpc]? = some (.word 0x030B0001)) := by decide

theorem witness_ScriptControlStatements :
    (sched .script { ready with fgpc := 8, res := some 0x0100 }).FgReady
    ∧ (sched .script { ready with fgpc := 8, res := some 0x0100 }).sched = [.script]
    ∧ { ready with fgpc := 8 }.script[8]? = some (.bnone 10)
    ∧ { ready with fgpc := 8 }.res ≠ some 0x0100
    ∧ { ready with fgpc := 12 }.script[12]? = some (.goto 7)
    ∧ ({ ready with fgpc := 9 }.script[9]? = some (.resWord (encode (.uartTx 0))) ∧ ready.res = none
      ∧ (Instr.uartTx 0).wordClass = .software ∧ (Instr.uartTx 0).shape = .y
      ∧ operandFault (.uartTx 0) = none ∧ writesOwnedPin (.uartTx 0) = false) := by decide

/-- Its clauses about an index and an ownership check that fail. -/
theorem witness_ScriptControlStatements_checks :
    (∀ i ∈ [Instr.gpioWrite 10 false, .gpioWrite 11 false], i.wordClass = .software ∧ i.shape = .ib
      ∧ { bootedUp with fgpc := 0, script := [.resWord (encode i)] }.FgReady
      ∧ { bootedUp with fgpc := 0, script := [.resWord (encode i)] }.script[0]? = some (.resWord (encode i)))
    ∧ bootedUp.res = none ∧ operandFault (.gpioWrite 10 false) = some .badPin
    ∧ (operandFault (.gpioWrite 11 false) = none ∧ writesOwnedPin (.gpioWrite 11 false) = true
      ∧ bootedUp.booted = true ∧ ready.booted = false) := by decide

/-- A script whose one statement takes its operand from RES. -/
def resScript (i : Instr) : State :=
  sched .script { ready with res := some 0x0141, script := [.resWord (encode i)] }

theorem witness_ResStatementTakesItsOperandFromRes :
    ∀ i ∈ [Instr.gpioWrite 11 false, .gpioDir 13 .inp, .extConfig 1 false, .irqGlobal false,
        .arbUpdateRunmode .run, .arbUpdateRole .slave, .uartTx 0, .usbSend 1 0],
      (resScript i).FgReady ∧ (resScript i).sched = [.script] ∧ (resScript i).res = some 0x0141
      ∧ (resScript i).script[(resScript i).fgpc]? = some (.resWord (encode i)) := by decide

theorem witness_FaultFreezesEveryAgentUntilReset :
    { ready with fault := 1 }.fault ≠ 0 ∧ { ready with fault := 1 }.turn ≠ .reset := by decide

/-- Pins 0, 10 (inputs), 11, 13 (outputs), 14 (none). -/
theorem witness_GpioReadReturnsTheLevel :
    ready.FgReady ∧ InPin.ofId 0 = some .prsw ∧ InPin.ofId 10 = some .lineb
    ∧ (OutPin.ofId 11 = some .prout ∧ { ready with lat := ⟨some true, none, none⟩ }.lat.get .prout = some true)
    ∧ (OutPin.ofId 13 = some .csout ∧ ready.lat.get .csout = none)
    ∧ 13 < (14 : Byte).toNat := by decide

theorem witness_GpioWriteAndDirDuringBringUp :
    ready.FgReady ∧ ready.booted = false ∧ OutPin.ofId 11 = some .prout ∧ OutPin.ofId 13 = some .csout
    ∧ (10 : Byte).toNat < 11 ∧ 13 < (14 : Byte).toNat := by decide

theorem witness_OutputWordsFaultAfterBringUp :
    bootedUp.FgReady ∧ bootedUp.booted = true ∧ 11 ≤ (11 : Byte).toNat ∧ (13 : Byte).toNat ≤ 13 := by decide

/-- A level change on each line, the line enabled and not; a pin without a detector; no change. -/
theorem witness_SyncSampleTakesThePinAndDetectsEdges :
    (InPin.ofId 0 = some .prsw ∧ InPin.ofId 9 = some .linea ∧ InPin.ofId 10 = some .lineb)
    ∧ (InPin.prsw ≠ .linea ∧ InPin.prsw ≠ .lineb)
    ∧ ¬ (ready.sync.linea = false ∧ ready.pin.linea = true)
    ∧ ({ bootedUp with pin := { ready.pin with linea := true } }.fault = 0
      ∧ { bootedUp with pin := { ready.pin with linea := true } }.sync.linea = false
      ∧ { bootedUp with pin := { ready.pin with linea := true } }.pin.linea = true
      ∧ bootedUp.extaEn = true ∧ ready.extaEn = false)
    ∧ ready.sync.lineb = ready.pin.lineb
    ∧ ({ bootedUp with sync := { ready.sync with lineb := true } }.sync.lineb
        ≠ { bootedUp with sync := { ready.sync with lineb := true } }.pin.lineb
      ∧ bootedUp.extbEn = true ∧ ready.extbEn = false) := by decide

theorem witness_OutputLevelSeenOutside :
    ready.dir.get .prout = .inp ∧ (bootedUp.dir.get .prout = .out ∧ bootedUp.lat.get .prout = none)
    ∧ { bootedUp with lat := ⟨some true, none, none⟩ }.lat.get .prout = some true := by decide

theorem witness_UartInitEnablesTheChannel :
    ready.FgReady ∧ (1 : Half) ≠ 0 ∧ (0xFFFF : Half) ≠ 0 ∧ ready.uartEn = false ∧ uartOn.FgReady
    ∧ uartOn.uartEn = true := by decide

theorem witness_UartDeinitDisablesTheChannel : ready.FgReady ∧ uartOn.FgReady := by decide

theorem witness_UartTxWritesOrHolds :
    uartOn.FgReady ∧ (uartOn.uartEn = true ∧ uartOn.txbuf = none) ∧ ready.uartEn = false
    ∧ { uartOn with txbuf := some 0x40 }.txbuf ≠ none := by decide

theorem witness_UartInterruptEnableWords : ready.FgReady := by decide

theorem witness_ConnectAndDisconnectCallbacks :
    { ready with evq := [.connect] }.FgReady ∧ { ready with evq := [.connect] }.evq = [.connect]
    ∧ ready.uartEn = false ∧ uartOn.uartEn = true
    ∧ { ready with evq := [.disconnect] }.evq = [.disconnect] := by decide

theorem witness_ControlLineCallbackInTwoSteps :
    { ready with evq := [.clsChg .data 3] }.fault = 0 ∧ { ready with evq := [.clsChg .data 3] }.ctx = .fg
    ∧ { ready with evq := [.clsChg .data 3] }.fgcb = none
    ∧ { ready with evq := [.clsChg .data 3] }.evq = [.clsChg .data 3]
    ∧ { ready with evq := [.clsChg .control 2] }.evq = [.clsChg .control 2]
    ∧ ({ ready with fgcb := some 3, sched := [.cb2] }.fgcb = some 3
      ∧ { ready with fgcb := some 3, sched := [.cb2] }.sched = [.cb2]) := by decide

/-- A report waiting, its delivery and its second step scheduled. -/
def reported (c : Chan) (m : Half) : State :=
  { ready with evq := [.clsChg c m], sched := [.deliver, .cb2] }

theorem witness_ControlLineGateTruthTable :
    ((reported .control 3).FgReady ∧ (reported .control 3).evq = .clsChg .control 3 :: [])
    ∧ ((reported .data 2).FgReady ∧ (reported .data 2).evq = .clsChg .data 2 :: [])
    ∧ ((reported .data 0x0103).FgReady ∧ (reported .data 0x0103).evq = .clsChg .data 0x0103 :: []
      ∧ (0x0103 : Half) ≠ 3 ∧ (0x0103 : Half) ≠ 2) := by decide

theorem witness_UartLifecycleTable :
    { ready with evq := [.connect], sched := [.deliver] }.FgReady
    ∧ { ready with evq := [.connect], sched := [.deliver] }.sched = .deliver :: []
    ∧ { ready with evq := [.disconnect], sched := [.deliver] }.evq = .disconnect :: []
    ∧ (reported .data 2).evq = .clsChg .data 2 :: []
    ∧ [ready.lifecycle, { ready with uartIe := true }.lifecycle, { ready with uartEn := true }.lifecycle,
        uartOn.lifecycle] = [.off, .offArmed, .onQuiet, .onActive] := by decide

theorem witness_EnableWords : ready.FgReady ∧ 1 < (2 : Byte).toNat := by decide

theorem witness_RegReadFollowsTheRegisterMap :
    ready.FgReady ∧ (∀ n ∈ List.range 16, (BitVec.ofNat 8 n).toNat ≤ 15) ∧ 15 < (16 : Byte).toNat
    ∧ { uartOn with rxdata := some 0x41 }.rxdata = some 0x41 := by decide

theorem witness_EnvTickSetsThePendingTick :
    ready.fault = 0 ∧ ready.tmrEn = false ∧ bootedUp.fault = 0 ∧ bootedUp.tmrEn = true := by decide

theorem witness_ArbitrationReadWords : ready.FgReady := by decide

theorem witness_ArbitrationWriteWords : ready.FgReady ∧ ready.booted = false := by decide

theorem witness_AddressesMatchOnTheEqualPairsOnly : 8 ≤ (8 : BitVec 4).toNat := by decide

theorem witness_UsbRecvTakesTheOldestByte :
    { ready with inq1 := [0x41, 0x42] }.FgReady ∧ { ready with inq1 := [0x41, 0x42] }.inq .control = [0x41, 0x42]
    ∧ ready.inq .control = [] := by decide

theorem witness_UsbSendQueuesOrFaults :
    (ready.FgReady ∧ ∀ cap, ready.cfg.usbqCap = some cap → (ready.outq .data).length < cap)
    ∧ (∀ cap, { ready with cfg := capOne }.cfg.usbqCap = some cap →
        ({ ready with cfg := capOne }.outq .data).length < cap)
    ∧ ({ ready with cfg := capOne, outq0 := [0x10] }.cfg.usbqCap = some 1
      ∧ 1 ≤ ({ ready with cfg := capOne, outq0 := [0x10] }.outq .data).length) :=
  ⟨⟨by decide, fun _ h => (nomatch h)⟩, fun _ h => Option.some.inj h ▸ Nat.zero_lt_one, by decide⟩

theorem witness_UsbServiceChangesNothingButHistory :
    ready.FgReady ∧ (1 : Byte).toNat ≤ 1 ∧ 1 < (2 : Byte).toNat := by decide

theorem witness_DispatchEntersTheHandler :
    { bootedUp with pendExta := true }.nextDispatch = some .extA
    ∧ { bootedUp with pendExtb := true }.nextDispatch = some .extB
    ∧ { bootedUp with pendTick := true }.nextDispatch = some .tick
    ∧ { uartOn with rxfull := true, rxdata := some 0x41 }.nextDispatch = some .urx
    ∧ { uartOn with txc := true }.nextDispatch = some .utx := by decide

/-- The first and the last source of the list; the equation for `requests` names it. -/
theorem witness_DispatchFollowsThePriority :
    bootedUp.cfg.irqPrio = [] ++ .extA :: [.extB, .tick, .urx, .utx]
    ∧ bootedUp.cfg.irqPrio = [.extA, .extB, .tick, .urx] ++ .utx :: [] ∧ bootedUp.cfg.irqPrio.Nodup := by decide

theorem witness_RetiReturnsToTheForeground :
    ready.fault = 0 ∧ ready.ctx = .fg
    ∧ ({ ready with ctx := .handler .extA, hpc := some 7 }.ctx = .handler .extA
      ∧ { ready with ctx := .handler .extA, hpc := some 7 }.hpc = some (finalStep .extA)) := by decide

/-- A handler at its first micro-step, MUX scheduled `n` times. -/
def handlerStart (v : Source) (n : Nat) (l : InLevels) : State :=
  { bootedUp with ctx := .handler v, hpc := some 0, sync := l, sched := List.replicate n .mux }

theorem witness_LineHandlerOutputs :
    ((handlerStart .extA 0 .low).InHandler .extA 0 ∧ (handlerStart .extA 0 .low).detectRunMode = .run)
    ∧ ((handlerStart .extA 0 { InLevels.low with prsw := true }).InHandler .extA 0
      ∧ (handlerStart .extA 0 { InLevels.low with prsw := true }).detectRunMode = .program
      ∧ (handlerStart .extA 0 { InLevels.low with prsw := true }).detectRole = .slave)
    ∧ ((handlerStart .extA 0 { InLevels.low with prsw := true, mssw := true }).detectRunMode = .program
      ∧ (handlerStart .extA 0 { InLevels.low with prsw := true, mssw := true }).detectRole = .master)
    ∧ ((handlerStart .extB 0 .low).InHandler .extB 0 ∧ (handlerStart .extB 0 .low).detectRole = .slave)
    ∧ ((handlerStart .extB 0 { InLevels.low with mssw := true }).InHandler .extB 0
      ∧ (handlerStart .extB 0 { InLevels.low with mssw := true }).detectRole = .master) := by decide

/-- A receive handler that holds the byte 0x41. -/
def receiving (n : Nat) (c : Params) (q : List Byte) (m : Half) : State :=
  { handlerStart .urx n .low with tByte := some 0x41, cls0 := m, cfg := c, outq0 := q }

theorem witness_ReceiveHandlerRelaysOrDrops :
    ((receiving 4 .default [] 3).InHandler .urx 0 ∧ (receiving 4 .default [] 3).tByte = some 0x41
      ∧ (receiving 4 .default [] 3).cfg.rxGateSrc = .data ∧ (3 : Half) = (receiving 4 .default [] 3).cls0
      ∧ (receiving 4 .default [] 3).sched = List.replicate 4 .mux ++ [])
    ∧ ((2 : Half) = (receiving 3 .default [] 2).cls0 ∧ (2 : Half) ≠ 3
      ∧ (receiving 3 .default [] 2).sched = List.replicate 3 .mux ++ [])
    ∧ ((receiving 2 capOne [0x10] 3).InHandler .urx 0
      ∧ (receiving 2 capOne [0x10] 3).cfg.usbqCap = some 1 ∧ 1 ≤ (receiving 2 capOne [0x10] 3).outq0.length
      ∧ (receiving 2 capOne [0x10] 3).sched = List.replicate 2 .mux ++ []) := by decide

/-- Its premise about the capacity, with none and with room for one byte. -/
theorem witness_ReceiveHandlerRelaysOrDrops_room :
    (∀ cap, (receiving 4 .default [] 3).cfg.usbqCap = some cap → (receiving 4 .default [] 3).outq0.length < cap)
    ∧ ∀ cap, (receiving 4 capOne [] 3).cfg.usbqCap = some cap → (receiving 4 capOne [] 3).outq0.length < cap :=
  ⟨fun _ h => (nomatch h), fun _ h => Option.some.inj h ▸ Nat.zero_lt_one⟩

theorem witness_TickAndTransmitHandlers :
    ((handlerStart .tick 3 .low).InHandler .tick 0
      ∧ (handlerStart .tick 3 .low).sched = List.replicate 3 .mux ++ [])
    ∧ ((handlerStart .utx 2 .low).InHandler .utx 0
      ∧ (handlerStart .utx 2 .low).sched = List.replicate 2 .mux ++ []) := by decide

theorem witness_EnvPinSetsThePin :
    ready.fault = 0 ∧ InPin.ofId 0 = some .prsw ∧ InPin.ofId 10 = some .lineb ∧ 10 < (11 : Byte).toNat := by
  decide

theorem witness_EnvUartRxFillsOrOverruns :
    uartOn.fault = 0 ∧ uartOn.uartEn = true ∧ uartOn.rxfull = false ∧ ready.uartEn = false
    ∧ ({ uartOn with rxfull := true, rxdata := some 0x10 }.rxfull = true
      ∧ { uartOn with rxfull := true, rxdata := some 0x10 }.rxdata = some 0x10) := by decide

theorem witness_EnvTxDoneDeliversTheByte :
    uartOn.fault = 0 ∧ uartOn.uartEn = true ∧ { uartOn with txbuf := some 0x41 }.txbuf = some 0x41
    ∧ ready.uartEn = false ∧ uartOn.txbuf = none := by decide

theorem witness_HostSendsAndTakesBytes :
    (hosted.fault = 0 ∧ hosted.hostconn = true ∧ ready.hostconn = false)
    ∧ (∀ cap, hosted.cfg.usbqCap = some cap → (hosted.inq .data).length < cap)
    ∧ (∃ cap, { hosted with cfg := capOne, inq0 := [1] }.cfg.usbqCap = some cap
      ∧ cap ≤ ({ hosted with cfg := capOne, inq0 := [1] }.inq .data).length)
    ∧ { hosted with outq1 := [0x41] }.outq .control = [0x41] ∧ hosted.outq .control = [] :=
  ⟨by decide, fun _ h => (nomatch h), ⟨1, by decide⟩, by decide, by decide⟩

theorem witness_HostReportsAndConnection :
    hosted.fault = 0 ∧ hosted.hostconn = true ∧ ready.fault = 0 ∧ ready.hostconn = false := by decide

theorem witness_HostEventsOfNoChannelFault : ready.fault = 0 ∧ 1 < (2 : Byte).toNat := by decide

/-- The invariant holds at reset, while a handler runs and with the channel on, and a step follows. -/
theorem witness_StepKeepsTheInvariant :
    ready.inv = true ∧ after (step ready) (fun _ => true) ∧ uartOn.inv = true
    ∧ { uartOn with ctx := .handler .urx, hpc := some 0, tByte := some 1 }.inv = true := by decide

/-- And it is no truth of every state. -/
theorem test_inv_refuses :
    { uartOn with rxfull := true }.inv = false ∧ { ready with hpc := some 0 }.inv = false
    ∧ { ready with gie := true }.inv = false ∧ { ready with evq := [.connect] }.inv = false := by decide

theorem witness_StepKeepsHistoryInAgreement : ready.HistAgrees ∧ after (step ready) (fun _ => true) :=
  ⟨⟨fun p => by cases p <;> rfl, fun p => by cases p <;> rfl, rfl, rfl⟩, by decide⟩

theorem witness_HandlersNeverFault :
    (handlerStart .extA 1 .low).inv = true ∧ (handlerStart .extA 1 .low).fault = 0
    ∧ (handlerStart .extA 1 .low).ctx = .handler .extA ∧ (handlerStart .extA 1 .low).cfg.usbqCap = none
    ∧ (handlerStart .extA 1 .low).sched = [.mux] := by decide

/-- A booted step of FG, of MUX that is no line handler's, and of a line handler. -/
theorem witness_OnlyTheLineHandlersWriteOutputsOnceBooted :
    (bootedUp.booted = true ∧ after (step bootedUp) (fun _ => true) ∧ bootedUp.turn = .script)
    ∧ (after (step (handlerStart .tick 1 .low)) (fun _ => true)
      ∧ (handlerStart .tick 1 .low).turn = .mux ∧ (handlerStart .tick 1 .low).ctx ≠ .handler .extA
      ∧ (handlerStart .tick 1 .low).ctx ≠ .handler .extB)
    ∧ ((handlerStart .extA 1 .low).booted = true ∧ after (step (handlerStart .extA 1 .low)) (fun _ => true)
      ∧ (handlerStart .extA 1 .low).turn ≠ .reset) := by decide

theorem witness_NothingIsForgottenShortOfReset :
    after (step bootedUp) (fun _ => true) ∧ bootedUp.turn ≠ .reset ∧ bootedUp.booted = true
    ∧ { bootedUp with lat := ⟨some true, none, none⟩ }.lat.get .prout ≠ none := by decide

/-- Each writer of GIE, TXI and RXI, changing it. -/
theorem witness_IndicatorsAndGlobalEnableHaveTheirWriters :
    (after (step { bootedUp with gie := false, fgpc := 6 }) (fun t => t.gie)
      ∧ { bootedUp with gie := false, fgpc := 6 }.turn ≠ .reset)
    ∧ after (step (handlerStart .utx 1 .low)) (fun t => t.txi)
    ∧ after (step { handlerStart .tick 1 .low with txi := true }) (fun t => !t.txi)
    ∧ after (step { receiving 1 .default [] 3 with hpc := some 2 }) (fun t => t.rxi) := by decide

theorem witness_HandlersRunWithoutTheForeground :
    (handlerStart .tick 1 .low).fault = 0 ∧ (handlerStart .tick 1 .low).ctx = .handler .tick
    ∧ after (step (handlerStart .tick 1 .low)) (fun _ => true)
    ∧ { handlerStart .tick 1 .low with sched := [.script] }.turn = .script
    ∧ { handlerStart .tick 1 .low with sched := [.deliver] }.turn = .deliver
    ∧ { handlerStart .tick 1 .low with sched := [.cb2] }.turn = .cb2 := by decide

/-- FG at the reference script's UART_TX, the channel off: it stays; and the delivery of CONNECT ends it. -/
theorem witness_BlockedTransmitWaitsForConnect :
    ({ bootedUp with fgpc := 9, res := some 0x41 }.atUartTx = true
      ∧ { bootedUp with fgpc := 9, res := some 0x41 }.uartEn = false
      ∧ after (step { bootedUp with fgpc := 9, res := some 0x41 }) (fun _ => true)
      ∧ { bootedUp with fgpc := 9, res := some 0x41 }.turn ≠ .reset)
    ∧ (after (step { bootedUp with fgpc := 9, res := some 0x41, evq := [.connect] }) (fun t => t.uartEn)
      ∧ { bootedUp with fgpc := 9, res := some 0x41, evq := [.connect] }.turn = .deliver) := by decide

theorem witness_OutputsAreRecomputedFromInputsOnly :
    (handlerStart .extA 1 .low).sched = [.mux] ∧ after (step (handlerStart .extA 1 .low)) (fun _ => true) := by
  decide

/-- The last micro-step of a handler, and its first. -/
theorem witness_HandlersReturnWithinTheirSteps :
    ((handlerStart .extA 0 .low).inv = true ∧ (handlerStart .extA 0 .low).InHandler .extA 0
      ∧ (handlerStart .extA 0 .low).cfg.usbqCap = none)
    ∧ ({ handlerStart .utx 0 .low with hpc := some 1 }.inv = true
      ∧ { handlerStart .utx 0 .low with hpc := some 1 }.InHandler .utx 1) := by decide

/-- A line handler about to take its micro-step `k`, every temporary written. -/
def lineStep (v : Source) (k : Nat) (m : RunMode) (r : Role) : State :=
  { handlerStart v 1 .low with hpc := some k, tMode := some m, tRole := some r, tBus := some 2, tKnob := some 10 }

theorem witness_LineHandlerMicroSteps :
    (∀ k ∈ List.range 8, (lineStep .extA k .run .slave).InHandler .extA k)
    ∧ (∀ k ∈ List.range 6, (lineStep .extB k .run .master).InHandler .extB k)
    ∧ (lineStep .extA 1 .run .slave).sched = [.mux]
    ∧ (lineStep .extA 1 .run .slave).tMode = some .run
    ∧ (lineStep .extA 1 .program .slave).tMode = some .program
    ∧ (lineStep .extA 3 .program .slave).tRole = some .slave
    ∧ (lineStep .extB 1 .run .master).tRole = some .master
    ∧ ((lineStep .extA 6 .run .slave).tBus = some 2 ∧ (lineStep .extA 6 .run .slave).tKnob = some 10) := by decide

/-- The values used are those held: SYNC sampled MSSW and BUS0 in between (00_scope.md R8). -/
theorem test_lineHandler_holdsItsValues :
    after (step { lineStep .extB 1 .run .slave with sync := { InLevels.low with mssw := true } })
      (fun t => t.lat.msout = some false && t.hpc = some 2) ∧
    after (step { lineStep .extB 4 .run .slave with tKnob := some 2, sync := { InLevels.low with bus0 := true } })
      (fun t => t.lat.csout = some false && t.tMatch = some true) := by decide

/-- A fair run in which a byte waits at the first step of every round (Laws/Fairness.lean). -/
theorem witness_FairRunsEndTransmissions :
    FairRun Laws.Fairness.order Laws.Fairness.run ∧ (Laws.Fairness.run 1).uartEn = true
    ∧ (Laws.Fairness.run 1).txbuf ≠ none :=
  ⟨Laws.Fairness.fairRun, by decide, by decide⟩

end Sys2Proof.Tests
end

section
/-! O59: the micro-steps of the two line handlers (44_edge.md R133, R134). A scheduled MUX turn in a handler is the
handler's next micro-step; the tables below say which one it is at each index. -/

namespace Sys2Proof.Machine

/-! ## MUX's turn while a handler runs -/

/-- MUX's scheduled turn is a step of MUX, the schedule's entry used up. -/
theorem step_of_sched_mux {s : State} {rest : List Action} (hs : s.sched = .mux :: rest) :
    step s = muxStep { s with sched := rest } := by
  simp [step, stepMachine, State.nextAction, hs, perform]

/-- While a handler runs, a step of MUX is the handler's next micro-step (60_exceptions.md R196). -/
theorem muxStep_of_inHandler {s : State} {v : Source} {k : Nat} (h : s.InHandler v k) :
    muxStep s = microStep v s := by
  obtain ⟨hf, hc, -⟩ := h
  simp [muxStep, hf, hc]

theorem State.InHandler.hpc_eq {s : State} {v : Source} {k : Nat} (h : s.InHandler v k) : s.hpc = some k := by
  obtain ⟨-, -, hh⟩ := h
  exact hh

theorem step_of_inHandler {s : State} {rest : List Action} {v : Source} {k : Nat}
    (hs : s.sched = .mux :: rest) (h : s.InHandler v k) :
    step s = microStep v { s with sched := rest } :=
  (step_of_sched_mux hs).trans (muxStep_of_inHandler (s := { s with sched := rest }) h)

/-- RETI in its place returns (48_system.md R179). -/
theorem execReti_of_inHandler {s : State} {v : Source} (h : s.InHandler v (finalStep v)) :
    execReti s = .next (s.returnFromHandler v) := by
  obtain ⟨hf, hc, hh⟩ := h
  simp [execReti, State.atFinalStep, hf, hc, hh]

/-- The return, written out: RETI's own record comes before `reti(v)` (log 8). -/
theorem returnFromHandler_eq (s : State) (v : Source) :
    s.returnFromHandler v = { s with
      ctx := .fg, hpc := none, hist := s.hist ++ [.word .mux 0x7F000000, .reti v] } := by
  have he : encode .reti = 0x7F000000 := by decide
  simp [State.returnFromHandler, State.record, State.emit, he]

/-- AddressMatches compares the numbers held (45_arbitration.md R145). -/
theorem addressMatches_eq (b : BitVec 3) (n : BitVec 4) : addressMatches b n = decide (b.toNat = n.toNat) := by
  rw [addressMatches, decide_eq_decide, ← BitVec.toNat_inj, BitVec.toNat_setWidth_of_le (by decide)]

/-! ## UpdateRunMode, in the Line A handler -/

section
variable {s : State}

theorem microStep_detectRunMode (h : s.hpc = some 0) :
    microStep .extA s = .next ({ s with tMode := some s.detectRunMode }.setHpc 1) := by
  simp [microStep, microExtA, h]

/-- PROUT is low and the handler over in RUN (44_edge.md R133). -/
theorem microStep_writeRun (h : s.hpc = some 1) (hm : s.tMode = some .run) :
    microStep .extA s = .next ((s.updateRunMode .run).setHpc 7) := by
  simp [microStep, microExtA, modeStepWrite, h, hm]

/-- PROUT is high and the role is next in PROGRAM (44_edge.md R133). -/
theorem microStep_writeProgram (h : s.hpc = some 1) (hm : s.tMode = some .program) :
    microStep .extA s = .next ((s.updateRunMode .program).setHpc 2) := by
  simp [microStep, microExtA, modeStepWrite, h, hm]

end

/-! ## UpdateRoleSeq, in both handlers -/

/-- In the handler of `v`, `T_ROLE <- DetectRole()` stands at micro-step `k`, UpdateRoleSeq at the four after it
(45_arbitration.md R144) and RETI at `ret`. -/
def RoleSequence (v : Source) (k ret : Nat) : Prop := v = .extA ∧ k = 2 ∧ ret = 7 ∨ v = .extB ∧ k = 0 ∧ ret = 5

namespace RoleSequence

variable {v : Source} {k ret : Nat} {s : State}

theorem microStep_detect (hv : RoleSequence v k ret) (h : s.hpc = some k) :
    microStep v s = .next ({ s with tRole := some s.detectRole }.setHpc (k + 1)) := by
  rcases hv with ⟨rfl, rfl, rfl⟩ | ⟨rfl, rfl, rfl⟩ <;> simp [microStep, microExtA, microExtB, h]

/-- SLAVE: MSOUT low, and the bus number is read next. -/
theorem microStep_writeSlave (hv : RoleSequence v k ret) (h : s.hpc = some (k + 1)) (hr : s.tRole = some .slave) :
    microStep v s = .next ((s.writeLat .msout false).setHpc (k + 2)) := by
  rcases hv with ⟨rfl, rfl, rfl⟩ | ⟨rfl, rfl, rfl⟩ <;> simp [microStep, microExtA, microExtB, roleStepWrite, h, hr]

/-- MASTER: MSOUT high, CSOUT untouched, and the handler is over. -/
theorem microStep_writeMaster (hv : RoleSequence v k ret) (h : s.hpc = some (k + 1))
    (hr : s.tRole = some .master) : microStep v s = .next ((s.writeLat .msout true).setHpc ret) := by
  rcases hv with ⟨rfl, rfl, rfl⟩ | ⟨rfl, rfl, rfl⟩ <;> simp [microStep, microExtA, microExtB, roleStepWrite, h, hr]

theorem microStep_bus (hv : RoleSequence v k ret) (h : s.hpc = some (k + 2)) :
    microStep v s = .next ({ s with tBus := some s.fieldBus }.setHpc (k + 3)) := by
  rcases hv with ⟨rfl, rfl, rfl⟩ | ⟨rfl, rfl, rfl⟩ <;> simp [microStep, microExtA, microExtB, roleStepBus, h]

theorem microStep_knob (hv : RoleSequence v k ret) (h : s.hpc = some (k + 3)) :
    microStep v s = .next ({ s with tKnob := some s.fieldKnob }.setHpc (k + 4)) := by
  rcases hv with ⟨rfl, rfl, rfl⟩ | ⟨rfl, rfl, rfl⟩ <;> simp [microStep, microExtA, microExtB, roleStepKnob, h]

/-- CSOUT is low iff the numbers held are equal. -/
theorem microStep_compare {b : BitVec 3} {n : BitVec 4} (hv : RoleSequence v k ret) (h : s.hpc = some (k + 4))
    (hb : s.tBus = some b) (hn : s.tKnob = some n) :
    microStep v s = .next (({ s with tMatch := some (decide (b.toNat = n.toNat)) }.writeLat .csout
      (!decide (b.toNat = n.toNat))).setHpc ret) := by
  rcases hv with ⟨rfl, rfl, rfl⟩ | ⟨rfl, rfl, rfl⟩ <;>
    simp [microStep, microExtA, microExtB, roleStepCompare, h, hb, hn, addressMatches_eq, csLevel]

theorem microStep_reti (hv : RoleSequence v k ret) (h : s.InHandler v ret) :
    microStep v s = .next { s with
      ctx := .fg, hpc := none, hist := s.hist ++ [.word .mux 0x7F000000, .reti v] } := by
  rw [← returnFromHandler_eq]
  rcases hv with ⟨rfl, rfl, rfl⟩ | ⟨rfl, rfl, rfl⟩ <;>
    simpa only [microStep, microExtA, microExtB, h.hpc_eq] using execReti_of_inHandler h

end RoleSequence

/-! ## The statement -/

/-- Settles O59: the scheduled turn is the handler's micro-step, and the tables above say which. -/
theorem lineHandlerMicroSteps : Obligations.LineHandlerMicroSteps := by
  unfold Obligations.LineHandlerMicroSteps
  intro s rest hs
  refine ⟨fun h => ?detectMode, fun h hm => ?run, fun h hm => ?program, fun v k ret hv => ?role⟩
  case detectMode => exact (step_of_inHandler hs h).trans (microStep_detectRunMode h.hpc_eq)
  case run => exact (step_of_inHandler hs h).trans (microStep_writeRun h.hpc_eq hm)
  case program => exact (step_of_inHandler hs h).trans (microStep_writeProgram h.hpc_eq hm)
  case role =>
    have hv : RoleSequence v k ret := hv
    refine ⟨fun h => ?detectRole, fun h hr => ?slave, fun h hr => ?master, fun h => ?bus, fun h => ?knob,
      fun b n hit h hb hn hhit => ?compare, fun h => ?reti⟩
    all_goals rw [step_of_inHandler hs h]
    case detectRole => exact hv.microStep_detect h.hpc_eq
    case slave => exact hv.microStep_writeSlave h.hpc_eq hr
    case master => exact hv.microStep_writeMaster h.hpc_eq hr
    case bus => exact hv.microStep_bus h.hpc_eq
    case knob => exact hv.microStep_knob h.hpc_eq
    case compare => subst hhit; exact hv.microStep_compare h.hpc_eq hb hn
    case reti => exact hv.microStep_reti h

end Sys2Proof.Machine
end

section
/-! O55: while a handler runs nothing of FG's changes (10_state.md R49, 60_exceptions.md R192, R197, 00_scope.md R8).
Each agent's step is shown once to keep the fields that R49 gives to FG alone and to enter no handler. -/

namespace Sys2Proof.Machine

/-! ## What is FG's -/

/-- The fields that only FG writes (10_state.md R49). -/
structure Foreground where
  fgpc : Nat
  fgcb : Option Half
  res : Option Half
  gie : Bool
  booted : Bool
  uartEn : Bool
  uartIe : Bool
  baud : Half
  tmrEn : Bool
  extaEn : Bool
  extbEn : Bool
  cls0 : Half
  cls1 : Half
  clsLast : Half
  dir : OutDirs

def State.foreground (s : State) : Foreground where
  fgpc := s.fgpc
  fgcb := s.fgcb
  res := s.res
  gie := s.gie
  booted := s.booted
  uartEn := s.uartEn
  uartIe := s.uartIe
  baud := s.baud
  tmrEn := s.tmrEn
  extaEn := s.extaEn
  extbEn := s.extbEn
  cls0 := s.cls0
  cls1 := s.cls1
  clsLast := s.clsLast
  dir := s.dir

/-- `t` has what is FG's from `s`, and is in the context of `s` or in FG's: no handler is entered. -/
def KeepsForeground (s t : State) : Prop := t.foreground = s.foreground ∧ (t.ctx = s.ctx ∨ t.ctx = .fg)

variable {s t : State}

theorem keepsForeground_of_eq (hf : t.foreground = s.foreground) (hc : t.ctx = s.ctx) : KeepsForeground s t :=
  ⟨hf, .inl hc⟩

theorem keepsForeground_raise (s : State) (c : FaultCode) : KeepsForeground s (s.raise c) :=
  keepsForeground_of_eq (by simp [State.foreground]) (raise_ctx s c)

theorem keepsForeground_setInq (s : State) (c : Chan) (q : List Byte) : KeepsForeground s (s.setInq c q) :=
  keepsForeground_of_eq (by simp [State.foreground]) (setInq_ctx s c q)

theorem keepsForeground_setOutq (s : State) (c : Chan) (q : List Byte) : KeepsForeground s (s.setOutq c q) :=
  keepsForeground_of_eq (by simp [State.foreground]) (setOutq_ctx s c q)

theorem keepsForeground_receiveUart (s : State) (y : Byte) : KeepsForeground s (s.receiveUart y) := by
  unfold State.receiveUart
  split
  · split <;> exact ⟨rfl, .inl rfl⟩
  · exact ⟨rfl, .inl rfl⟩

theorem keepsForeground_latchEdgeA (s : State) : KeepsForeground s s.latchEdgeA := by
  unfold State.latchEdgeA
  split <;> exact ⟨rfl, .inl rfl⟩

theorem keepsForeground_latchEdgeB (s : State) : KeepsForeground s s.latchEdgeB := by
  unfold State.latchEdgeB
  split <;> exact ⟨rfl, .inl rfl⟩

/-- The edge detector acts on the two lines only, and on their pending flags only (44_edge.md R129). -/
theorem keepsForeground_edgeDetect (s : State) (p : InPin) (old new : Bool) :
    KeepsForeground s (s.edgeDetect p old new) := by
  cases p with
  | linea =>
    simp only [State.edgeDetect]
    split
    · exact keepsForeground_latchEdgeA s
    · exact ⟨rfl, .inl rfl⟩
  | lineb =>
    simp only [State.edgeDetect]
    split
    · exact keepsForeground_latchEdgeB s
    · exact ⟨rfl, .inl rfl⟩
  | _ => exact ⟨rfl, .inl rfl⟩

theorem keepsForeground_samplePin (s : State) (p : InPin) : KeepsForeground s (s.samplePin p) :=
  keepsForeground_edgeDetect { s with sync := s.sync.set p (s.pin.get p) } p _ _

/-! ## MUX: the micro-steps and RETI -/

theorem execReti_keepsForeground (h : execReti s = .next t) : KeepsForeground s t := by
  obtain ⟨-, ⟨v, -, rfl⟩ | ⟨-, rfl⟩⟩ := execReti_next h
  · exact ⟨rfl, .inr rfl⟩
  · exact keepsForeground_raise s _

theorem roleStepWrite_keepsForeground {k e : Nat} (h : roleStepWrite k e s = .next t) : KeepsForeground s t := by
  obtain ⟨-, rfl⟩ | ⟨-, rfl⟩ | ⟨-, rfl⟩ := roleStepWrite_next h
  · exact ⟨rfl, .inl rfl⟩
  · exact ⟨rfl, .inl rfl⟩
  · exact keepsForeground_raise s _

theorem roleStepCompare_keepsForeground {e : Nat} (h : roleStepCompare e s = .next t) : KeepsForeground s t := by
  obtain ⟨b, n, -, -, rfl⟩ | ⟨-, rfl⟩ := roleStepCompare_next h
  · exact ⟨rfl, .inl rfl⟩
  · exact keepsForeground_raise s _

theorem modeStepWrite_keepsForeground (h : modeStepWrite s = .next t) : KeepsForeground s t := by
  unfold modeStepWrite at h
  split at h <;> cases h
  · exact ⟨rfl, .inl rfl⟩
  · exact ⟨rfl, .inl rfl⟩
  · exact keepsForeground_raise s _

theorem relayStep_keepsForeground (h : relayStep s = .next t) : KeepsForeground s t := by
  unfold relayStep at h
  split at h
  · split at h <;> cases h
    · rename_i u hu
      obtain ⟨-, rfl⟩ := sendByte_eq_some.mp hu
      exact keepsForeground_setOutq s _ _
    · exact keepsForeground_raise s _
  · cases h
    exact keepsForeground_raise s _

theorem dropStep_keepsForeground (h : dropStep s = .next t) : KeepsForeground s t := by
  unfold dropStep at h
  split at h <;> cases h
  · exact ⟨rfl, .inl rfl⟩
  · exact keepsForeground_raise s _

/-- A handler's micro-steps change nothing of FG's, and RETI alone leaves the handler. -/
theorem microStep_keepsForeground {v : Source} (h : microStep v s = .next t) : KeepsForeground s t := by
  cases v with
  | extA =>
    simp only [microStep, microExtA] at h
    split at h
    · cases h; exact ⟨rfl, .inl rfl⟩
    · exact modeStepWrite_keepsForeground h
    · cases h; exact ⟨rfl, .inl rfl⟩
    · exact roleStepWrite_keepsForeground h
    · cases h; exact ⟨rfl, .inl rfl⟩
    · cases h; exact ⟨rfl, .inl rfl⟩
    · exact roleStepCompare_keepsForeground h
    · exact execReti_keepsForeground h
    · cases h; exact keepsForeground_raise s _
  | extB =>
    simp only [microStep, microExtB] at h
    split at h
    · cases h; exact ⟨rfl, .inl rfl⟩
    · exact roleStepWrite_keepsForeground h
    · cases h; exact ⟨rfl, .inl rfl⟩
    · cases h; exact ⟨rfl, .inl rfl⟩
    · exact roleStepCompare_keepsForeground h
    · exact execReti_keepsForeground h
    · cases h; exact keepsForeground_raise s _
  | tick =>
    simp only [microStep, microTick] at h
    split at h
    · cases h; exact ⟨rfl, .inl rfl⟩
    · cases h; exact ⟨rfl, .inl rfl⟩
    · exact execReti_keepsForeground h
    · cases h; exact keepsForeground_raise s _
  | urx =>
    simp only [microStep, microUrx] at h
    split at h
    · cases h; exact ⟨rfl, .inl rfl⟩
    · exact relayStep_keepsForeground h
    · cases h; exact ⟨rfl, .inl rfl⟩
    · exact dropStep_keepsForeground h
    · exact execReti_keepsForeground h
    · cases h; exact keepsForeground_raise s _
  | utx =>
    simp only [microStep, microUtx] at h
    split at h
    · cases h; exact ⟨rfl, .inl rfl⟩
    · exact execReti_keepsForeground h
    · cases h; exact keepsForeground_raise s _

/-! ## SYNC and ENV: the class E words -/

/-- A class E word keeps what is FG's if its effect does. -/
theorem eventWord_keepsForeground {a : Agent} {i : Instr} {g : Bool} {run : State → Result}
    (h : eventWord a i g s run = .next t) (hrun : run (s.record a i) = .next t → KeepsForeground s t) :
    KeepsForeground s t := by
  obtain ⟨-, ⟨c, -, rfl⟩ | ⟨-, -, hr⟩⟩ := eventWord_next h
  · exact keepsForeground_raise s c
  · exact hrun hr

theorem execEnvPin_keepsForeground {p : Byte} {b : Bool} (h : execEnvPin p b s = .next t) :
    KeepsForeground s t := by
  refine eventWord_keepsForeground h fun hr => ?_
  split at hr <;> cases hr
  · exact ⟨rfl, .inl rfl⟩
  · exact keepsForeground_raise s _

theorem execSyncSample_keepsForeground {p : Byte} (h : execSyncSample p s = .next t) :
    KeepsForeground s t := by
  refine eventWord_keepsForeground h fun hr => ?_
  split at hr <;> cases hr
  · exact keepsForeground_samplePin (s.record _ _) _
  · exact keepsForeground_raise s _

theorem execEnvUartRx_keepsForeground {y : Byte} (h : execEnvUartRx y s = .next t) : KeepsForeground s t := by
  refine eventWord_keepsForeground h fun hr => ?_
  cases hr
  exact keepsForeground_receiveUart (s.record _ _) y

theorem execEnvTxDone_keepsForeground (h : execEnvTxDone s = .next t) : KeepsForeground s t := by
  refine eventWord_keepsForeground h fun hr => ?_
  split at hr <;> cases hr
  exact ⟨rfl, .inl rfl⟩

theorem execEnvTick_keepsForeground (h : execEnvTick s = .next t) : KeepsForeground s t := by
  refine eventWord_keepsForeground h fun hr => ?_
  cases hr
  exact ⟨rfl, .inl rfl⟩

theorem execEnvHostCls_keepsForeground {c : Byte} {m : Half} (h : execEnvHostCls c m s = .next t) :
    KeepsForeground s t := by
  refine eventWord_keepsForeground h fun hr => ?_
  split at hr <;> cases hr
  · exact ⟨rfl, .inl rfl⟩
  · exact keepsForeground_raise s _

theorem execEnvHostConnect_keepsForeground (h : execEnvHostConnect s = .next t) : KeepsForeground s t := by
  refine eventWord_keepsForeground h fun hr => ?_
  cases hr
  exact ⟨rfl, .inl rfl⟩

theorem execEnvHostDisconnect_keepsForeground (h : execEnvHostDisconnect s = .next t) :
    KeepsForeground s t := by
  refine eventWord_keepsForeground h fun hr => ?_
  cases hr
  exact ⟨rfl, .inl rfl⟩

theorem execEnvHostByte_keepsForeground {c y : Byte} (h : execEnvHostByte c y s = .next t) :
    KeepsForeground s t := by
  refine eventWord_keepsForeground h fun hr => ?_
  split at hr <;> cases hr
  · exact keepsForeground_setInq (s.record _ _) _ _
  · exact keepsForeground_raise s _

theorem execEnvHostTake_keepsForeground {c : Byte} (h : execEnvHostTake c s = .next t) :
    KeepsForeground s t := by
  refine eventWord_keepsForeground h fun hr => ?_
  split at hr <;> cases hr
  · exact keepsForeground_setOutq (s.record _ _) _ _
  · exact keepsForeground_raise s _

/-- What SYNC and ENV do is in the pins, the pending flags, the queues and the UART's buffers. -/
theorem exec_event_keepsForeground {i : Instr} (hi : i.wordClass = .event) (h : exec i s = .next t) :
    KeepsForeground s t := by
  cases i with
  | envPin p b => exact execEnvPin_keepsForeground h
  | syncSample p => exact execSyncSample_keepsForeground h
  | envUartRx y => exact execEnvUartRx_keepsForeground h
  | envTxDone => exact execEnvTxDone_keepsForeground h
  | envTick => exact execEnvTick_keepsForeground h
  | envHostCls c m => exact execEnvHostCls_keepsForeground h
  | envHostConnect => exact execEnvHostConnect_keepsForeground h
  | envHostDisconnect => exact execEnvHostDisconnect_keepsForeground h
  | envHostByte c y => exact execEnvHostByte_keepsForeground h
  | envHostTake c => exact execEnvHostTake_keepsForeground h
  | _ => cases hi

/-! ## A step while a handler runs -/

/-- Outside context FG nothing is dispatched (60_exceptions.md R191, R192): an entry word raises F_CONTEXT. -/
theorem handlerEntry_keepsForeground {v : Source} (hc : s.ctx ≠ .fg) (h : handlerEntry v s = .next t) :
    KeepsForeground s t := by
  obtain ⟨-, ⟨hd, -⟩ | ⟨-, rfl⟩⟩ := handlerEntry_next h
  · obtain ⟨-, -, -, hfg, -⟩ := nextDispatch_some hd
    exact absurd hfg hc
  · exact keepsForeground_raise s _

theorem exec_handler_keepsForeground {i : Instr} (hi : i.wordClass = .handler) (hc : s.ctx ≠ .fg)
    (h : exec i s = .next t) : KeepsForeground s t := by
  cases i with
  | hExtA => exact handlerEntry_keepsForeground hc h
  | hExtB => exact handlerEntry_keepsForeground hc h
  | hTick => exact handlerEntry_keepsForeground hc h
  | hUrx => exact handlerEntry_keepsForeground hc h
  | hUtx => exact handlerEntry_keepsForeground hc h
  | reti => exact execReti_keepsForeground h
  | _ => cases hi

/-- Outside context FG no agent may perform a class S or C word (60_exceptions.md R184 (a)). -/
theorem presentWord_keepsForeground {a : Agent} {w : Word} (hc : s.ctx ≠ .fg)
    (h : presentWord a w s = .next t) : KeepsForeground s t := by
  obtain ⟨-, ⟨c, rfl⟩ | ⟨i, -, hm, -, hx⟩⟩ := presentWord_next h
  · exact keepsForeground_raise s c
  · cases hi : i.wordClass with
    | software => simp [mayPerform, hi, hc] at hm
    | callback => simp [mayPerform, hi] at hm
    | handler => exact exec_handler_keepsForeground hi hc hx
    | event => exact exec_event_keepsForeground hi hx

theorem muxStep_keepsForeground (hc : s.ctx ≠ .fg) (h : muxStep s = .next t) : KeepsForeground s t := by
  obtain ⟨-, ⟨v, -, hm⟩ | ⟨hfg, -⟩⟩ := muxStep_next h
  · exact microStep_keepsForeground hm
  · exact absurd hfg hc

theorem perform_keepsForeground {a : Action} (hc : s.ctx ≠ .fg) (ha : a ≠ .reset)
    (h : perform a s = .next t) : KeepsForeground s t := by
  cases a with
  | word g w =>
    obtain ⟨-, hw⟩ := scheduledWord_next h
    exact presentWord_keepsForeground hc hw
  | script =>
    obtain ⟨-, hfg, -⟩ := scriptStep_next h
    exact absurd hfg hc
  | deliver =>
    obtain ⟨-, hfg, -⟩ := deliverStep_next h
    exact absurd hfg hc
  | cb2 =>
    obtain ⟨-, hfg, -⟩ := secondStepOfCls_next h
    exact absurd hfg hc
  | mux => exact muxStep_keepsForeground hc h
  | reset => exact absurd rfl ha

/-- The state the turn is taken in differs from `s` in the schedule and the count of turns alone. -/
theorem step_keepsForeground (hc : s.ctx ≠ .fg) (ha : s.turn ≠ .reset) (h : step s = .next t) :
    KeepsForeground s t := by
  obtain ⟨rest, k, he⟩ := nextAction_state s
  have hp : perform s.turn { s with sched := rest, round := k } = .next t := he ▸ h
  exact perform_keepsForeground (s := { s with sched := rest, round := k }) hc ha hp

/-! ## FG's own turns (00_scope.md R8) -/

/-- FG's turn while a handler runs: its script, a delivery and the second step of a callback are all no steps. -/
theorem perform_fgTurn_of_handler {a : Action} {v : Source} (hf : s.fault = 0) (hc : s.ctx = .handler v)
    (ha : a = .script ∨ a = .deliver ∨ a = .cb2) : perform a s = .refused .agentHasNoStep := by
  have hb : s.atBoundary = false := by simp [State.atBoundary, hc]
  rcases ha with rfl | rfl | rfl
  · simp [perform, scriptStep, hf, hb]
  · simp [perform, deliverStep, hf, hb]
  · simp [perform, secondStepOfCls, hf, hc]

theorem step_fgTurn_of_handler {v : Source} (hf : s.fault = 0) (hc : s.ctx = .handler v)
    (ha : s.turn = .script ∨ s.turn = .deliver ∨ s.turn = .cb2) : step s = .refused .agentHasNoStep := by
  obtain ⟨rest, k, he⟩ := nextAction_state s
  have hp : perform s.turn { s with sched := rest, round := k } = .refused .agentHasNoStep :=
    perform_fgTurn_of_handler hf hc ha
  rwa [← he] at hp

/-! ## The statement -/

/-- Settles O55: every step keeps what is FG's, and FG's own turns are refused. -/
theorem handlersRunWithoutTheForeground : Obligations.HandlersRunWithoutTheForeground := by
  unfold Obligations.HandlersRunWithoutTheForeground
  intro s v hf hc
  refine ⟨fun t h ha => ?_, step_fgTurn_of_handler hf hc⟩
  obtain ⟨hfg, hctx⟩ := step_keepsForeground (by simp [hc]) ha h
  rw [hc] at hctx
  simp only [State.foreground, Foreground.mk.injEq] at hfg
  simpa [hfg] using hctx

end Sys2Proof.Machine
end

section
/-! What a handler's micro-steps change, said once: `MicroChange`, with the lemma `hasMicroChange_microStep` that a
running handler always has one. The statements about every step (10_state.md R25, R32, R43, R49, R51, R53) are read off
this and the changes of the other turns. -/

namespace Sys2Proof.Machine

/-- What a micro-step of the handler of a vector can do to `s`. A fault is raised only where CTX, HPC and the
temporaries disagree or OUTQ[0] is full. -/
inductive MicroChange (s : State) : Source → State → Prop
  | raised (v : Source) (c : FaultCode) (hr : contextOk s = true → hasRoom s.cfg s.outq0.length = false) :
      MicroChange s v (s.raise c)
  | returned (v : Source) : MicroChange s v (s.returnFromHandler v)
  | detectMode (m : RunMode) : MicroChange s .extA ({ s with tMode := some m }.setHpc 1)
  | writeProut (m : RunMode) (j : Nat) (hj : j = 2 ∨ j = 7) :
      MicroChange s .extA ((s.updateRunMode m).setHpc j)
  | detectRole {v : Source} {k ret : Nat} (hv : RoleSequence v k ret) (r : Role) :
      MicroChange s v ({ s with tRole := some r }.setHpc (k + 1))
  | writeMsout {v : Source} {k ret : Nat} (hv : RoleSequence v k ret) (b : Bool) (j : Nat)
      (hj : j = k + 2 ∨ j = ret) : MicroChange s v ((s.writeLat .msout b).setHpc j)
  | readBus {v : Source} {k ret : Nat} (hv : RoleSequence v k ret) (n : BitVec 3) :
      MicroChange s v ({ s with tBus := some n }.setHpc (k + 3))
  | readKnob {v : Source} {k ret : Nat} (hv : RoleSequence v k ret) (hk : s.hpc = some (k + 3)) (n : BitVec 4) :
      MicroChange s v ({ s with tKnob := some n }.setHpc (k + 4))
  | writeCsout {v : Source} {k ret : Nat} (hv : RoleSequence v k ret) (m b : Bool) :
      MicroChange s v (({ s with tMatch := some m }.writeLat .csout b).setHpc ret)
  | clearTxi : MicroChange s .tick { s with txi := false, hpc := some 1 }
  | clearRxi : MicroChange s .tick { s with rxi := false, hpc := some 2 }
  | gate (j : Nat) (hj : j ≤ 4) : MicroChange s .urx (s.setHpc j)
  | relay (y : Byte) (hy : s.tByte = some y) (hr : hasRoom s.cfg s.outq0.length = true) :
      MicroChange s .urx (({ s with outq0 := s.outq0 ++ [y] }.emit (.usbsend .data y)).setHpc 2)
  | setRxi : MicroChange s .urx ({ s with rxi := true }.setHpc 4)
  | drop (y : Byte) (hy : s.tByte = some y) : MicroChange s .urx ((s.emit (.drop y)).setHpc 4)
  | setTxi : MicroChange s .utx ({ s with txi := true }.setHpc 1)

/-- While the handler of `v` runs, CTX and HPC agree iff HPC is one of its indices, its temporaries written. -/
theorem contextOk_of_handler {s : State} {v : Source} (hc : s.ctx = .handler v) :
    contextOk s = true ↔ ∃ k, s.hpc = some k ∧ k ≤ finalStep v ∧ temporariesReady v k s = true := by
  unfold contextOk
  rw [hc]
  cases s.hpc <;> simp

section
variable {s : State} {v : Source}

theorem sendByte_eq_none {c : Chan} {y : Byte} :
    s.sendByte c y = none ↔ hasRoom s.cfg (s.outq c).length = false := by
  unfold State.sendByte
  split <;> simp_all

/-- The micro-step at HPC, whatever it finds, is one of the changes. -/
def HasMicroChange (v : Source) (s : State) (r : Result) : Prop := ∃ t, r = .next t ∧ MicroChange s v t

/-- At HPC = k a temporary that the micro-step needs is missing. -/
theorem hasMicroChange_of_notReady {k : Nat} (hc : s.ctx = .handler v) (hk : s.hpc = some k)
    (hn : temporariesReady v k s = false) (c : FaultCode) : HasMicroChange v s (.next (s.raise c)) := by
  refine ⟨_, rfl, .raised v c fun hok => ?_⟩
  obtain ⟨j, hj, -, ht⟩ := (contextOk_of_handler hc).mp hok
  obtain rfl : k = j := Option.some.inj (hk.symm.trans hj)
  exact absurd ht (by simp [hn])

/-- HPC is no index of the handler (log 13). -/
theorem hasMicroChange_of_outside (hc : s.ctx = .handler v) (hk : ∀ k, s.hpc = some k → finalStep v < k)
    (c : FaultCode) : HasMicroChange v s (.next (s.raise c)) := by
  refine ⟨_, rfl, .raised v c fun hok => ?_⟩
  obtain ⟨j, hj, hle, -⟩ := (contextOk_of_handler hc).mp hok
  exact absurd (hk j hj) (by omega)

theorem hasMicroChange_reti (hf : s.fault = 0) (hc : s.ctx = .handler v) (hk : s.hpc = some (finalStep v)) :
    HasMicroChange v s (execReti s) :=
  ⟨_, execReti_of_inHandler ⟨hf, hc, hk⟩, .returned v⟩

theorem hasMicroChange_modeStepWrite (hc : s.ctx = .handler .extA) (hk : s.hpc = some 1) :
    HasMicroChange .extA s (modeStepWrite s) := by
  unfold modeStepWrite
  split
  · exact ⟨_, rfl, .writeProut .run 7 (.inr rfl)⟩
  · exact ⟨_, rfl, .writeProut .program 2 (.inl rfl)⟩
  · rename_i hm
    exact hasMicroChange_of_notReady hc hk (by simp [temporariesReady, hm]) _

theorem RoleSequence.hasMicroChange_write {k ret : Nat} (hv : RoleSequence v k ret) (hc : s.ctx = .handler v)
    (hk : s.hpc = some (k + 1)) : HasMicroChange v s (roleStepWrite (k + 1) ret s) := by
  unfold roleStepWrite
  split
  · exact ⟨_, rfl, .writeMsout hv false _ (.inl rfl)⟩
  · exact ⟨_, rfl, .writeMsout hv true _ (.inr rfl)⟩
  · rename_i hr
    refine hasMicroChange_of_notReady hc hk ?_ _
    rcases hv with ⟨rfl, rfl, -⟩ | ⟨rfl, rfl, -⟩ <;> simp [temporariesReady, hr]

theorem RoleSequence.hasMicroChange_compare {k ret : Nat} (hv : RoleSequence v k ret) (hc : s.ctx = .handler v)
    (hk : s.hpc = some (k + 4)) : HasMicroChange v s (roleStepCompare ret s) := by
  unfold roleStepCompare
  split
  · exact ⟨_, rfl, .writeCsout hv _ _⟩
  · rename_i hn
    refine hasMicroChange_of_notReady hc hk ?_ _
    have hbk : (s.tBus.isSome && s.tKnob.isSome) = false := by
      cases hb : s.tBus <;> cases hkn : s.tKnob <;> simp_all
    rcases hv with ⟨rfl, rfl, -⟩ | ⟨rfl, rfl, -⟩ <;> simp [temporariesReady, hbk]

theorem hasMicroChange_relayStep (hc : s.ctx = .handler .urx) (hk : s.hpc = some 1) :
    HasMicroChange .urx s (relayStep s) := by
  unfold relayStep
  split
  · rename_i y hy
    split
    · rename_i t ht
      obtain ⟨hr, rfl⟩ := sendByte_eq_some.mp ht
      exact ⟨_, rfl, .relay y hy hr⟩
    · rename_i hn
      refine ⟨_, rfl, .raised _ _ fun _ => ?_⟩
      exact sendByte_eq_none.mp hn
  · rename_i hn
    exact hasMicroChange_of_notReady hc hk (by simp [temporariesReady, hn]) _

theorem hasMicroChange_dropStep (hc : s.ctx = .handler .urx) (hk : s.hpc = some 3) :
    HasMicroChange .urx s (dropStep s) := by
  unfold dropStep
  split
  · rename_i y hy
    exact ⟨_, rfl, .drop y hy⟩
  · rename_i hn
    exact hasMicroChange_of_notReady hc hk (by simp [temporariesReady, hn]) _

theorem hasMicroChange_microExtA (hf : s.fault = 0) (hc : s.ctx = .handler .extA) :
    HasMicroChange .extA s (microExtA s) := by
  have hv : RoleSequence .extA 2 7 := .inl ⟨rfl, rfl, rfl⟩
  unfold microExtA
  split
  next => exact ⟨_, rfl, .detectMode _⟩
  next hk => exact hasMicroChange_modeStepWrite hc hk
  next => exact ⟨_, rfl, .detectRole hv _⟩
  next hk => exact hv.hasMicroChange_write hc hk
  next => exact ⟨_, rfl, .readBus hv _⟩
  next hk => exact ⟨_, rfl, .readKnob hv hk _⟩
  next hk => exact hv.hasMicroChange_compare hc hk
  next hk => exact hasMicroChange_reti hf hc hk
  next => exact hasMicroChange_of_outside hc (fun k hk => by grind [finalStep]) _

theorem hasMicroChange_microExtB (hf : s.fault = 0) (hc : s.ctx = .handler .extB) :
    HasMicroChange .extB s (microExtB s) := by
  have hv : RoleSequence .extB 0 5 := .inr ⟨rfl, rfl, rfl⟩
  unfold microExtB
  split
  next => exact ⟨_, rfl, .detectRole hv _⟩
  next hk => exact hv.hasMicroChange_write hc hk
  next => exact ⟨_, rfl, .readBus hv _⟩
  next hk => exact ⟨_, rfl, .readKnob hv hk _⟩
  next hk => exact hv.hasMicroChange_compare hc hk
  next hk => exact hasMicroChange_reti hf hc hk
  next => exact hasMicroChange_of_outside hc (fun k hk => by grind [finalStep]) _

theorem hasMicroChange_microTick (hf : s.fault = 0) (hc : s.ctx = .handler .tick) :
    HasMicroChange .tick s (microTick s) := by
  unfold microTick
  split
  next => exact ⟨_, rfl, .clearTxi⟩
  next => exact ⟨_, rfl, .clearRxi⟩
  next hk => exact hasMicroChange_reti hf hc hk
  next => exact hasMicroChange_of_outside hc (fun k hk => by grind [finalStep]) _

theorem hasMicroChange_microUrx (hf : s.fault = 0) (hc : s.ctx = .handler .urx) :
    HasMicroChange .urx s (microUrx s) := by
  unfold microUrx
  split
  next => exact ⟨_, rfl, .gate _ (by split <;> decide)⟩
  next hk => exact hasMicroChange_relayStep hc hk
  next => exact ⟨_, rfl, .setRxi⟩
  next hk => exact hasMicroChange_dropStep hc hk
  next hk => exact hasMicroChange_reti hf hc hk
  next => exact hasMicroChange_of_outside hc (fun k hk => by grind [finalStep]) _

theorem hasMicroChange_microUtx (hf : s.fault = 0) (hc : s.ctx = .handler .utx) :
    HasMicroChange .utx s (microUtx s) := by
  unfold microUtx
  split
  next => exact ⟨_, rfl, .setTxi⟩
  next hk => exact hasMicroChange_reti hf hc hk
  next => exact hasMicroChange_of_outside hc (fun k hk => by grind [finalStep]) _

/-- The running handler always has a next micro-step, and it is one of the changes. -/
theorem hasMicroChange_microStep (hf : s.fault = 0) (hc : s.ctx = .handler v) :
    HasMicroChange v s (microStep v s) := by
  cases v with
  | extA => exact hasMicroChange_microExtA hf hc
  | extB => exact hasMicroChange_microExtB hf hc
  | tick => exact hasMicroChange_microTick hf hc
  | urx => exact hasMicroChange_microUrx hf hc
  | utx => exact hasMicroChange_microUtx hf hc

end
end Sys2Proof.Machine
end

section
/-! What the turn of any agent changes, said once: `Change`, with the lemma `step_change` that every step is one. -/

namespace Sys2Proof.Machine

/-! ## A step of any agent -/

/-- What the turn `a`, no reset, can do to `s`: a fault; a statement of FG's script; a callback; a step of MUX; a word
of SYNC or ENV. A guard or an operand is kept where a statement about every step needs it. -/
inductive Change (s : State) : Action → State → Prop
  | raised (a : Action) (c : FaultCode) (hf : s.fault = 0) : Change s a (s.raise c)
  | jumped (k : Nat) : Change s .script { s with fgpc := k }
  | read (i : Instr) (v : Option Half) (n : Nat) : Change s .script { s.record .fg i with res := v, draws := n }.advance
  | wroteLat (i : Instr) (p : OutPin) (v : Bool) (hb : s.booted = false) :
      Change s .script ((s.record .fg i).writeLat p v).advance
  | wroteLats (i : Instr) (p q : OutPin) (v w : Bool) (hb : s.booted = false) :
      Change s .script (((s.record .fg i).writeLat p v).writeLat q w).advance
  | wroteDir (i : Instr) (p : OutPin) (d : Direction) (hb : s.booted = false) :
      Change s .script ((s.record .fg i).writeDir p d).advance
  | uartInit (i : Instr) (m : Half) (hm : m ≠ 0) : Change s .script ((s.record .fg i).uartInitialize m).advance
  | uartDeinit (i : Instr) : Change s .script (s.record .fg i).uartDeinitialize.advance
  | uartTx (i : Instr) (y : Byte) (hr : s.txReady = true) :
      Change s .script ({ s.record .fg i with txbuf := some y }.emit (.uarttx y)).advance
  | enables (i : Instr) (ie tm ea eb : Bool) :
      Change s .script { s.record .fg i with uartIe := ie, tmrEn := tm, extaEn := ea, extbEn := eb }.advance
  | irqGlobal (i : Instr) (b : Bool) :
      Change s .script { s.record .fg i with gie := b, booted := s.booted || b }.advance
  | usbRecv (i : Instr) (c : Chan) (v : Half) (r : Option Byte) : Change s .script
      ((((s.record .fg i).setInq c (s.inq c).tail).setRes v).emit (.usbrecv c r)).advance
  | usbSend (i : Instr) (c : Chan) (y : Byte) (hr : hasRoom s.cfg (s.outq c).length = true) :
      Change s .script (((s.record .fg i).setOutq c (s.outq c ++ [y])).emit (.usbsend c y)).advance
  | connected (i : Instr) (rest : List UsbEvent) (he : s.evq = .connect :: rest) :
      Change s .deliver (({ s with evq := rest }.record .fg i).uartInitialize s.cfg.baud)
  | disconnected (i : Instr) (rest : List UsbEvent) (he : s.evq = .disconnect :: rest) :
      Change s .deliver ({ s with evq := rest }.record .fg i).uartDeinitialize
  | reported (i : Instr) (c : Chan) (m : Half) (rest : List UsbEvent) (he : s.evq = .clsChg c m :: rest) :
      Change s .deliver 
        { ({ s with evq := rest }.record .fg i).setCls c m with clsLast := m, fgcb := some m }
  | gated (ie : Bool) : Change s .cb2 { s with fgcb := none, uartIe := ie }
  | dispatched (a : Action) (v : Source) (hd : s.nextDispatch = some v) : Change s a (s.takeInterrupt v)
  | returned (a : Action) (v : Source) (hv : s.ctx = .handler v) : Change s a (s.returnFromHandler v)
  | micro (v : Source) (t : State) (hf : s.fault = 0) (hc : s.ctx = .handler v) (hm : MicroChange s v t) :
      Change s .mux t
  | inputs {g : Agent} {w : Word} (a : Agent) (i : Instr) (pin sync : InLevels) (ea eb tick : Bool) (n : Nat) :
      Change s (.word g w) { s.record a i with
        pin := pin, sync := sync, pendExta := ea, pendExtb := eb, pendTick := tick, draws := n }
  | uartRx {g : Agent} {w : Word} (a : Agent) (i : Instr) (y : Byte) (n : Nat) (he : s.uartEn = true) :
      Change s (.word g w) { s.record a i with rxdata := some y, rxfull := true, draws := n }
  | txDone {g : Agent} {w : Word} (a : Agent) (i : Instr) (b : Byte) (he : s.uartEn = true) :
      Change s (.word g w) { { s.record a i with utxline := s.utxline ++ [b] }.emit (.uartline b) with
        txbuf := none, txc := true }
  | hostCls {g : Agent} {w : Word} (a : Agent) (i : Instr) (c : Chan) (m : Half) :
      Change s (.word g w) { s.record a i with evq := s.evq ++ [.clsChg c m] }
  | hostConnect {g : Agent} {w : Word} (a : Agent) (i : Instr) (hh : s.hostconn = false) :
      Change s (.word g w) { s.record a i with hostconn := true, evq := s.evq ++ [.connect] }
  | hostDisconnect {g : Agent} {w : Word} (a : Agent) (i : Instr) (hh : s.hostconn = true) :
      Change s (.word g w) { s.record a i with
        hostconn := false, inq0 := [], inq1 := [], outq0 := [], outq1 := [], evq := s.evq ++ [.disconnect] }
  | hostByte {g : Agent} {w : Word} (a : Agent) (i : Instr) (c : Chan) (y : Byte) (hh : s.hostconn = true)
      (hr : hasRoom s.cfg (s.inq c).length = true) :
      Change s (.word g w) ((s.record a i).setInq c (s.inq c ++ [y]))
  | hostTake {g : Agent} {w : Word} (a : Agent) (i : Instr) (c : Chan) :
      Change s (.word g w) ((s.record a i).setOutq c (s.outq c).tail)

variable {s t : State}

/-! ## The words of FG's script -/

/-- A class S word is a fault or, if its effect is, a change of the script's turn. -/
theorem softwareWord_change {i : Instr} {run : State → Result} (h : softwareWord i s run = .next t)
    (hrun : s.fault = 0 → operandFault i = none → (writesOwnedPin i = true → s.booted = false) →
      run (s.record .fg i) = .next t → Change s .script t) : Change s .script t := by
  obtain ⟨hf, -, ⟨-, rfl⟩ | ⟨-, c, -, rfl⟩ | ⟨-, -, -, -, rfl⟩ | ⟨-, ho, hw, hr⟩⟩ := softwareWord_next h
  · exact .raised _ _ hf
  · exact .raised _ _ hf
  · exact .raised _ _ hf
  · exact hrun hf ho hw hr

/-- The same for an effect that makes no choice. -/
theorem softwareWord_effect {i : Instr} {f : State → State}
    (h : softwareWord i s (fun u => .next (f u)) = .next t)
    (hf : (writesOwnedPin i = true → s.booted = false) → Change s .script (f (s.record .fg i))) :
    Change s .script t :=
  softwareWord_change h fun _ _ hw hr => by cases hr; exact hf hw

theorem readPin_eq {u : State} {p : Byte} {v : Bool} (h : s.readPin p = some (v, u)) :
    ∃ n, u = { s with draws := n } := by
  unfold State.readPin at h
  split at h
  · cases h; exact ⟨s.draws, rfl⟩
  · split at h
    · split at h <;> cases h
      · exact ⟨s.draws, rfl⟩
      · exact ⟨s.draws + 1, rfl⟩
    · cases h

theorem execGpioRead_change {p : Byte} (h : execGpioRead p s = .next t) : Change s .script t := by
  refine softwareWord_change h fun hf _ _ hr => ?_
  split at hr
  next v u hu =>
    cases hr
    obtain ⟨n, rfl⟩ := readPin_eq hu
    exact .read _ (some (zextBit v)) n
  next => cases hr; exact .raised _ _ hf

theorem execGpioWrite_change {p : Byte} {b : Bool} (h : execGpioWrite p b s = .next t) : Change s .script t := by
  refine softwareWord_change h fun hf _ hw hr => ?_
  split at hr <;> cases hr
  · exact .wroteLat _ _ b (hw rfl)
  · exact .raised _ _ hf

theorem execGpioDir_change {p : Byte} {d : Direction} (h : execGpioDir p d s = .next t) : Change s .script t := by
  refine softwareWord_change h fun hf _ hw hr => ?_
  split at hr <;> cases hr
  · exact .wroteDir _ _ d (hw rfl)
  · exact .raised _ _ hf

theorem execUartInit_change {m : Half} (h : execUartInit m s = .next t) : Change s .script t := by
  refine softwareWord_change h fun _ ho _ hr => ?_
  cases hr
  exact .uartInit _ m (by simpa [operandFault, checkIndex] using ho)

/-- A UART_TX that cannot proceed leaves the state as it is (log 11). -/
theorem execUartTx_change {y : Byte} (h : execUartTx y s = .next t) : Change s .script t := by
  refine softwareWord_change h fun _ _ _ hr => ?_
  split at hr <;> cases hr
  next hr => exact .uartTx _ y hr
  next => exact .jumped s.fgpc

theorem execExtConfig_change {l : Byte} {e : Bool} (h : execExtConfig l e s = .next t) : Change s .script t := by
  refine softwareWord_change h fun hf _ _ hr => ?_
  split at hr <;> cases hr
  next q _ =>
    cases q
    · exact .enables _ s.uartIe s.tmrEn e s.extbEn
    · exact .enables _ s.uartIe s.tmrEn s.extaEn e
  next => exact .raised _ _ hf

theorem execArbUpdateRole_change {r : Role} (h : execArbUpdateRole r s = .next t) : Change s .script t := by
  refine softwareWord_change h fun _ _ hw hr => ?_
  cases hr
  cases r
  · exact .wroteLats _ .msout .csout false _ (hw rfl)
  · exact .wroteLat _ .msout true (hw rfl)

theorem setInq_self (s : State) (c : Chan) : s.setInq c (s.inq c) = s := by cases c <;> rfl

/-- USB_RECV removes the oldest byte, if there is one. -/
theorem receiveByte_eq (s : State) (c : Chan) :
    ∃ v r, s.receiveByte c = ((s.setInq c (s.inq c).tail).setRes v).emit (.usbrecv c r) := by
  unfold State.receiveByte
  split
  next hq => exact ⟨_, _, by rw [hq]; rfl⟩
  next hq =>
    have hs : s.setInq c (s.inq c).tail = s := by rw [hq, List.tail_nil, ← hq, setInq_self]
    exact ⟨resNone, none, by rw [hs]⟩

theorem execUsbRecv_change {c : Byte} (h : execUsbRecv c s = .next t) : Change s .script t := by
  refine softwareWord_change h fun hf _ _ hr => ?_
  split at hr <;> cases hr
  next q _ =>
    obtain ⟨v, r, he⟩ := receiveByte_eq (s.record .fg (.usbRecv c)) q
    rw [he]
    cases q <;> exact .usbRecv _ _ v r
  next => exact .raised _ _ hf

theorem execUsbSend_change {c y : Byte} (h : execUsbSend c y s = .next t) : Change s .script t := by
  refine softwareWord_change h fun hf _ _ hr => ?_
  split at hr
  next q _ =>
    split at hr <;> cases hr
    next u hu =>
      obtain ⟨hroom, rfl⟩ := sendByte_eq_some.mp hu
      cases q <;> exact .usbSend _ _ y hroom
    next => exact .raised _ _ hf
  next => cases hr; exact .raised _ _ hf

theorem execRegRead_change {n : Byte} (h : execRegRead n s = .next t) : Change s .script t := by
  refine softwareWord_change h fun _ _ _ hr => ?_
  cases hr
  split
  · exact .read _ _ (s.draws + 1)
  · exact .read _ _ s.draws

/-- The words whose effect makes no choice are read off their definitions. -/
theorem exec_software_change {i : Instr} (hi : i.wordClass = .software) (h : exec i s = .next t) :
    Change s .script t := by
  cases i with
  | gpioRead p => exact execGpioRead_change h
  | gpioWrite p b => exact execGpioWrite_change h
  | gpioDir p d => exact execGpioDir_change h
  | uartInit m => exact execUartInit_change h
  | uartDeinit => exact softwareWord_effect (show execUartDeinit s = _ from h) fun _ => .uartDeinit _
  | uartTx y => exact execUartTx_change h
  | uartIeOn => exact softwareWord_effect (show execUartIeOn s = _ from h) fun _ => .enables _ true _ _ _
  | uartIeOff => exact softwareWord_effect (show execUartIeOff s = _ from h) fun _ => .enables _ false _ _ _
  | tmrInit => exact softwareWord_effect (show execTmrInit s = _ from h) fun _ => .enables _ _ true _ _
  | extConfig l e => exact execExtConfig_change h
  | irqGlobal b => exact softwareWord_effect (show execIrqGlobal b s = _ from h) fun _ => .irqGlobal _ b
  | arbDetectRunmode =>
    exact softwareWord_effect (show execArbDetectRunmode s = _ from h) fun _ => .read _ _ _
  | arbDetectRole => exact softwareWord_effect (show execArbDetectRole s = _ from h) fun _ => .read _ _ _
  | arbUpdateRunmode m =>
    exact softwareWord_effect (show execArbUpdateRunmode m s = _ from h) fun hw => .wroteLat _ _ _ (hw rfl)
  | arbUpdateRole r => exact execArbUpdateRole_change h
  | arbAddrMatch => exact softwareWord_effect (show execArbAddrMatch s = _ from h) fun _ => .read _ _ _
  | usbRecv c => exact execUsbRecv_change h
  | usbSend c y => exact execUsbSend_change h
  | usbService c => exact softwareWord_effect (show execUsbService c s = _ from h) fun _ => .read _ _ _
  | regRead n => exact execRegRead_change h
  | _ => cases hi

/-! ## Callbacks (46_bridge.md R162) -/

/-- A class C word is a fault or, if its effect on the delivered event is, a change of a delivery. -/
theorem callbackWord_change {i : Instr} {kind : UsbEvent} {e : Option UsbEvent} {run : State → Result}
    (h : callbackWord i kind e s run = .next t)
    (hrun : ∀ head rest, s.fault = 0 → s.evq = head :: rest → e = some head →
      run ({ s with evq := rest }.record .fg i) = .next t → Change s .deliver t) : Change s .deliver t := by
  obtain ⟨hf, ⟨c, rfl⟩ | ⟨-, -, head, rest, hq, he, hr⟩⟩ := callbackWord_next h
  · exact .raised _ _ hf
  · exact hrun head rest hf hq he hr

/-- CB_CONNECT and CB_DISCONNECT deliver the event of their name. -/
theorem exec_callback_change {e : UsbEvent} (h : exec (callbackOf e) s = .next t) : Change s .deliver t := by
  cases e with
  | clsChg c m =>
    refine callbackWord_change (show execCbCls c.id m s = _ from h) fun head rest _ hq he hr => ?_
    simp only [Chan.ofId_id, Option.map_some, Option.some.injEq] at he hr
    subst he
    cases hr
    exact .reported _ c m rest hq
  | connect =>
    refine callbackWord_change (show execCbConnect s = _ from h) fun head rest _ hq he hr => ?_
    cases he
    cases hr
    exact .connected _ rest hq
  | disconnect =>
    refine callbackWord_change (show execCbDisconnect s = _ from h) fun head rest _ hq he hr => ?_
    cases he
    cases hr
    exact .disconnected _ rest hq

theorem secondStepOfCls_change (h : secondStepOfCls s = .next t) : Change s .cb2 t := by
  obtain ⟨-, -, m, -, rfl⟩ := secondStepOfCls_next h
  exact .gated _

/-! ## MUX's words (60_exceptions.md R193, 48_system.md R179) -/

theorem handlerEntry_change {v : Source} (a : Action) (h : handlerEntry v s = .next t) : Change s a t := by
  obtain ⟨hf, ⟨hd, rfl⟩ | ⟨-, rfl⟩⟩ := handlerEntry_next h
  · exact .dispatched a v hd
  · exact .raised _ _ hf

theorem ctx_of_atFinalStep {v : Source} (h : s.atFinalStep = some v) : s.ctx = .handler v := by
  unfold State.atFinalStep at h
  split at h
  · cases h
  · split at h <;> cases h
    assumption

theorem execReti_change (a : Action) (h : execReti s = .next t) : Change s a t := by
  obtain ⟨hf, ⟨v, hv, rfl⟩ | ⟨-, rfl⟩⟩ := execReti_next h
  · exact .returned a v (ctx_of_atFinalStep hv)
  · exact .raised _ _ hf

theorem exec_handler_change {i : Instr} (a : Action) (hi : i.wordClass = .handler) (h : exec i s = .next t) :
    Change s a t := by
  cases i with
  | hExtA => exact handlerEntry_change a h
  | hExtB => exact handlerEntry_change a h
  | hTick => exact handlerEntry_change a h
  | hUrx => exact handlerEntry_change a h
  | hUtx => exact handlerEntry_change a h
  | reti => exact execReti_change a h
  | _ => cases hi

theorem entryWord_wordClass (v : Source) : (entryWord v).wordClass = .handler := by cases v <;> rfl

theorem muxStep_change (h : muxStep s = .next t) : Change s .mux t := by
  obtain ⟨hf, ⟨v, hc, hm⟩ | ⟨-, v, -, hx⟩⟩ := muxStep_next h
  · obtain ⟨u, hu, hcu⟩ := hasMicroChange_microStep hf hc
    cases hm.symm.trans hu
    exact .micro v t hf hc hcu
  · exact exec_handler_change .mux (entryWord_wordClass v) hx

/-! ## The words of SYNC and ENV (47_environment.md) -/

/-- A class E word is a fault or, if its effect is, a change of a scheduled word. -/
theorem eventWord_change {a : Action} {g : Agent} {i : Instr} {guard_ : Bool} {run : State → Result}
    (h : eventWord g i guard_ s run = .next t)
    (hrun : s.fault = 0 → guard_ = true → run (s.record g i) = .next t → Change s a t) : Change s a t := by
  obtain ⟨hf, ⟨c, -, rfl⟩ | ⟨-, hg, hr⟩⟩ := eventWord_next h
  · exact .raised _ _ hf
  · exact hrun hf hg hr

theorem edgeDetect_eq (s : State) (p : InPin) (old new : Bool) :
    ∃ ea eb n, s.edgeDetect p old new = { s with pendExta := ea, pendExtb := eb, draws := n } := by
  unfold State.edgeDetect State.latchEdgeA State.latchEdgeB
  cases p with
  | linea => dsimp only; split_ifs <;> exact ⟨_, _, _, rfl⟩
  | lineb => dsimp only; split_ifs <;> exact ⟨_, _, _, rfl⟩
  | _ => exact ⟨_, _, _, rfl⟩

theorem samplePin_eq (s : State) (p : InPin) :
    ∃ sync ea eb n, s.samplePin p = { s with sync := sync, pendExta := ea, pendExtb := eb, draws := n } := by
  obtain ⟨ea, eb, n, he⟩ := edgeDetect_eq { s with sync := s.sync.set p (s.pin.get p) } p (s.sync.get p) (s.pin.get p)
  exact ⟨_, ea, eb, n, he⟩

theorem receiveUart_eq (s : State) (y : Byte) :
    ∃ z n, s.receiveUart y = { s with rxdata := some z, rxfull := true, draws := n } := by
  unfold State.receiveUart
  split
  next hfull =>
    split
    · exact ⟨_, s.draws + 1, by simp only [State.drawn, hfull]; rfl⟩
    · exact ⟨y, s.draws, by simp only [hfull]⟩
  next => exact ⟨_, _, rfl⟩

theorem exec_event_change {i : Instr} {g : Agent} {w : Word} (hi : i.wordClass = .event)
    (h : exec i s = .next t) : Change s (.word g w) t := by
  cases i with
  | envPin p b =>
    refine eventWord_change (show execEnvPin p b s = _ from h) fun hf _ hr => ?_
    split at hr <;> cases hr
    · exact .inputs _ _ _ s.sync _ _ _ _
    · exact .raised _ _ hf
  | syncSample p =>
    refine eventWord_change (show execSyncSample p s = _ from h) fun hf _ hr => ?_
    split at hr <;> cases hr
    next q _ =>
      obtain ⟨sync, ea, eb, n, he⟩ := samplePin_eq (s.record .sync (.syncSample p)) q
      rw [he]
      exact .inputs _ _ s.pin sync ea eb _ n
    next => exact .raised _ _ hf
  | envUartRx y =>
    refine eventWord_change (show execEnvUartRx y s = _ from h) fun _ hg hr => ?_
    cases hr
    obtain ⟨z, n, he⟩ := receiveUart_eq (s.record .env (.envUartRx y)) y
    rw [he]
    exact .uartRx _ _ z n hg
  | envTxDone =>
    refine eventWord_change (show execEnvTxDone s = _ from h) fun _ hg hr => ?_
    obtain ⟨hen, -⟩ := Bool.and_eq_true_iff.mp hg
    split at hr <;> cases hr
    exact .txDone _ _ _ hen
  | envTick =>
    refine eventWord_change (show execEnvTick s = _ from h) fun _ _ hr => ?_
    cases hr
    exact .inputs _ _ _ s.sync _ _ _ _
  | envHostCls c m =>
    refine eventWord_change (show execEnvHostCls c m s = _ from h) fun hf _ hr => ?_
    split at hr <;> cases hr
    · exact .hostCls _ _ _ _
    · exact .raised _ _ hf
  | envHostConnect =>
    refine eventWord_change (show execEnvHostConnect s = _ from h) fun _ hg hr => ?_
    cases hr
    exact .hostConnect _ _ (by simpa using hg)
  | envHostDisconnect =>
    refine eventWord_change (show execEnvHostDisconnect s = _ from h) fun _ hg hr => ?_
    cases hr
    exact .hostDisconnect _ _ hg
  | envHostByte c y =>
    refine eventWord_change (show execEnvHostByte c y s = _ from h) fun hf hg hr => ?_
    split at hr <;> cases hr
    next q hq =>
      simp only [State.hostCanSend, hq, Option.all_some, Bool.and_eq_true] at hg
      obtain ⟨hh, hroom⟩ := hg
      cases q <;> exact .hostByte _ _ _ y hh hroom
    next => exact .raised _ _ hf
  | envHostTake c =>
    refine eventWord_change (show execEnvHostTake c s = _ from h) fun hf _ hr => ?_
    split at hr <;> cases hr
    next q _ => cases q <;> exact .hostTake _ _ _
    next => exact .raised _ _ hf
  | _ => cases hi

/-! ## Presenting a word, FG's script, the schedule -/

theorem eventAgent_ne_fg (i : Instr) : eventAgent i ≠ .fg := by
  unfold eventAgent
  split <;> decide

/-- FG presents class S words in its script's turn; MUX, SYNC and ENV the words of classes H and E. -/
theorem presentWord_change {g : Agent} {a : Action} {w : Word} (ha : g = .fg ∧ a = .script ∨ g ≠ .fg ∧ a = .word g w)
    (h : presentWord g w s = .next t) : Change s a t := by
  obtain ⟨hf, ⟨c, rfl⟩ | ⟨i, -, hm, -, hx⟩⟩ := presentWord_next h
  · exact .raised _ _ hf
  · cases hi : i.wordClass with
    | software =>
      obtain ⟨-, rfl⟩ | ⟨hg, -⟩ := ha
      · exact exec_software_change hi hx
      · simp [mayPerform, hi, hg] at hm
    | callback => simp [mayPerform, hi] at hm
    | handler => exact exec_handler_change a hi hx
    | event =>
      obtain ⟨rfl, -⟩ | ⟨-, rfl⟩ := ha
      · simp only [mayPerform, hi, decide_eq_true_eq] at hm
        exact absurd hm.symm (eventAgent_ne_fg i)
      · exact exec_event_change hi hx

theorem scriptStep_change (h : scriptStep s = .next t) : Change s .script t := by
  obtain ⟨hf, -, -, st, -, hst⟩ := scriptStep_next h
  have hw {w : Word} (h : presentWord .fg w s = .next t) : Change s .script t :=
    presentWord_change (.inl ⟨rfl, rfl⟩) h
  obtain ⟨w, -, hp⟩ | ⟨w, -, hr⟩ | ⟨l, -, rfl⟩ | ⟨l, -, rfl⟩ := runStmt_next hst
  · exact hw hp
  · obtain ⟨-, hp⟩ | ⟨-, c, rfl⟩ | ⟨r, w', -, -, hp⟩ := runResStmt_next hr
    · exact hw hp
    · exact .raised _ _ hf
    · exact hw hp
  · exact .jumped _
  · exact .jumped _

theorem perform_change {a : Action} (ha : a ≠ .reset) (h : perform a s = .next t) : Change s a t := by
  cases a with
  | word g w =>
    obtain ⟨hg, hp⟩ := scheduledWord_next h
    exact presentWord_change (.inr ⟨hg, rfl⟩) hp
  | script => exact scriptStep_change h
  | deliver =>
    obtain ⟨-, -, -, e, es, -, hx⟩ := deliverStep_next h
    exact exec_callback_change hx
  | cb2 => exact secondStepOfCls_change h
  | mux => exact muxStep_change h
  | reset => exact absurd rfl ha

/-- Every step is a reset or a change of its turn, from a state that differs from `s` in the schedule and the count of
turns alone (logs 1, 2). -/
theorem step_change (h : step s = .next t) : ∃ rest k,
    s.turn = .reset ∧ t = State.resetNow { s with sched := rest, round := k }
      ∨ s.turn ≠ .reset ∧ Change { s with sched := rest, round := k } s.turn t := by
  obtain ⟨rest, k, he⟩ := nextAction_state s
  have hp : perform s.turn { s with sched := rest, round := k } = .next t := he ▸ h
  refine ⟨rest, k, ?_⟩
  by_cases ha : s.turn = .reset
  · rw [ha] at hp
    cases hp
    exact .inl ⟨ha, rfl⟩
  · exact .inr ⟨ha, perform_change ha hp⟩

end Sys2Proof.Machine
end

section
/-! O50, O53, O52, O54: what HIST tells of the outputs and who writes them (10_state.md R32, R43, R49, R51, R53), read
off the changes of a step. -/

namespace Sys2Proof.Machine

/-! ## What HIST tells -/

theorem lastPinwrite_append (p : OutPin) (es fs : List Event) :
    lastPinwrite p (es ++ fs) = (lastPinwrite p fs).or (lastPinwrite p es) := by
  induction es with
  | nil => simp [lastPinwrite]
  | cons e es ih =>
    simp only [List.cons_append, lastPinwrite, ih]
    cases lastPinwrite p fs <;> rfl

theorem lastDirwrite_append (p : OutPin) (es fs : List Event) :
    lastDirwrite p (es ++ fs) = (lastDirwrite p fs).or (lastDirwrite p es) := by
  induction es with
  | nil => simp [lastDirwrite]
  | cons e es ih =>
    simp only [List.cons_append, lastDirwrite, ih]
    cases lastDirwrite p fs <;> rfl

theorem lineBytes_append (es fs : List Event) : lineBytes (es ++ fs) = lineBytes es ++ lineBytes fs := by
  induction es with
  | nil => rfl
  | cons e es ih => cases e <;> simp [lineBytes, ih]

theorem faultCodes_append (es fs : List Event) : faultCodes (es ++ fs) = faultCodes es ++ faultCodes fs := by
  induction es with
  | nil => rfl
  | cons e es ih => cases e <;> simp [faultCodes, ih]

/-- HIST and the fields it tells of. -/
structure Told where
  hist : List Event
  lat : OutLatches
  dir : OutDirs
  utxline : List Byte
  fault : Byte

def State.told (s : State) : Told where
  hist := s.hist
  lat := s.lat
  dir := s.dir
  utxline := s.utxline
  fault := s.fault

/-- `es` is what HIST gains from `a` to `b`, and it tells what changed in between. -/
structure TellsBy (a b : Told) (es : List Event) : Prop where
  hist : b.hist = a.hist ++ es
  lat : ∀ p, b.lat.get p = (lastPinwrite p es).or (a.lat.get p)
  dir : ∀ p, b.dir.get p = (lastDirwrite p es).getD (a.dir.get p)
  utxline : b.utxline = a.utxline ++ lineBytes es
  fault : b.fault = a.fault ∧ faultCodes es = [] ∨ a.fault = 0 ∧ b.fault ≠ 0 ∧ faultCodes es = [b.fault]

def Tells (s t : State) : Prop := ∃ es, TellsBy s.told t.told es

variable {s t u : State}

/-- What HIST gains in two stretches tells what changed in both: this is why agreement is kept step by step. -/
theorem Tells.trans (h : Tells s t) (h' : Tells t u) : Tells s u := by
  obtain ⟨es, hh, hl, hd, hu, hf⟩ := h
  obtain ⟨fs, hh', hl', hd', hu', hf'⟩ := h'
  refine ⟨es ++ fs, ?_, fun p => ?_, fun p => ?_, ?_, ?_⟩
  · rw [hh', hh, List.append_assoc]
  · rw [hl', hl, lastPinwrite_append, Option.or_assoc]
  · rw [hd', hd, lastDirwrite_append]
    cases lastDirwrite p fs <;> rfl
  · rw [hu', hu, lineBytes_append, List.append_assoc]
  · rw [faultCodes_append]
    rcases hf with ⟨hf, he⟩ | ⟨h0, hf, he⟩ <;> rcases hf' with ⟨hf', he'⟩ | ⟨h0', hf', he'⟩ <;> simp_all

/-- Agreement at `s` is agreement at `t`, what HIST gained being told. -/
theorem Tells.histAgrees (h : Tells s t) (hs : s.HistAgrees) : t.HistAgrees := by
  obtain ⟨es, hh, hl, hd, hu, hf⟩ := h
  obtain ⟨sl, sd, su, sf⟩ := hs
  simp only [State.told] at hh hl hd hu hf
  refine ⟨fun p => ?_, fun p => ?_, ?_, ?_⟩
  · rw [hl, hh, lastPinwrite_append, sl]
  · rw [hd, hh, lastDirwrite_append, sd]
    cases lastDirwrite p es <;> rfl
  · rw [hu, hh, lineBytes_append, su]
  · rw [hh, faultCodes_append, sf]
    obtain ⟨hf, he⟩ | ⟨h0, hf, he⟩ := hf
    · simp [he, hf]
    · rw [he, if_pos h0, if_neg hf, List.nil_append]

/-! ## Operations and what they tell -/

theorem tells_of_told_eq (h : t.told = s.told) : Tells s t := by
  exact ⟨[], by simp [h], fun p => by simp [h, lastPinwrite], fun p => by simp [h, lastDirwrite],
    by simp [h, lineBytes], .inl ⟨by rw [h], rfl⟩⟩

/-- The events that tell of no output, line or fault. -/
def Event.silent : Event → Bool
  | .pinwrite _ _ => false
  | .dirwrite _ _ => false
  | .uartline _ => false
  | .fault _ => false
  | _ => true

theorem tells_emit {e : Event} (he : e.silent = true) (s : State) : Tells s (s.emit e) := by
  cases e with
  | pinwrite | dirwrite | uartline | fault => cases he
  | _ => exact ⟨[_], rfl, fun _ => rfl, fun _ => rfl, (List.append_nil _).symm, .inl ⟨rfl, rfl⟩⟩

theorem tells_record (s : State) (a : Agent) (i : Instr) : Tells s (s.record a i) := tells_emit rfl s

theorem tells_writeLat (s : State) (p : OutPin) (v : Bool) : Tells s (s.writeLat p v) := by
  refine ⟨[.pinwrite p v], rfl, fun q => ?_, fun q => rfl, (List.append_nil _).symm, .inl ⟨rfl, rfl⟩⟩
  by_cases hq : p = q
  · simp [State.told, lastPinwrite, hq]
  · simp [State.told, lastPinwrite, hq, OutLatches.get_set_other s.lat (Ne.symm hq)]

theorem tells_writeDir (s : State) (p : OutPin) (d : Direction) : Tells s (s.writeDir p d) := by
  refine ⟨[.dirwrite p d], rfl, fun q => rfl, fun q => ?_, (List.append_nil _).symm, .inl ⟨rfl, rfl⟩⟩
  by_cases hq : p = q
  · simp [State.told, lastDirwrite, hq]
  · simp [State.told, lastDirwrite, hq, OutDirs.get_set_other s.dir (Ne.symm hq)]

theorem tells_raise (s : State) (c : FaultCode) : Tells s (s.raise c) := by
  by_cases hf : s.fault = 0
  · rw [raise_of_faultFree s c hf]
    exact ⟨[.fault c.code], rfl, fun p => rfl, fun p => rfl, (List.append_nil _).symm,
      .inr ⟨hf, c.code_ne_zero, rfl⟩⟩
  · rw [raise_of_faulted s c hf]
    exact tells_of_told_eq rfl

/-- A byte delivered to the line. -/
theorem tells_uartline (s : State) (b : Byte) :
    Tells s ({ s with utxline := s.utxline ++ [b] }.emit (.uartline b)) :=
  ⟨[.uartline b], rfl, fun _ => rfl, fun _ => rfl, rfl, .inl ⟨rfl, rfl⟩⟩

theorem tells_returnFromHandler (s : State) (v : Source) : Tells s (s.returnFromHandler v) :=
  (tells_record s .mux .reti).trans (tells_emit rfl _)

theorem tells_takeInterrupt (s : State) (v : Source) : Tells s (s.takeInterrupt v) := by
  refine ((tells_emit (e := .dispatch v) rfl s).trans (tells_record _ .mux (entryWord v))).trans ?_
  exact tells_of_told_eq (by simp [State.told])

theorem MicroChange.tells {v : Source} (h : MicroChange s v t) : Tells s t := by
  cases h with
  | raised v c _ => exact tells_raise s c
  | returned v => exact tells_returnFromHandler s v
  | writeProut m j _ => exact tells_writeLat s .prout m.bit
  | writeMsout _ b j _ => exact tells_writeLat s .msout b
  | writeCsout _ m b => exact tells_writeLat s .csout b
  | relay y _ _ => exact tells_emit (e := .usbsend .data y) rfl s
  | drop y _ => exact tells_emit (e := .drop y) rfl s
  | _ => exact tells_of_told_eq rfl

/-- A turn's events tell what it changes. -/
theorem Change.tells {a : Action} (h : Change s a t) : Tells s t := by
  cases h with
  | raised _ c _ => exact tells_raise s c
  | jumped k => exact tells_of_told_eq rfl
  | gated ie => exact tells_of_told_eq rfl
  | wroteLat i p v _ => exact (tells_record s .fg i).trans (tells_writeLat _ p v)
  | wroteLats i p q v w _ =>
    exact ((tells_record s .fg i).trans (tells_writeLat _ p v)).trans (tells_writeLat _ q w)
  | wroteDir i p d _ => exact (tells_record s .fg i).trans (tells_writeDir _ p d)
  | uartTx i y _ => exact (tells_record s .fg i).trans (tells_emit (e := .uarttx y) rfl _)
  | usbRecv i c v r =>
    refine ((tells_record s .fg i).trans (tells_emit (e := .usbrecv c r) rfl _)).trans ?_
    exact tells_of_told_eq (by simp [State.told])
  | usbSend i c y _ =>
    refine ((tells_record s .fg i).trans (tells_emit (e := .usbsend c y) rfl _)).trans ?_
    exact tells_of_told_eq (by simp [State.told])
  | dispatched _ v _ => exact tells_takeInterrupt s v
  | returned _ v _ => exact tells_returnFromHandler s v
  | micro v _ _ _ hm => exact hm.tells
  | txDone g i b _ => exact (tells_record s g i).trans (tells_uartline _ b)
  | read i | enables i | irqGlobal i | uartDeinit i | uartInit i | connected i | disconnected i | reported i =>
    exact (tells_record s .fg i).trans (tells_of_told_eq (by simp [State.told]))
  | inputs g i | uartRx g i | hostCls g i | hostConnect g i | hostDisconnect g i | hostByte g i | hostTake g i =>
    exact (tells_record s g i).trans (tells_of_told_eq (by simp [State.told]))

/-- The machine after a reset has an empty history and outputs never written. -/
theorem resetNow_histAgrees (s : State) : s.resetNow.HistAgrees :=
  ⟨fun p => by cases p <;> rfl, fun p => by cases p <;> rfl, rfl, rfl⟩

/-- Settles O50: a step's events tell what it changes, and a reset leaves nothing to tell. -/
theorem stepKeepsHistoryInAgreement : Obligations.StepKeepsHistoryInAgreement := by
  unfold Obligations.StepKeepsHistoryInAgreement
  intro s t hs h
  obtain ⟨rest, k, ⟨-, rfl⟩ | ⟨-, hc⟩⟩ := step_change h
  · exact resetNow_histAgrees _
  · exact hc.tells.histAgrees hs

end Sys2Proof.Machine
end

section
/-! O52, O53, O54: who writes the outputs, BOOTED, GIE and the indicators (10_state.md R32, R43, R49, R51), read off the
changes of a step. -/

namespace Sys2Proof.Machine

variable {s t : State} {a : Action}

/-! ## The writers, field by field -/

/-- The fields that no micro-step writes, with the fields that no step writes. -/
structure Setup where
  cfg : Params
  script : List Stmt
  booted : Bool
  gie : Bool
  dir : OutDirs

def State.setup (s : State) : Setup where
  cfg := s.cfg
  script := s.script
  booted := s.booted
  gie := s.gie
  dir := s.dir

theorem MicroChange.setup_eq {v : Source} (h : MicroChange s v t) : t.setup = s.setup := by
  cases h with
  | raised => simp [State.setup]
  | _ => rfl

/-- Only the line handlers' micro-steps write a latch (10_state.md R51). -/
theorem MicroChange.lat_eq {v : Source} (h : MicroChange s v t) (ha : v ≠ .extA) (hb : v ≠ .extB) :
    t.lat = s.lat := by
  have hn {k ret : Nat} : ¬ RoleSequence v k ret := by simp [RoleSequence, ha, hb]
  cases h with
  | writeMsout hv | writeCsout hv => exact absurd hv hn
  | writeProut => exact absurd rfl ha
  | raised => simp
  | _ => rfl

/-- TXI is set in the transmit-complete handler and cleared in the tick handler. -/
theorem MicroChange.txi {v : Source} (h : MicroChange s v t) (ht : t.txi ≠ s.txi) :
    v = .utx ∧ t.txi = true ∨ v = .tick ∧ t.txi = false := by
  cases h with
  | setTxi => exact .inl ⟨rfl, rfl⟩
  | clearTxi => exact .inr ⟨rfl, rfl⟩
  | raised => simp at ht
  | _ => exact absurd rfl ht

/-- RXI is set in the receive handler and cleared in the tick handler. -/
theorem MicroChange.rxi {v : Source} (h : MicroChange s v t) (ht : t.rxi ≠ s.rxi) :
    v = .urx ∧ t.rxi = true ∨ v = .tick ∧ t.rxi = false := by
  cases h with
  | setRxi => exact .inl ⟨rfl, rfl⟩
  | clearRxi => exact .inr ⟨rfl, rfl⟩
  | raised => simp at ht
  | _ => exact absurd rfl ht

theorem Change.cfg_script (h : Change s a t) : t.cfg = s.cfg ∧ t.script = s.script := by
  cases h with
  | micro v _ _ _ hm =>
    obtain ⟨hc, hs, -⟩ := Setup.mk.inj hm.setup_eq
    exact ⟨hc, hs⟩
  | _ => simp

/-- IRQ_GLOBAL alone writes BOOTED, and only to 1 (48_system.md R177). -/
theorem Change.booted (h : Change s a t) (hb : s.booted = true) : t.booted = true := by
  cases h with
  | micro v _ _ _ hm =>
    obtain ⟨-, -, he, -⟩ := Setup.mk.inj hm.setup_eq
    exact he.trans hb
  | _ => simp [hb]

theorem Change.gie (h : Change s a t) (hg : t.gie ≠ s.gie) : a = .script := by
  cases h with
  | irqGlobal => rfl
  | micro v _ _ _ hm =>
    obtain ⟨-, -, -, he, -⟩ := Setup.mk.inj hm.setup_eq
    exact absurd he hg
  | _ => simp at hg

/-- FG's words for a latch or a direction fault once BOOTED (60_exceptions.md R184 (b)). -/
theorem Change.dir_eq (h : Change s a t) (hb : s.booted = true) : t.dir = s.dir := by
  cases h with
  | wroteDir _ _ _ h0 => simp [hb] at h0
  | micro v _ _ _ hm =>
    obtain ⟨-, -, -, -, he⟩ := Setup.mk.inj hm.setup_eq
    exact he
  | _ => simp

/-- A turn that is no micro-step leaves TXI and RXI. -/
theorem Change.indicators (h : Change s a t) :
    (∃ v, a = .mux ∧ s.ctx = .handler v ∧ MicroChange s v t) ∨ t.txi = s.txi ∧ t.rxi = s.rxi := by
  cases h with
  | micro v _ _ hc hm => exact .inl ⟨v, rfl, hc, hm⟩
  | _ => simp

/-- FG's words aside, which fault once BOOTED, only the line handlers write a latch (10_state.md R51). -/
theorem Change.lat_eq (h : Change s a t) (hb : s.booted = true)
    (hl : a = .mux → s.ctx ≠ .handler .extA ∧ s.ctx ≠ .handler .extB) : t.lat = s.lat := by
  cases h with
  | wroteLat _ _ _ h0 | wroteLats _ _ _ _ _ h0 => simp [hb] at h0
  | micro v _ _ hc hm =>
    obtain ⟨ha, hb⟩ := hl rfl
    exact hm.lat_eq (fun hv => ha (hv ▸ hc)) (fun hv => hb (hv ▸ hc))
  | _ => simp

/-- A latch written stays written: HIST gains the later writes, if there are any. -/
theorem Tells.lat_ne_none {p : OutPin} (h : Tells s t) (hp : s.lat.get p ≠ none) : t.lat.get p ≠ none := by
  obtain ⟨es, -, hl, -⟩ := h
  simp only [State.told] at hl
  simp [hl, hp]

theorem Tells.hist_eq (h : Tells s t) : ∃ es, t.hist = s.hist ++ es := by
  obtain ⟨es, hh, -⟩ := h
  exact ⟨es, hh⟩

/-! ## The statements -/

/-- Short of reset a step is a change of its turn. -/
theorem step_change_of_ne_reset (h : step s = .next t) (ha : s.turn ≠ .reset) :
    ∃ rest k, Change { s with sched := rest, round := k } s.turn t := by
  obtain ⟨rest, k, ⟨hr, -⟩ | ⟨-, hc⟩⟩ := step_change h
  · exact absurd hr ha
  · exact ⟨rest, k, hc⟩

/-- Settles O52: FG's words for the outputs fault once BOOTED, and only line handlers have a micro-step that writes
one. -/
theorem onlyTheLineHandlersWriteOutputsOnceBooted : Obligations.OnlyTheLineHandlersWriteOutputsOnceBooted := by
  unfold Obligations.OnlyTheLineHandlersWriteOutputsOnceBooted
  intro s t hb h ha
  obtain ⟨rest, k, hc⟩ := step_change_of_ne_reset h ha
  exact ⟨hc.dir_eq hb, hc.lat_eq hb⟩

/-- Settles O53: what HIST gains tells the latches; BOOTED has one writer; a reset keeps parameters and script. -/
theorem nothingIsForgottenShortOfReset : Obligations.NothingIsForgottenShortOfReset := by
  unfold Obligations.NothingIsForgottenShortOfReset
  intro s t h
  refine ⟨fun ha => ?_, ?_⟩
  · obtain ⟨rest, k, hc⟩ := step_change_of_ne_reset h ha
    exact ⟨fun _ => hc.tells.lat_ne_none, hc.booted, hc.tells.hist_eq⟩
  · obtain ⟨rest, k, ⟨-, rfl⟩ | ⟨-, hc⟩⟩ := step_change h
    · exact ⟨rfl, rfl⟩
    · exact hc.cfg_script

/-- Settles O54: GIE has one writer, and the indicators have theirs among the micro-steps. -/
theorem indicatorsAndGlobalEnableHaveTheirWriters : Obligations.IndicatorsAndGlobalEnableHaveTheirWriters := by
  unfold Obligations.IndicatorsAndGlobalEnableHaveTheirWriters
  intro s t h ha
  obtain ⟨rest, k, hc⟩ := step_change_of_ne_reset h ha
  refine ⟨hc.gie, fun ht => ?txi, fun ht => ?rxi⟩
  case txi =>
    obtain ⟨v, hmux, hv, hm⟩ | ⟨he, -⟩ := hc.indicators
    · obtain ⟨rfl, hset⟩ | ⟨rfl, hset⟩ := hm.txi ht
      · exact ⟨hmux, .inl ⟨hv, hset⟩⟩
      · exact ⟨hmux, .inr ⟨hv, hset⟩⟩
    · exact absurd he ht
  case rxi =>
    obtain ⟨v, hmux, hv, hm⟩ | ⟨-, he⟩ := hc.indicators
    · obtain ⟨rfl, hset⟩ | ⟨rfl, hset⟩ := hm.rxi ht
      · exact ⟨hmux, .inl ⟨hv, hset⟩⟩
      · exact ⟨hmux, .inr ⟨hv, hset⟩⟩
    · exact absurd he ht

end Sys2Proof.Machine
end

section
/-! O48, O49, O51: the invariant of the machine (10_state.md R25, R27, R46, 42_uart.md R106, R107, 47_environment.md
R166, R170, R171, 48_system.md R177, 60_exceptions.md R183, R193), clause by clause. -/

namespace Sys2Proof.Machine

variable {s t : State} {a : Action} {v : Source}

/-! ## CTX, HPC and the temporaries -/

theorem contextOk_handler {k : Nat} (hc : t.ctx = .handler v) (hk : t.hpc = some k) (hle : k ≤ finalStep v)
    (hr : temporariesReady v k t = true) : contextOk t = true :=
  (contextOk_of_handler hc).mpr ⟨k, hk, hle, hr⟩

/-- Taking the receive interrupt moves RXDATA, which RXFULL = 1 says is there, to T_BYTE (60_exceptions.md R195). -/
theorem contextOk_takeInterrupt (hd : s.nextDispatch = some v) (hu : uartOk s = true) :
    contextOk (s.takeInterrupt v) = true := by
  obtain ⟨hflag, -⟩ := nextDispatch_some hd
  refine contextOk_handler (takeInterrupt_ctx s v) (takeInterrupt_hpc s v) (Nat.zero_le _) ?_
  cases v with
  | urx =>
    simp only [State.flag] at hflag
    simp_all [temporariesReady, takeInterrupt_eq, uartOk]
  | _ => rfl

/-- Each micro-step writes the temporary that a later one reads, and moves HPC within the handler. -/
theorem MicroChange.keeps_contextOk (h : MicroChange s v t) (hc : s.ctx = .handler v) (ho : contextOk s = true) :
    contextOk t = true := by
  obtain ⟨k, hk, -, hr⟩ := (contextOk_of_handler hc).mp ho
  cases h with
  | raised _ c => simpa [contextOk, temporariesReady] using ho
  | returned => rfl
  | detectMode m => exact contextOk_handler hc rfl (by decide) rfl
  | writeProut m j hj =>
    refine contextOk_handler hc rfl ?_ ?_ <;> rcases hj with rfl | rfl <;> simp [finalStep, temporariesReady]
  | detectRole hv r =>
    obtain ⟨rfl, rfl, rfl⟩ | ⟨rfl, rfl, rfl⟩ := hv <;> exact contextOk_handler hc rfl (by decide) rfl
  | writeMsout hv b j hj =>
    obtain ⟨rfl, rfl, rfl⟩ | ⟨rfl, rfl, rfl⟩ := hv <;> obtain rfl | rfl := hj <;>
      exact contextOk_handler hc rfl (by decide) rfl
  | readBus hv n =>
    obtain ⟨rfl, rfl, rfl⟩ | ⟨rfl, rfl, rfl⟩ := hv <;> exact contextOk_handler hc rfl (by decide) rfl
  | readKnob hv hk' n =>
    obtain rfl := Option.some.inj (hk.symm.trans hk')
    obtain ⟨rfl, rfl, rfl⟩ | ⟨rfl, rfl, rfl⟩ := hv <;>
      exact contextOk_handler hc rfl (by decide) (by simpa [temporariesReady] using hr)
  | writeCsout hv m b =>
    obtain ⟨rfl, rfl, rfl⟩ | ⟨rfl, rfl, rfl⟩ := hv <;> exact contextOk_handler hc rfl (by decide) rfl
  | clearTxi | clearRxi | setTxi => exact contextOk_handler hc rfl (by decide) rfl
  | gate j hj => exact contextOk_handler hc rfl hj hr
  | relay | setRxi | drop => exact contextOk_handler hc rfl (by decide) hr

theorem Change.keeps_contextOk (h : Change s a t) (ho : contextOk s = true) (hu : uartOk s = true) :
    contextOk t = true := by
  cases h with
  | dispatched _ v hd => exact contextOk_takeInterrupt hd hu
  | returned => rfl
  | micro v _ _ hc hm => exact hm.keeps_contextOk hc ho
  | _ => simpa [contextOk, temporariesReady] using ho

/-! ## The UART -/

theorem uartOk_iff (s : State) : uartOk s = true ↔ s.rxfull = s.rxdata.isSome
    ∧ (s.uartEn = false → s.rxfull = false ∧ s.txc = false ∧ s.txbuf = none) ∧ (s.uartEn = true → s.baud ≠ 0) := by
  unfold uartOk
  cases s.uartEn <;> simp [and_assoc]

theorem MicroChange.uartOk_eq (h : MicroChange s v t) : uartOk t = uartOk s := by
  cases h with
  | raised => simp [uartOk]
  | _ => rfl

theorem uartOk_uartInitialize {m : Half} (hm : m ≠ 0) (ho : uartOk s = true) : uartOk (s.uartInitialize m) = true := by
  obtain ⟨hx, -, -⟩ := (uartOk_iff s).mp ho
  refine (uartOk_iff _).mpr ⟨?_, by simp, fun _ => by rwa [uartInitialize_baud]⟩
  unfold State.uartInitialize
  split
  · exact hx
  · rfl

/-- P_BAUD, which CB_CONNECT sets, is a baud rate (00_scope.md R10). -/
theorem baud_ne_zero_of_legal {c : Params} (h : c.legal = true) : c.baud ≠ 0 := by
  simp only [Params.legal, Bool.and_eq_true, decide_eq_true_eq] at h
  obtain ⟨⟨⟨⟨⟨-, hb⟩, -⟩, -⟩, -⟩, -⟩ := h
  exact hb

/-- An interrupt takes RXDATA along with RXFULL and sets no flag (60_exceptions.md R195). -/
theorem uartOk_takeInterrupt (v : Source) (ho : uartOk s = true) : uartOk (s.takeInterrupt v) = true := by
  rw [uartOk_iff] at ho ⊢
  obtain ⟨hx, hd, hb⟩ := ho
  cases v <;> simp_all [takeInterrupt_eq]

theorem Change.keeps_uartOk (h : Change s a t) (hl : s.cfg.legal = true) (ho : uartOk s = true) : uartOk t = true := by
  cases h with
  | uartInit i m hm => exact uartOk_uartInitialize (s := s.record .fg i) hm ho
  | connected i rest =>
    exact uartOk_uartInitialize (s := { s with evq := rest }.record .fg i) (baud_ne_zero_of_legal hl) ho
  | uartDeinit | disconnected => rfl
  | dispatched _ v => exact uartOk_takeInterrupt v ho
  | micro v _ _ _ hm => exact hm.uartOk_eq.trans ho
  | uartTx _ _ he | uartRx _ _ _ _ he | txDone _ _ _ he => simp_all [uartOk_iff, State.txReady]
  | _ => simpa [uartOk_iff] using ho

/-! ## The USB queues -/

/-- Room for one more byte is what an append needs to stay within P_USBQ_CAP. -/
theorem hasRoom_append {c : Params} {q : List Byte} {k : Nat} (y : Byte) (hr : hasRoom c q.length = true)
    (hk : c.usbqCap = some k) : (q ++ [y]).length ≤ k := by
  have := (hasRoom_iff c q.length).mp hr k hk
  simpa using this

/-- A queue of one channel, written anew within its capacity, leaves the queues' clause. -/
theorem queuesOk_setOutq {c : Chan} {q : List Byte} (ho : queuesOk s = true)
    (hq : ∀ k, s.cfg.usbqCap = some k → q.length ≤ k) : queuesOk (s.setOutq c q) = true := by
  obtain ⟨hi, hout, hh⟩ := (queuesOk_iff s).mp ho
  refine (queuesOk_iff _).mpr ⟨fun d => ?_, fun d => ?_, ?_⟩
  · cases c <;> exact hi d
  · by_cases hd : d = c
    · subst hd
      simpa using hq
    · rw [setOutq_outq_other s hd, setOutq_cfg]
      exact hout d
  · cases c <;> exact hh

theorem queuesOk_setInq {c : Chan} {q : List Byte} (ho : queuesOk s = true)
    (hq : ∀ k, s.cfg.usbqCap = some k → q.length ≤ k) (he : s.hostconn = false → q = []) :
    queuesOk (s.setInq c q) = true := by
  obtain ⟨hi, hout, hh⟩ := (queuesOk_iff s).mp ho
  refine (queuesOk_iff _).mpr ⟨fun d => ?_, fun d => ?_, fun hc => ?_⟩
  · by_cases hd : d = c
    · subst hd
      simpa using hq
    · rw [setInq_inq_other s hd, setInq_cfg]
      exact hi d
  · cases c <;> exact hout d
  · rw [setInq_hostconn] at hc
    obtain ⟨h0, h1⟩ := hh hc
    cases c
    · exact ⟨he hc, h1⟩
    · exact ⟨h0, he hc⟩

theorem length_outq_le {c : Chan} {k : Nat} (ho : queuesOk s = true) (hk : s.cfg.usbqCap = some k) :
    (s.outq c).length ≤ k := by
  obtain ⟨-, hout, -⟩ := (queuesOk_iff s).mp ho
  exact hout c k hk

theorem length_inq_le {c : Chan} {k : Nat} (ho : queuesOk s = true) (hk : s.cfg.usbqCap = some k) :
    (s.inq c).length ≤ k := by
  obtain ⟨hi, -, -⟩ := (queuesOk_iff s).mp ho
  exact hi c k hk

theorem inq_eq_nil (c : Chan) (ho : queuesOk s = true) (hh : s.hostconn = false) : s.inq c = [] := by
  obtain ⟨-, -, he⟩ := (queuesOk_iff s).mp ho
  obtain ⟨h0, h1⟩ := he hh
  cases c
  · exact h0
  · exact h1

theorem MicroChange.keeps_queuesOk (h : MicroChange s v t) (ho : queuesOk s = true) : queuesOk t = true := by
  cases h with
  | raised => simpa [queuesOk] using ho
  | relay y _ hr =>
    have hq := queuesOk_setOutq (c := .data) (q := s.outq0 ++ [y]) ho fun k => hasRoom_append y hr
    exact hq
  | _ => exact ho

theorem Change.keeps_queuesOk (h : Change s a t) (ho : queuesOk s = true) : queuesOk t = true := by
  cases h with
  | usbRecv i c =>
    have hq := queuesOk_setInq (s := s.record .fg i) (c := c) (q := (s.inq c).tail) ho
      (fun k hk => by simpa using Nat.le_succ_of_le (length_inq_le (c := c) ho hk))
      (fun hh => by rw [inq_eq_nil c ho hh, List.tail_nil])
    simpa [queuesOk] using hq
  | usbSend i c y hr =>
    have hq := queuesOk_setOutq (s := s.record .fg i) (c := c) (q := s.outq c ++ [y]) ho
      fun k => hasRoom_append y hr
    simpa [queuesOk] using hq
  | hostByte g i c y hh hr =>
    exact queuesOk_setInq (s := s.record g i) (c := c) (q := s.inq c ++ [y]) ho (fun k => hasRoom_append y hr)
      fun h0 => absurd (hh.symm.trans h0) (by decide)
  | hostTake g i c =>
    exact queuesOk_setOutq (s := s.record g i) (c := c) (q := (s.outq c).tail) ho
      fun k hk => by simpa using Nat.le_succ_of_le (length_outq_le (c := c) ho hk)
  | hostConnect =>
    obtain ⟨hi, hout, -⟩ := (queuesOk_iff s).mp ho
    exact (queuesOk_iff _).mpr ⟨hi, hout, nofun⟩
  | hostDisconnect =>
    exact (queuesOk_iff _).mpr ⟨fun c k _ => by cases c <;> exact k.zero_le,
      fun c k _ => by cases c <;> exact k.zero_le, fun _ => ⟨rfl, rfl⟩⟩
  | micro v _ _ _ hm => exact hm.keeps_queuesOk ho
  | _ => simpa [queuesOk] using ho

/-! ## The host's events -/

/-- The event that leaves the host connected, or disconnected. -/
def connectionEvent (connected : Bool) : UsbEvent := if connected then .connect else .disconnect

/-- The host's state changes with an event that says so (47_environment.md R170, R171): the last one before it, if
there is one, says the opposite. -/
theorem connectionsAlternate_append_connectionEvent (b : Bool) {q : List UsbEvent}
    (h : connectionsAlternate (!b) q = true) : connectionsAlternate b (q ++ [connectionEvent b]) = true := by
  induction q with
  | nil => cases b <;> rfl
  | cons e q ih =>
    cases e with
    | clsChg c m => exact ih h
    | _ =>
      simp only [connectionsAlternate, List.cons_append, List.find?_append, Bool.and_eq_true] at h ⊢
      obtain ⟨hlast, hq⟩ := h
      refine ⟨?_, ih hq⟩
      generalize q.find? _ = last at hlast ⊢
      cases last with
      | none => cases b <;> simp_all [connectionEvent]
      | some e => exact hlast

theorem MicroChange.hostconn_evq (h : MicroChange s v t) : t.hostconn = s.hostconn ∧ t.evq = s.evq := by
  cases h with
  | raised => simp
  | _ => exact ⟨rfl, rfl⟩

theorem Change.keeps_connectionsAlternate (h : Change s a t)
    (ho : connectionsAlternate s.hostconn s.evq = true) : connectionsAlternate t.hostconn t.evq = true := by
  cases h with
  | connected i rest he | disconnected i rest he | reported i c m rest he =>
    simpa using connectionsAlternate_tail (he ▸ ho)
  | hostCls g i c m => exact (connectionsAlternate_append_clsChg _ _ c m).trans ho
  | hostConnect g i hh => exact connectionsAlternate_append_connectionEvent true (by simpa [hh] using ho)
  | hostDisconnect g i hh => exact connectionsAlternate_append_connectionEvent false (by simpa [hh] using ho)
  | micro v _ _ _ hm =>
    obtain ⟨hh, he⟩ := hm.hostconn_evq
    rw [hh, he]
    exact ho
  | _ => simpa using ho

/-! ## GIE and FAULT -/

theorem Change.gie_booted (h : Change s a t) (ho : s.gie = true → s.booted = true) :
    t.gie = true → t.booted = true := by
  cases h with
  | irqGlobal i b => exact fun hb => Bool.or_eq_true_iff.mpr (.inr hb)
  | micro v _ _ _ hm =>
    obtain ⟨-, -, hb, hg, -⟩ := Setup.mk.inj hm.setup_eq
    exact fun ht => hb.trans (ho (hg.symm.trans ht))
  | _ => simpa using ho

theorem raise_fault_le (c : FaultCode) (ho : s.fault.toNat ≤ 8) : (s.raise c).fault.toNat ≤ 8 := by
  unfold State.raise
  split
  · exact c.code_le
  · exact ho

theorem MicroChange.fault_le (h : MicroChange s v t) (ho : s.fault.toNat ≤ 8) : t.fault.toNat ≤ 8 := by
  cases h with
  | raised _ c => exact raise_fault_le c ho
  | _ => exact ho

theorem Change.fault_le (h : Change s a t) (ho : s.fault.toNat ≤ 8) : t.fault.toNat ≤ 8 := by
  cases h with
  | raised _ c => exact raise_fault_le c ho
  | micro v _ _ _ hm => exact hm.fault_le ho
  | _ => simpa using ho

/-! ## The statements -/

theorem Change.keeps_inv (h : Change s a t) (hs : s.inv = true) : t.inv = true := by
  obtain ⟨hl, hc, hu, hq, he, hg, hf⟩ := (inv_iff s).mp hs
  obtain ⟨hcfg, -⟩ := h.cfg_script
  exact (inv_iff t).mpr ⟨hcfg ▸ hl, h.keeps_contextOk hc hu, h.keeps_uartOk hl hu, h.keeps_queuesOk hq,
    h.keeps_connectionsAlternate he, h.gie_booted hg, h.fault_le hf⟩

/-- After a reset only the legality of the parameters is left to ask. -/
theorem resetWith_inv (pin : InLevels) {cfg : Params} (script : List Stmt) (sched : List Action) (draws round : Nat)
    (hl : cfg.legal = true) : (State.resetWith pin cfg script sched draws round).inv = true := by
  refine (inv_iff _).mpr ⟨hl, rfl, rfl, (queuesOk_iff _).mpr ?_, rfl, nofun, by simp [State.resetWith]⟩
  exact ⟨fun c k _ => by cases c <;> simp [State.resetWith, State.inq],
    fun c k _ => by cases c <;> simp [State.resetWith, State.outq], fun _ => ⟨rfl, rfl⟩⟩

/-- Settles O49: each clause is kept by each change of a step, and holds after a reset. -/
theorem stepKeepsTheInvariant : Obligations.StepKeepsTheInvariant := by
  unfold Obligations.StepKeepsTheInvariant
  intro s t hs h
  obtain ⟨rest, k, ⟨-, rfl⟩ | ⟨-, hc⟩⟩ := step_change h
  · obtain ⟨hl, -⟩ := (inv_iff s).mp hs
    exact resetWith_inv _ _ _ _ _ hl
  · exact hc.keeps_inv hs

/-- Settles O48: the defaults of R10 are legal. -/
theorem resetSatisfiesTheInvariant : Obligations.ResetSatisfiesTheInvariant := by
  unfold Obligations.ResetSatisfiesTheInvariant
  exact ⟨resetWith_inv _ _ _ _ _ (by decide), resetNow_histAgrees State.reset⟩

/-! ## Handlers never fault (10_state.md R25, R27) -/

/-- With the temporaries written and room in OUTQ[0] a micro-step keeps FAULT, and its handler runs on or returns. -/
theorem MicroChange.fault_ctx (h : MicroChange s v t) (hc : s.ctx = .handler v) (ho : contextOk s = true)
    (hr : hasRoom s.cfg s.outq0.length = true) : t.fault = s.fault ∧ (t.ctx = .handler v ∨ t.ctx = .fg) := by
  cases h with
  | raised _ c hn => exact absurd (hn ho) (by simp [hr])
  | returned => exact ⟨rfl, .inr rfl⟩
  | _ => exact ⟨rfl, .inl hc⟩

/-- Settles O51: a handler always has its next micro-step, and under the invariant none of its faults can be raised. -/
theorem handlersNeverFault : Obligations.HandlersNeverFault := by
  unfold Obligations.HandlersNeverFault
  intro s rest v hs hf hc hcap hsched
  obtain ⟨-, hctx, -⟩ := (inv_iff s).mp hs
  obtain ⟨k, hk, -⟩ := (contextOk_of_handler hc).mp hctx
  obtain ⟨t, ht, hm⟩ := hasMicroChange_microStep (s := { s with sched := rest }) hf hc
  obtain ⟨htf, htc⟩ := hm.fault_ctx hc hctx (by simp [hasRoom, hcap])
  exact ⟨t, (step_of_inHandler hsched ⟨hf, hc, hk⟩).trans ht, htf.trans hf, htc⟩

end Sys2Proof.Machine
end

section
/-! O9, O18: which instruction a step runs, and the levels seen outside the CORE. -/

namespace Sys2Proof.Machine

variable {s : State}

/-! ## A step runs the decoded instruction (20_memory.md R67, R71) -/

theorem decode_eq_ok {w : Word} {i : Instr} (h : decode w = .ok i) :
    readFields w = some i ∧ reservedClear i w = true := by
  unfold decode at h
  split at h
  · cases h
  · split at h <;> cases h
    exact ⟨‹_›, ‹_›⟩

/-- A word that passes the checks 1 to 3 of R186 runs. -/
theorem presentWord_eq_exec {a : Agent} {w : Word} {i : Instr} (hf : s.fault = 0) (hb : a = .fg → s.fgcb = none)
    (hw : decode w = .ok i) (hm : mayPerform a i s = true) : presentWord a w s = exec i s := by
  obtain ⟨hr, hc⟩ := decode_eq_ok hw
  have hb' : ¬ (a = .fg ∧ s.fgcb.isSome = true) := fun ⟨ha, hs⟩ => by simp [hb ha] at hs
  simp [presentWord, hf, hb', hr, hm, hc]

/-- FG's turn at a literal class S word. -/
theorem scriptStep_eq_exec {w : Word} {i : Instr} (hr : s.FgReady) (hs : s.script[s.fgpc]? = some (.word w))
    (hw : decode w = .ok i) (hi : i.wordClass = .software) : scriptStep s = exec i s := by
  obtain ⟨hf, hc, hb⟩ := hr
  have hm : mayPerform .fg i s = true := by simp [mayPerform, hi, hc]
  simpa [scriptStep, State.atBoundary, hf, hc, hb, hs, runStmt] using presentWord_eq_exec hf (fun _ => hb) hw hm

theorem deliverStep_eq_exec {e : UsbEvent} {es : List UsbEvent} (hr : s.FgReady) (he : s.evq = e :: es) :
    deliverStep s = exec (callbackOf e) s := by
  obtain ⟨hf, hc, hb⟩ := hr
  simp [deliverStep, State.atBoundary, hf, hc, hb, he]

theorem muxStep_eq_exec {v : Source} (hd : s.nextDispatch = some v) : muxStep s = exec (entryWord v) s := by
  obtain ⟨-, -, -, hc, hf⟩ := nextDispatch_some hd
  simp [muxStep, hf, hc, hd]

/-- A scheduled turn, its entry used up. -/
theorem step_of_sched {a : Action} {rest : List Action} (hs : s.sched = a :: rest) :
    step s = perform a { s with sched := rest } := by
  simp [step, stepMachine, State.nextAction, hs]

/-- With nothing scheduled, MUX without a step and no event waiting, FG's turn in the default order is its script's
(log 2). -/
theorem step_of_idle_script {st : Stmt} (hs : s.sched = []) (hr : s.round % 4 = 0) (hc : s.ctx = .fg)
    (hb : s.fgcb = none) (hd : s.nextDispatch = none) (he : s.evq = []) (hst : s.script[s.fgpc]? = some st) :
    step s = scriptStep { s with round := s.round + 1 } := by
  have hm : s.muxEnabled = false := by simp [State.muxEnabled, hc, hd]
  have hrot : s.rotation = .script := by simp [State.rotation, State.fgAction, hr, hb, he, hst]
  simp [step, stepMachine, State.nextAction, hs, hm, hrot, perform]

/-- Settles O9: each kind of turn comes to `exec` of its instruction. -/
theorem stepRunsTheDecodedInstruction : Obligations.StepRunsTheDecodedInstruction := by
  unfold Obligations.StepRunsTheDecodedInstruction
  intro s rest hf
  refine ⟨fun a w i hs ha hw hm => ?word, fun w i hs hc hb hst hw hi => ?script, fun e es hs hc hb he => ?deliver,
    fun v hs hd => ?mux, fun w i hs hr hc hb hd he hst hw hi => ?idle⟩
  case word =>
    have hp := presentWord_eq_exec (s := { s with sched := rest }) hf (fun h => absurd h ha) hw hm
    rw [step_of_sched hs, ← hp]
    cases a with
    | fg => exact absurd rfl ha
    | _ => rfl
  case script =>
    exact (step_of_sched hs).trans (scriptStep_eq_exec (s := { s with sched := rest }) ⟨hf, hc, hb⟩ hst hw hi)
  case deliver =>
    exact (step_of_sched hs).trans (deliverStep_eq_exec (s := { s with sched := rest }) ⟨hf, hc, hb⟩ he)
  case mux => exact (step_of_sched hs).trans (muxStep_eq_exec (s := { s with sched := rest }) hd)
  case idle =>
    exact (step_of_idle_script hs hr hc hb hd he hst).trans
      (scriptStep_eq_exec (s := { s with round := s.round + 1 }) ⟨hf, hc, hb⟩ hst hw hi)

/-! ## The level seen outside (10_state.md R33) -/

/-- Settles O18: DIR, and then the latch, decide. -/
theorem outputLevelSeenOutside : Obligations.OutputLevelSeenOutside := by
  unfold Obligations.OutputLevelSeenOutside
  intro s p d
  unfold State.outLevel
  refine ⟨fun hd => ?_, fun v hd hl => ?_, fun hd hl => ?_⟩
  · rw [hd]
  · rw [hd, hl]
  · rw [hd, hl]

end Sys2Proof.Machine
end

section
/-! O28: REG_READ and the register map (48_system.md R178, 10_state.md R54, R55, R56). -/

namespace Sys2Proof.Machine

variable {s : State}

/-! ## Registers as packed bits -/

/-- A register of fields reads its fields bit by bit, and 0 above them. -/
theorem getLsbD_packBits (l : List Bool) {b : Nat} (hb : b < 8) :
    (BitVec.ofNat 8 (packBits l)).getLsbD b = (l[b]?).getD false := by
  rw [BitVec.getLsbD_ofNat, packBits_testBit]
  simp [hb]

theorem packBits_append (l m : List Bool) : packBits (l ++ m) = packBits l + 2 ^ l.length * packBits m := by
  induction l with
  | nil => simp [packBits]
  | cons x xs ih =>
    simp only [List.cons_append, packBits, ih, List.length_cons, pow_succ]
    ring

theorem packBits_lt (l : List Bool) : packBits l < 2 ^ l.length := by
  induction l with
  | nil => simp [packBits]
  | cons x xs ih =>
    simp only [packBits, List.length_cons, pow_succ]
    cases x <;> simp <;> omega

/-- BUS and KNOB side by side, one reserved bit between them (10_state.md R55). -/
theorem fieldBus_fieldKnob_eq_packBits (s : State) : s.fieldBus.toNat + 16 * s.fieldKnob.toNat =
    packBits [s.sync.bus0, s.sync.bus1, s.sync.bus2, false,
      s.sync.knob0, s.sync.knob1, s.sync.knob2, s.sync.knob3] := by
  have hbus := packBits_lt [s.sync.bus0, s.sync.bus1, s.sync.bus2]
  have hknob := packBits_lt [s.sync.knob0, s.sync.knob1, s.sync.knob2, s.sync.knob3]
  have hsplit := packBits_append [s.sync.bus0, s.sync.bus1, s.sync.bus2, false]
    [s.sync.knob0, s.sync.knob1, s.sync.knob2, s.sync.knob3]
  have hpad := packBits_append [s.sync.bus0, s.sync.bus1, s.sync.bus2] [false]
  simp only [List.cons_append, List.nil_append, List.length_cons, List.length_nil] at hbus hknob hsplit hpad
  rw [hsplit, hpad, State.fieldBus, State.fieldKnob, BitVec.toNat_ofNat, BitVec.toNat_ofNat,
    Nat.mod_eq_of_lt hbus, Nat.mod_eq_of_lt hknob]
  simp [packBits]

theorem Direction.bit_eq (d : Direction) : d.bit = (d == .out) := by cases d <;> rfl

/-! ## REG_READ -/

/-- No register shows HIST. -/
theorem record_regByte (s : State) (a : Agent) (i : Instr) (n : Nat) (d : Byte) :
    (s.record a i).regByte n d = s.regByte n d := by
  unfold State.regByte
  rfl

/-- The value of a legal register goes to RES; a register that holds `none` somewhere takes one free byte. -/
theorem exec_regRead_eq {n : Byte} (hr : s.FgReady) (hn : n.toNat ≤ 15) : ∃ k, exec (.regRead n) s = .next { s with
    res := some ((s.regByte n.toNat s.drawByte).setWidth 16), fgpc := s.fgpc + 1,
    hist := s.hist ++ [.word .fg (encode (.regRead n))], draws := s.draws + k } := by
  obtain ⟨hf, hc, hb⟩ := hr
  have hx : exec (.regRead n) s = execRegRead n s := rfl
  rw [hx, execRegRead, softwareWord_run hf hb hc (by simp [operandFault, checkIndex, hn]) (by simp [writesOwnedPin])]
  have hd : (s.record .fg (.regRead n)).drawByte = s.drawByte := rfl
  simp only [record_regByte, hd, zextByte]
  split
  · exact ⟨1, by simp [State.advance, State.drawn, State.setRes, State.record, State.emit]⟩
  · exact ⟨0, by simp [State.advance, State.setRes, State.record, State.emit]⟩

theorem exec_regRead_badReg {n : Byte} (hr : s.FgReady) (hn : 15 < n.toNat) :
    exec (.regRead n) s = .next { s with fault := 0x05, hist := s.hist ++ [.fault 0x05] } := by
  obtain ⟨hf, hc, hb⟩ := hr
  have hl : lateFault (.regRead n) s = some .badReg := by
    simp [lateFault, operandFault, checkIndex, Nat.not_le.mpr hn]
  have hx : exec (.regRead n) s = execRegRead n s := rfl
  rw [hx, execRegRead, softwareWord_of_lateFault hf hb hc hl, raise_of_faultFree s _ hf]
  rfl

/-- Settles O28: REG_READ gives `regByte`, and each register of fields is a list of packed bits. -/
theorem regReadFollowsTheRegisterMap : Obligations.RegReadFollowsTheRegisterMap := by
  unfold Obligations.RegReadFollowsTheRegisterMap
  intro s n hr
  refine ⟨fun hn => ?_, exec_regRead_badReg hr⟩
  obtain ⟨k, hx⟩ := exec_regRead_eq hr hn
  refine ⟨s.regByte n.toNat s.drawByte, k, hx, ?_⟩
  refine ⟨?ctrl, ?flags, ?ind, ?ctxr, ?outlat, ?outdir, ?inp, ?addr, ?cls0l, ?cls0h, ?cls1l, ?cls1h, ?rxdata, ?baudl,
    ?baudh, ?fault⟩
  all_goals rintro rfl
  case ctrl | flags | ind | inp => exact fun b hb => getLsbD_packBits _ hb
  case ctxr =>
    obtain ⟨-, hc, -⟩ := hr
    have hv : s.regByte 3 s.drawByte = BitVec.ofNat 8 (s.ctx.inHandler.toNat + 2 * s.ctx.act) := rfl
    exact hv.trans (by rw [hc]; rfl)
  case outlat => exact ⟨s.drawByte, fun b hb => getLsbD_packBits _ hb⟩
  case outdir =>
    intro b hb
    simp only [← Direction.bit_eq]
    exact getLsbD_packBits _ hb
  case addr =>
    intro b hb
    rw [← getLsbD_packBits _ hb, ← fieldBus_fieldKnob_eq_packBits]
    rfl
  case rxdata =>
    intro v hv
    exact congrArg (Option.getD · s.drawByte) hv
  case cls0l | cls0h | cls1l | cls1h | baudl | baudh | fault => rfl

end Sys2Proof.Machine
end

section
/-! O1 to O4, O8: the encoding. A word is its three fields (30_encoding.md R79); a shape's mask is cut into the same
three parts, so that the row a word selects and the operands it holds are read off field by field. -/

namespace Sys2Proof

/-! ## The fields of a word (30_encoding.md R79, R81) -/

section
variable (o s : Byte) (d : Half) (w : Word)

@[simp] theorem opcField_append : opcField (o ++ s ++ d) = o := by
  rw [opcField, BitVec.extractLsb'_append_eq_of_le (by decide)]
  exact BitVec.extractLsb'_append_eq_left

@[simp] theorem subField_append : subField (o ++ s ++ d) = s := by
  rw [subField, BitVec.extractLsb'_append_eq_of_le (by decide)]
  exact BitVec.extractLsb'_append_eq_right

@[simp] theorem dataField_append : dataField (o ++ s ++ d) = d := BitVec.extractLsb'_append_eq_right

/-- A word is its fields put together. -/
theorem append_fields : opcField w ++ subField w ++ dataField w = w := by
  apply BitVec.eq_of_getLsbD_eq
  intro k hk
  simp only [opcField, subField, dataField, BitVec.getLsbD_append, BitVec.getLsbD_extractLsb']
  split
  · simp [*]
  · split
    · simp [*, show 16 + (k - 16) = k by omega]
    · simp [show 24 + (k - 16 - 8) = k by omega, show k - 16 - 8 < 8 by omega]

theorem dataBit_eq : dataBit w = (dataField w)[0] := by
  simp [dataBit, dataField]

theorem dataByte_eq : dataByte w = (dataField w).extractLsb' 0 8 := by
  apply BitVec.eq_of_getLsbD_eq
  intro k hk
  simp [dataByte, dataField, hk]

end

section
variable (i : Instr)

@[simp] theorem opcField_encode : opcField (encode i) = i.opc := opcField_append ..
@[simp] theorem subField_encode : subField (encode i) = i.sub := subField_append ..
@[simp] theorem dataField_encode : dataField (encode i) = i.data := dataField_append ..

end

/-- Words are equal iff their fields are. -/
theorem append_eq_append_iff {o o' s s' : Byte} {d d' : Half} :
    o ++ s ++ d = o' ++ s' ++ d' ↔ o = o' ∧ s = s' ∧ d = d' := by
  constructor
  · intro h
    exact ⟨by simpa using congrArg opcField h, by simpa using congrArg subField h,
      by simpa using congrArg dataField h⟩
  · rintro ⟨rfl, rfl, rfl⟩
    rfl

/-! ## Value operands (30_encoding.md R81) -/

@[simp] theorem bitData_getElem_zero (b : Bool) : (bitData b)[0] = b := by
  cases b <;> rfl

@[simp] theorem byteData_extractLsb' (y : Byte) : (byteData y).extractLsb' 0 8 = y := by
  apply BitVec.eq_of_getLsbD_eq
  intro k hk
  simp [byteData, hk, show k < 16 by omega]

/-- The bit operand of a DATA field is its bit 0. -/
theorem bitData_of_data (d : Half) : bitData d[0] = d &&& 1#16 := by
  apply BitVec.eq_of_getLsbD_eq
  intro k hk
  cases k <;> simp [bitData]

/-- The byte operand of a DATA field is its low byte. -/
theorem byteData_of_data (d : Half) : byteData (d.extractLsb' 0 8) = d &&& 0xFF#16 := by
  apply BitVec.eq_of_getLsbD_eq
  intro k hk
  rw [show 0xFF#16 = (BitVec.allOnes 8).setWidth 16 from rfl]
  simp only [byteData, BitVec.getLsbD_setWidth, BitVec.getLsbD_extractLsb', BitVec.getLsbD_and, BitVec.getLsbD_allOnes]
  simp [hk, Bool.and_comm]

@[simp] theorem RunMode.ofBit_bit (m : RunMode) : RunMode.ofBit m.bit = m := by cases m <;> rfl
@[simp] theorem RunMode.bit_ofBit (b : Bool) : (RunMode.ofBit b).bit = b := by cases b <;> rfl
@[simp] theorem Role.ofBit_bit (r : Role) : Role.ofBit r.bit = r := by cases r <;> rfl
@[simp] theorem Role.bit_ofBit (b : Bool) : (Role.ofBit b).bit = b := by cases b <;> rfl
@[simp] theorem Direction.ofBit_bit (d : Direction) : Direction.ofBit d.bit = d := by cases d <;> rfl
@[simp] theorem Direction.bit_ofBit (b : Bool) : (Direction.ofBit b).bit = b := by cases b <;> rfl

/-! ## Mask and match, field by field (30_encoding.md R80) -/

/-- The reserved bits of SUB: none where SUB is the index operand, all elsewhere. -/
def Shape.subMask : Shape → Byte
  | .i | .ib | .iy | .im => 0
  | .n | .b | .y | .m => 0xFF

/-- The reserved bits of DATA: those outside the value operand. -/
def Shape.dataMask : Shape → Half
  | .n | .i => 0xFFFF
  | .ib | .b => 0xFFFE
  | .iy | .y => 0xFF00
  | .im | .m => 0

theorem and_not_eq_self {n : Nat} {x m : BitVec n} (h : x &&& m = 0) : x &&& ~~~m = x := by
  apply BitVec.eq_of_getLsbD_eq
  intro k hk
  have hkm : (x.getLsbD k && m.getLsbD k) = false := by
    rw [← BitVec.getLsbD_and, h]
    exact BitVec.getLsbD_zero
  rw [BitVec.getLsbD_and, BitVec.getLsbD_not]
  cases hx : x.getLsbD k <;> simp_all

theorem Shape.mask_eq (sh : Shape) : sh.mask = 0xFF#8 ++ sh.subMask ++ sh.dataMask := by
  cases sh <;> rfl

theorem matchWord_eq (o : Byte) : matchWord o = o ++ 0#8 ++ 0#16 := by
  rw [matchWord, BitVec.append_assoc]
  rfl

/-- A word matches a row iff its OPC is the row's and its reserved bits are 0. -/
theorem and_mask_eq_matchWord_iff (sh : Shape) (o : Byte) (w : Word) :
    w &&& sh.mask = matchWord o ↔
      opcField w = o ∧ subField w &&& sh.subMask = 0 ∧ dataField w &&& sh.dataMask = 0 := by
  have hw : w &&& sh.mask
      = opcField w ++ (subField w &&& sh.subMask) ++ (dataField w &&& sh.dataMask) := by
    conv_lhs => rw [← append_fields w, sh.mask_eq, BitVec.and_append, BitVec.and_append]
    rw [show (0xFF#8 : Byte) = BitVec.allOnes 8 from rfl, BitVec.and_allOnes]
  rw [hw, matchWord_eq, append_eq_append_iff]
  rfl

theorem reservedClear_iff {i : Instr} {w : Word} :
    reservedClear i w = true ↔ w &&& i.shape.mask = matchWord i.opc := decide_eq_true_iff

/-! ## The row of a word (30_encoding.md R83, R85) -/

/-- The row that is read is the one its OPC names, and its operands are the word's bits outside the mask. -/
theorem readFields_eq_some {w : Word} {i : Instr} (h : readFields w = some i) :
    i.opc = opcField w ∧ i.sub = subField w &&& ~~~i.shape.subMask
      ∧ i.data = dataField w &&& ~~~i.shape.dataMask := by
  obtain ⟨n, hn⟩ : ∃ n, (opcField w).toNat = n := ⟨_, rfl⟩
  have ho : opcField w = BitVec.ofNat 8 n := by simp [← hn]
  have hs : subField w &&& 0xFF#8 = subField w := BitVec.and_allOnes
  have hd : dataField w &&& 0xFFFF#16 = dataField w := BitVec.and_allOnes
  rw [readFields, hn] at h
  split at h
  all_goals cases h
  all_goals
    simp [ho, hs, hd, Instr.opc, Instr.sub, Instr.data, Instr.shape, Shape.subMask, Shape.dataMask, dataBit_eq,
      dataByte_eq, bitData_of_data, byteData_of_data]

/-- Every OPC of the map names its row. -/
theorem readFields_of_opc {w : Word} {j : Instr} (h : opcField w = j.opc) :
    ∃ i, readFields w = some i ∧ i.ctorIdx = j.ctorIdx := by
  unfold readFields
  rw [h]
  cases j <;> exact ⟨_, rfl, rfl⟩

/-- The OPC names the row (30_encoding.md R86). -/
theorem ctorIdx_eq_of_opc_eq {i j : Instr} (h : i.opc = j.opc) : i.ctorIdx = j.ctorIdx := by
  obtain ⟨k, hk, hki⟩ := readFields_of_opc (w := encode i) (j := i) (opcField_append ..)
  obtain ⟨k', hk', hkj⟩ := readFields_of_opc (w := encode i) (j := j) ((opcField_append ..).trans h)
  rw [hk] at hk'
  cases hk'
  exact hki.symm.trans hkj

/-- Two instructions of a row have its OPC and its shape. -/
theorem opc_shape_of_ctorIdx_eq {i j : Instr} (h : i.ctorIdx = j.ctorIdx) :
    i.opc = j.opc ∧ i.shape = j.shape := by
  revert h
  cases j <;> intro h <;>
    exact Instr.ctorElim (motive := fun i => i.opc = _ ∧ i.shape = _) _ i h.symm ⟨by intros; exact ⟨rfl, rfl⟩⟩

/-! ## Reading an encoded word -/

/-- An encoded word names its row and holds its operands, whatever their values. -/
@[simp] theorem readFields_encode (i : Instr) : readFields (encode i) = some i := by
  cases i <;> simp [readFields, dataBit_eq, dataByte_eq, Instr.opc, Instr.sub, Instr.data]

/-- The operands lie outside the reserved bits of their shape. -/
theorem operands_and_mask (i : Instr) : i.sub &&& i.shape.subMask = 0 ∧ i.data &&& i.shape.dataMask = 0 := by
  have hb : ∀ b, bitData b &&& 0xFFFE#16 = 0#16 := by decide
  have hy : ∀ y, byteData y &&& 0xFF00#16 = 0#16 := by decide
  cases i <;> simp [Instr.sub, Instr.data, Instr.shape, Shape.subMask, Shape.dataMask, hb, hy]

theorem encode_and_mask (i : Instr) : encode i &&& i.shape.mask = matchWord i.opc := by
  rw [and_mask_eq_matchWord_iff, encode, opcField_append, subField_append, dataField_append]
  exact ⟨rfl, operands_and_mask i⟩

@[simp] theorem decode_encode (i : Instr) : decode (encode i) = .ok i := by
  simp [decode, reservedClear_iff, encode_and_mask]

theorem decode_eq_ok_iff {w : Word} {i : Instr} :
    decode w = .ok i ↔ readFields w = some i ∧ w &&& i.shape.mask = matchWord i.opc := by
  refine ⟨fun h => ?_, fun ⟨hr, hm⟩ => by simp [decode, hr, reservedClear_iff.mpr hm]⟩
  obtain ⟨hr, hm⟩ := Machine.decode_eq_ok h
  exact ⟨hr, reservedClear_iff.mp hm⟩

/-! ## The statements -/

/-- Settles O1: the row is read back from OPC, the operands from SUB and DATA. -/
theorem encodeThenDecodeIsIdentity : Obligations.EncodeThenDecodeIsIdentity := by
  unfold Obligations.EncodeThenDecodeIsIdentity
  exact decode_encode

/-- Settles O2: the operands read are the bits outside the mask, and the bits under it are those of the match. -/
theorem decodedWordIsTheEncoding : Obligations.DecodedWordIsTheEncoding := by
  unfold Obligations.DecodedWordIsTheEncoding
  intro w i h
  obtain ⟨hr, hm⟩ := decode_eq_ok_iff.mp h
  obtain ⟨ho, hs, hd⟩ := readFields_eq_some hr
  obtain ⟨-, hsub, hdata⟩ := (and_mask_eq_matchWord_iff _ _ _).mp hm
  calc encode i = opcField w ++ subField w ++ dataField w := by
        rw [encode, ho, hs, hd, and_not_eq_self hsub, and_not_eq_self hdata]
    _ = w := append_fields w

/-- Settles O3: a match names the row by its OPC; a decoded word matches its own row, and a row has one mask. -/
theorem maskAndMatchSelectTheOperation : Obligations.MaskAndMatchSelectTheOperation := by
  unfold Obligations.MaskAndMatchSelectTheOperation
  intro j w
  constructor
  · rintro ⟨i, hi, hij⟩
    obtain ⟨ho, hsh⟩ := opc_shape_of_ctorIdx_eq hij
    rw [← ho, ← hsh]
    exact (decode_eq_ok_iff.mp hi).2
  · intro hm
    obtain ⟨i, hr, hij⟩ := readFields_of_opc ((and_mask_eq_matchWord_iff _ _ _).mp hm).1
    obtain ⟨ho, hsh⟩ := opc_shape_of_ctorIdx_eq hij
    exact ⟨i, decode_eq_ok_iff.mpr ⟨hr, by rw [ho, hsh, hm]⟩, hij⟩

/-- Settles O4: every mask covers OPC, and OPC names the row. -/
theorem noWordMatchesTwoRows : Obligations.NoWordMatchesTwoRows := by
  unfold Obligations.NoWordMatchesTwoRows
  refine ⟨fun i j w hi hj => ?_, fun i j => ctorIdx_eq_of_opc_eq, fun i => ?_⟩
  · obtain ⟨hoi, -⟩ := (and_mask_eq_matchWord_iff _ _ _).mp hi
    obtain ⟨hoj, -⟩ := (and_mask_eq_matchWord_iff _ _ _).mp hj
    exact ctorIdx_eq_of_opc_eq (hoi.symm.trans hoj)
  · rw [Shape.mask_eq]
    exact opcField_append ..

/-- Settles O8: each word is read by the decoder. -/
theorem sampleWordsDecode : Obligations.SampleWordsDecode := by
  unfold Obligations.SampleWordsDecode
  decide

end Sys2Proof
end

section
/-! O5 to O7: presenting a word (60_exceptions.md R184, R186, 30_encoding.md R87). The first of the six checks that
fails is `firstFault`; each statement says which one that is. -/

namespace Sys2Proof.Machine

section
variable {a : Agent} {i : Instr} {w : Word} {s : State} {c : FaultCode}

/-! ## Which check fails first -/

theorem firstFault_of_readFields_none (hr : readFields w = none) : firstFault a w s = some .illegalOpc := by
  simp [firstFault, hr]

theorem firstFault_of_not_mayPerform (hr : readFields w = some i) (hm : mayPerform a i s = false) :
    firstFault a w s = some .context := by
  simp [firstFault, hr, hm]

theorem firstFault_of_not_reservedClear (hr : readFields w = some i) (hm : mayPerform a i s = true)
    (hw : w &&& i.shape.mask ≠ matchWord i.opc) : firstFault a w s = some .badOperand := by
  have hc : reservedClear i w = false := Bool.not_eq_true _ ▸ mt reservedClear_iff.mp hw
  simp [firstFault, hr, hm, hc]

/-- Past the checks 1 to 3 it is the checks 4 to 6 that decide. -/
theorem firstFault_of_decode (hw : decode w = .ok i) (hm : mayPerform a i s = true) :
    firstFault a w s = lateFault i s := by
  obtain ⟨hr, hc⟩ := decode_eq_ok hw
  simp [firstFault, hr, hm, hc]

theorem lateFault_of_operandFault (ho : operandFault i = some c) : lateFault i s = some c := by
  simp [lateFault, ho]

theorem lateFault_of_owned (ho : operandFault i = none) (hw : writesOwnedPin i = true) (hb : s.booted = true) :
    lateFault i s = some .ownership := by
  simp [lateFault, ho, hw, hb]

theorem lateFault_eq_none (ho : operandFault i = none) (hw : writesOwnedPin i = true → s.booted = false) :
    lateFault i s = none := by
  simpa [lateFault, ho] using hw

/-- The fault of the first failing check, with all that changes (60_exceptions.md R185). -/
theorem presentWord_eq_raise (hf : s.fault = 0) (hb : a = .fg → s.fgcb = none) (h : firstFault a w s = some c) :
    presentWord a w s = .next { s with fault := c.code, hist := s.hist ++ [.fault c.code] } := by
  rw [presentWord_of_firstFault hf hb h, raise_of_faultFree s c hf]

/-! ## Who may perform a word (60_exceptions.md R184 (a)) -/

theorem mayPerform_software (hi : i.wordClass = .software) :
    mayPerform a i s = true ↔ a = .fg ∧ s.ctx = .fg := by
  simp [mayPerform, hi]

theorem mayPerform_callback (hi : i.wordClass = .callback) : mayPerform a i s = false := by
  simp [mayPerform, hi]

theorem mayPerform_handler (hi : i.wordClass = .handler) (h : mayPerform a i s = true) : a = .mux := by
  simp only [mayPerform, hi, Bool.and_eq_true, decide_eq_true_eq] at h
  exact h.1

theorem mayPerform_entryWord {v : Source} :
    mayPerform a (entryWord v) s = true ↔ a = .mux ∧ s.nextDispatch = some v := by
  cases v <;> simp [mayPerform, entryWord, Instr.wordClass, entrySource]

theorem mayPerform_reti : mayPerform a .reti s = true ↔ a = .mux ∧ ∃ v, s.atFinalStep = some v := by
  simp [mayPerform, Instr.wordClass, entrySource, Option.isSome_iff_exists]

theorem mayPerform_event (hi : i.wordClass = .event) : mayPerform a i s = true ↔ a = eventAgent i := by
  simp [mayPerform, hi]

/-- The final micro-step that is next is that of the running handler. -/
theorem atFinalStep_eq_some {v : Source} :
    s.atFinalStep = some v ↔ s.ctx = .handler v ∧ s.hpc = some (finalStep v) := by
  unfold State.atFinalStep
  split
  · simp_all
  · rename_i u hu
    by_cases hp : s.hpc = some (finalStep u)
    · simp only [hp, if_true, hu, Option.some.injEq, Ctx.handler.injEq]
      exact ⟨fun h => ⟨h, by rw [h]⟩, fun h => h.1⟩
    · rw [if_neg hp, hu]
      refine ⟨fun h => (nomatch h), fun ⟨h1, h2⟩ => ?_⟩
      cases h1
      exact absurd h2 hp

theorem eventAgent_of_ne_syncSample (h : ¬ ∃ p, i = .syncSample p) : eventAgent i = .env := by
  unfold eventAgent
  split
  · exact absurd ⟨_, rfl⟩ h
  · rfl

/-! ## The illegal OPC values (30_encoding.md R87) -/

/-- The ranges of R87. -/
def IllegalOpc (o : Nat) : Prop :=
  o = 0x00 ∨ (0x04 ≤ o ∧ o ≤ 0x0F) ∨ (0x15 ≤ o ∧ o ≤ 0x1F) ∨ (0x21 ≤ o ∧ o ≤ 0x27)
    ∨ (0x2A ≤ o ∧ o ≤ 0x2F) ∨ (0x35 ≤ o ∧ o ≤ 0x3F) ∨ (0x43 ≤ o ∧ o ≤ 0x4F)
    ∨ (0x51 ≤ o ∧ o ≤ 0x5F) ∨ (0x63 ≤ o ∧ o ≤ 0x6F) ∨ (0x75 ≤ o ∧ o ≤ 0x7E) ∨ 0x8A ≤ o

theorem not_illegalOpc_opc (i : Instr) : ¬ IllegalOpc i.opc.toNat := by
  cases i <;> simp [IllegalOpc, Instr.opc]

theorem readFields_eq_none_of_illegalOpc (h : IllegalOpc (opcField w).toNat) : readFields w = none := by
  cases hr : readFields w with
  | none => rfl
  | some i =>
    obtain ⟨ho, -⟩ := readFields_eq_some hr
    exact absurd (ho ▸ h) (not_illegalOpc_opc i)

end

/-! ## The statements -/

/-- Settles O5: an OPC outside the map names no row, which is the first check. -/
theorem illegalOpcodeFaults : Obligations.IllegalOpcodeFaults := by
  unfold Obligations.IllegalOpcodeFaults
  rintro a w s hf hb ⟨o, rfl, ho⟩
  exact presentWord_eq_raise hf hb (firstFault_of_readFields_none (readFields_eq_none_of_illegalOpc ho))

/-- Settles O6: in each case `firstFault` is the check named. -/
theorem firstFailingCheckGivesTheFault : Obligations.FirstFailingCheckGivesTheFault := by
  unfold Obligations.FirstFailingCheckGivesTheFault
  intro a w s hf hb
  refine ⟨fun hr => ?opc, fun i hr => ⟨fun hm => ?context, fun hm => ⟨fun hw => ?reserved, fun hw =>
    ⟨fun c ho => ?operand, fun ho hown hboot => ?ownership⟩⟩⟩⟩
  case opc => exact presentWord_eq_raise hf hb (firstFault_of_readFields_none hr)
  case context => exact presentWord_eq_raise hf hb (firstFault_of_not_mayPerform hr hm)
  case reserved => exact presentWord_eq_raise hf hb (firstFault_of_not_reservedClear hr hm hw)
  case operand =>
    exact presentWord_eq_raise hf hb
      ((firstFault_of_decode (decode_eq_ok_iff.mpr ⟨hr, hw⟩) hm).trans (lateFault_of_operandFault ho))
  case ownership =>
    exact presentWord_eq_raise hf hb
      ((firstFault_of_decode (decode_eq_ok_iff.mpr ⟨hr, hw⟩) hm).trans (lateFault_of_owned ho hown hboot))

/-- Settles O7: none of these may perform its word now, which is the second check. -/
theorem wordOfAnotherAgentOrContextFaults : Obligations.WordOfAnotherAgentOrContextFaults := by
  unfold Obligations.WordOfAnotherAgentOrContextFaults
  intro a i s hf hb h
  have hm : mayPerform a i s = false := by
    rw [← Bool.not_eq_true]
    intro hm
    rcases h with ⟨hi, hne⟩ | hi | ⟨hi, hne⟩ | ⟨v, rfl, hne⟩ | ⟨rfl, hne⟩ | ⟨hi, ⟨p, rfl⟩, hne⟩ | ⟨hi, hp, hne⟩
    · obtain ⟨ha, hc⟩ := (mayPerform_software hi).mp hm
      exact hne.elim (absurd ha) (absurd hc)
    · exact absurd hm (by simp [mayPerform_callback hi])
    · exact hne (mayPerform_handler hi hm)
    · exact hne (mayPerform_entryWord.mp hm).2
    · obtain ⟨-, v, hv⟩ := mayPerform_reti.mp hm
      exact hne v ⟨hf, atFinalStep_eq_some.mp hv⟩
    · exact hne ((mayPerform_event hi).mp hm)
    · exact hne (((mayPerform_event hi).mp hm).trans (eventAgent_of_ne_syncSample hp))
  exact presentWord_eq_raise hf hb (firstFault_of_not_mayPerform (readFields_encode i) hm)

end Sys2Proof.Machine
end

section
/-! O10, O11: the statements of FG's script that are no literal words (30_encoding.md R92). A `<RES>` statement's word
is the encoding of the same instruction with its value operand from RES. -/

namespace Sys2Proof.Machine

/-! ## The value operand from RES -/

/-- The shapes with a bit or a byte value operand. -/
def TakesRes (sh : Shape) : Prop := sh = .b ∨ sh = .ib ∨ sh = .y ∨ sh = .iy

/-- The instruction with its bit or byte operand taken from RES; one with neither stays. -/
def withRes (r : Half) : Instr → Instr
  | .gpioWrite p _ => .gpioWrite p (r.getLsbD 0)
  | .gpioDir p _ => .gpioDir p (Direction.ofBit (r.getLsbD 0))
  | .uartTx _ => .uartTx (r.extractLsb' 0 8)
  | .extConfig l _ => .extConfig l (r.getLsbD 0)
  | .irqGlobal _ => .irqGlobal (r.getLsbD 0)
  | .arbUpdateRunmode _ => .arbUpdateRunmode (RunMode.ofBit (r.getLsbD 0))
  | .arbUpdateRole _ => .arbUpdateRole (Role.ofBit (r.getLsbD 0))
  | .usbSend c _ => .usbSend c (r.extractLsb' 0 8)
  | .envPin p _ => .envPin p (r.getLsbD 0)
  | .envUartRx _ => .envUartRx (r.extractLsb' 0 8)
  | .envHostByte c _ => .envHostByte c (r.extractLsb' 0 8)
  | i => i

section
variable (r : Half) (i : Instr) (s : State)

@[simp] theorem wordClass_withRes : (withRes r i).wordClass = i.wordClass := by cases i <;> rfl

@[simp] theorem operandFault_withRes : operandFault (withRes r i) = operandFault i := by cases i <;> rfl

@[simp] theorem writesOwnedPin_withRes : writesOwnedPin (withRes r i) = writesOwnedPin i := by cases i <;> rfl

/-- The checks 4 to 6 look at no bit or byte operand. -/
@[simp] theorem lateFault_withRes : lateFault (withRes r i) s = lateFault i s := by
  simp [lateFault]

end

/-- Putting a value into the DATA field leaves OPC and SUB. -/
theorem replaceData_eq (w : Word) (d : Half) :
    w &&& 0xFFFF0000 ||| d.setWidth 32 = opcField w ++ subField w ++ d := by
  have hm : (0xFFFF0000 : Word) = BitVec.allOnes (8 + 8) ++ 0#16 := rfl
  have hd : d.setWidth 32 = 0#(8 + 8) ++ d := BitVec.setWidth_eq_append (by decide)
  conv_lhs => rw [← append_fields w]
  rw [hm, hd, BitVec.and_append, BitVec.or_append, BitVec.and_allOnes, BitVec.and_zero, BitVec.or_zero, BitVec.zero_or]

/-- What is put into an encoded word is the value operand and nothing else. -/
theorem fillRes_encode {i : Instr} (h : TakesRes i.shape) (r : Half) :
    fillRes (encode i) r = some (encode (withRes r i)) := by
  unfold fillRes
  simp only [readFields_encode, Option.map_some, replaceData_eq, opcField_encode, subField_encode]
  cases i <;> simp [TakesRes, Instr.shape] at h <;>
    simp [encode, withRes, Instr.shape, Instr.opc, Instr.sub, Instr.data]

/-! ## FG's script turn -/

section
variable {s : State} {i : Instr}

/-- FG's scheduled script turn is the statement at FGPC, the schedule's entry used up. -/
theorem step_of_script {rest : List Action} {st : Stmt} (hr : s.FgReady) (hs : s.sched = .script :: rest)
    (hst : s.script[s.fgpc]? = some st) : step s = runStmt st { s with sched := rest } := by
  obtain ⟨hf, hc, hb⟩ := hr
  rw [step_of_sched hs]
  simp [perform, scriptStep, State.atBoundary, hf, hc, hb, hst]

/-- With a result, a `<RES>` statement is its word with the operand from RES. -/
theorem runResStmt_of_res_some {r : Half} (hr : s.FgReady) (hres : s.res = some r) (hi : i.wordClass = .software)
    (hsh : TakesRes i.shape) : runResStmt (encode i) s = exec (withRes r i) s := by
  obtain ⟨hf, hc, hb⟩ := hr
  have hm : mayPerform .fg (withRes r i) s = true := (mayPerform_software (by simpa using hi)).mpr ⟨rfl, hc⟩
  rw [← presentWord_eq_exec hf (fun _ => hb) (decode_encode _) hm]
  simp [runResStmt, hres, fillRes_encode hsh]

/-- Without one, it raises the fault of the first of the checks 4 to 6 that fails, else F_MODEL (log 25). -/
theorem runResStmt_of_res_none {c : FaultCode} (hr : s.FgReady) (hres : s.res = none) (hi : i.wordClass = .software)
    (hsh : TakesRes i.shape) (hlate : (lateFault i s).getD .model = c) :
    runResStmt (encode i) s = .next { s with fault := c.code, hist := s.hist ++ [.fault c.code] } := by
  obtain ⟨hf, hc, hb⟩ := hr
  have hm : mayPerform .fg (withRes 0#16 i) s = true := (mayPerform_software (by simpa using hi)).mpr ⟨rfl, hc⟩
  have hfirst := firstFault_of_decode (decode_encode (withRes 0#16 i)) hm
  rw [lateFault_withRes] at hfirst
  rw [← raise_of_faultFree s c hf]
  simp [runResStmt, hres, fillRes_encode hsh, hfirst, hlate]

end

/-! ## The statements -/

/-- Settles O11: the word presented is the encoding of the instruction with its operand from RES. -/
theorem resStatementTakesItsOperandFromRes : Obligations.ResStatementTakesItsOperandFromRes := by
  unfold Obligations.ResStatementTakesItsOperandFromRes
  intro s rest r i hr hs hres hst
  have hstep : i.wordClass = .software → TakesRes i.shape →
      step s = exec (withRes r i) { s with sched := rest } := fun hi hsh =>
    (step_of_script hr hs hst).trans (runResStmt_of_res_some (s := { s with sched := rest }) hr hres hi hsh)
  refine ⟨?gpioWrite, ?gpioDir, ?extConfig, ?irqGlobal, ?arbUpdateRunmode, ?arbUpdateRole, ?uartTx, ?usbSend⟩
  case gpioWrite | gpioDir | extConfig => rintro p v rfl; exact hstep rfl (.inr (.inl rfl))
  case irqGlobal | arbUpdateRunmode | arbUpdateRole => rintro v rfl; exact hstep rfl (.inl rfl)
  case uartTx => rintro y rfl; exact hstep rfl (.inr (.inr (.inl rfl)))
  case usbSend => rintro c y rfl; exact hstep rfl (.inr (.inr (.inr rfl)))

/-- Settles O10: BNONE and GOTO set FGPC; without a result `lateFault`, else F_MODEL, decides. -/
theorem scriptControlStatements : Obligations.ScriptControlStatements := by
  unfold Obligations.ScriptControlStatements
  intro s rest hr hs
  refine ⟨fun l hst hres => ?none, fun l hst hres => ?some, fun l hst => ?goto, fun i hst hres hi hsh => ?res⟩
  case none => rw [step_of_script hr hs hst, runStmt, resNone, if_pos hres]
  case some => rw [step_of_script hr hs hst, runStmt, resNone, if_neg hres]
  case goto => exact step_of_script hr hs hst
  case res =>
    have hstep : ∀ c, (lateFault i s).getD .model = c → step s = .next
        { s with sched := rest, fault := c.code, hist := s.hist ++ [.fault c.code] } := fun c hlate =>
      (step_of_script hr hs hst).trans
        (runResStmt_of_res_none (s := { s with sched := rest }) hr hres hi hsh hlate)
    refine ⟨fun c ho => hstep c ?_, fun ho hw hb => hstep .ownership ?_, fun ho hw => hstep .model ?_⟩
    · rw [lateFault_of_operandFault ho, Option.getD_some]
    · rw [lateFault_of_owned ho hw hb, Option.getD_some]
    · rw [lateFault_eq_none ho hw, Option.getD_none]

end Sys2Proof.Machine
end

section
/-! O14, O15, O17: the pin words of FG and the synchronizer (41_gpio.md R97, R99 to R101), with the edge detectors of
the two lines (44_edge.md R129, R130). -/

namespace Sys2Proof.Machine

variable {s : State} {p : Byte}

/-! ## Pin ids (10_state.md R28) -/

theorem InPin.ofId_eq_none (h : 10 < p.toNat) : InPin.ofId p = none := by
  have hs := Laws.OperandChecks.inPin_isSome p
  rw [isInputPin, decide_eq_false (Nat.not_le.mpr h)] at hs
  simpa using hs

theorem OutPin.ofId_eq_none (h : p.toNat < 11 ∨ 13 < p.toNat) : OutPin.ofId p = none := by
  have hs := Laws.OperandChecks.outPin_isSome p
  rw [isOutputPin, decide_eq_false (by omega)] at hs
  simpa using hs

theorem zextBit_eq (v : Bool) : zextBit v = if v then 1 else 0 := by cases v <;> rfl

/-! ## A class S word that fails a check (60_exceptions.md R186) -/

/-- The fault's effect, and no other (R185). -/
theorem exec_software_eq_fault {i : Instr} {c : FaultCode} (hr : s.FgReady) (hi : i.wordClass = .software)
    (hl : lateFault i s = some c) :
    exec i s = .next { s with fault := c.code, hist := s.hist ++ [.fault c.code] } := by
  obtain ⟨hf, hc, hb⟩ := hr
  rw [exec_of_lateFault hf (fun _ => hb) ((mayPerform_software hi).mpr ⟨rfl, hc⟩) hl, raise_of_faultFree s c hf]

/-! ## GPIO_READ (41_gpio.md R99) -/

theorem readPin_of_input {q : InPin} (hq : InPin.ofId p = some q) : s.readPin p = some (s.sync.get q, s) := by
  simp [State.readPin, hq]

theorem readPin_of_latch {q : OutPin} {v : Bool} (hq : OutPin.ofId p = some q) (hl : s.lat.get q = some v) :
    s.readPin p = some (v, s) := by
  simp [State.readPin, InPin.ofId_of_output hq, hq, hl]

theorem readPin_of_unwritten {q : OutPin} (hq : OutPin.ofId p = some q) (hl : s.lat.get q = none) :
    s.readPin p = some (s.drawBit, s.drawn) := by
  simp [State.readPin, InPin.ofId_of_output hq, hq, hl]

/-- `readPin` answers only for an id that names a pin. -/
theorem operandFault_gpioRead {v : Bool} {u : State} (h : s.readPin p = some (v, u)) :
    operandFault (.gpioRead p) = none := by
  cases hi : InPin.ofId p with
  | some q => simp [operandFault, checkIndex, hi]
  | none =>
    cases ho : OutPin.ofId p with
    | some q => simp [operandFault, checkIndex, ho]
    | none => simp [State.readPin, hi, ho] at h

/-- The level goes to RES. What is read is read in the state that has recorded the word. -/
theorem exec_gpioRead_eq {v : Bool} {u : State} (hr : s.FgReady)
    (h : (s.record .fg (.gpioRead p)).readPin p = some (v, u)) :
    exec (.gpioRead p) s = .next { u with res := some (if v then 1 else 0), fgpc := u.fgpc + 1 } := by
  obtain ⟨hf, hc, hb⟩ := hr
  have hx : exec (.gpioRead p) s = execGpioRead p s := rfl
  rw [hx, execGpioRead, softwareWord_run hf hb hc (operandFault_gpioRead h) (by simp [writesOwnedPin]), h,
    ← zextBit_eq]
  rfl

/-- Settles O14: each kind of pin id has its `readPin`; above 13 the index check fails. -/
theorem gpioReadReturnsTheLevel : Obligations.GpioReadReturnsTheLevel := by
  unfold Obligations.GpioReadReturnsTheLevel
  intro s p hr
  refine ⟨fun q hq => ?input, fun q v hq hl => ?latch, fun q hq hl => ?unwritten, fun hp => ?noPin⟩
  case input => exact exec_gpioRead_eq hr (readPin_of_input hq)
  case latch => exact exec_gpioRead_eq hr (readPin_of_latch hq hl)
  case unwritten => exact exec_gpioRead_eq hr (readPin_of_unwritten hq hl)
  case noPin =>
    refine exec_software_eq_fault hr rfl (lateFault_of_operandFault (c := .badPin) ?_)
    simp [operandFault, checkIndex, InPin.ofId_eq_none (by omega : 10 < p.toNat), OutPin.ofId_eq_none (.inr hp)]

/-! ## GPIO_WRITE and GPIO_DIR before the end of bring-up (41_gpio.md R100, R101) -/

section

variable {q : OutPin}

theorem exec_gpioWrite_eq (hr : s.FgReady) (hn : s.booted = false) (hq : OutPin.ofId p = some q) (b : Bool) :
    exec (.gpioWrite p b) s = .next ((s.record .fg (.gpioWrite p b)).writeLat q b).advance := by
  obtain ⟨hf, hc, hb⟩ := hr
  have hx : exec (.gpioWrite p b) s = execGpioWrite p b s := rfl
  rw [hx, execGpioWrite, softwareWord_run hf hb hc (by simp [operandFault, checkIndex, hq]) (fun _ => hn), hq]

theorem exec_gpioDir_eq (hr : s.FgReady) (hn : s.booted = false) (hq : OutPin.ofId p = some q) (d : Direction) :
    exec (.gpioDir p d) s = .next ((s.record .fg (.gpioDir p d)).writeDir q d).advance := by
  obtain ⟨hf, hc, hb⟩ := hr
  have hx : exec (.gpioDir p d) s = execGpioDir p d s := rfl
  rw [hx, execGpioDir, softwareWord_run hf hb hc (by simp [operandFault, checkIndex, hq]) (fun _ => hn), hq]

end

/-- Settles O15: a legal pin is written and the write recorded after the word; any other id fails the index check. -/
theorem gpioWriteAndDirDuringBringUp : Obligations.GpioWriteAndDirDuringBringUp := by
  unfold Obligations.GpioWriteAndDirDuringBringUp
  intro s p b d hr hn
  refine ⟨fun q hq => ⟨?write, ?dir⟩, fun hp => ⟨?noWrite, ?noDir⟩⟩
  case write =>
    rw [exec_gpioWrite_eq hr hn hq]
    simp [State.advance, State.writeLat, State.record, State.emit]
  case dir =>
    rw [exec_gpioDir_eq hr hn hq]
    simp [State.advance, State.writeDir, State.record, State.emit]
  case noWrite | noDir =>
    refine exec_software_eq_fault hr rfl (lateFault_of_operandFault (c := .badPin) ?_)
    simp [operandFault, checkIndex, OutPin.ofId_eq_none hp]

/-! ## The edge detectors (44_edge.md R129, R130) -/

section

variable {old new : Bool}

theorem edgeDetect_of_no_detector {q : InPin} (ha : q ≠ .linea) (hb : q ≠ .lineb) :
    s.edgeDetect q old new = s := by
  cases q with
  | linea => exact absurd rfl ha
  | lineb => exact absurd rfl hb
  | _ => rfl

theorem edgeDetect_linea_of_rising (ho : old = false) (hn : new = true) :
    s.edgeDetect .linea old new = s.latchEdgeA := by
  simp [State.edgeDetect, edgeTaken, ho, hn]

theorem edgeDetect_linea_of_not_rising (h : ¬ (old = false ∧ new = true)) : s.edgeDetect .linea old new = s := by
  simp [State.edgeDetect, edgeTaken, h]

theorem edgeDetect_lineb_of_ne (h : old ≠ new) : s.edgeDetect .lineb old new = s.latchEdgeB := by
  simp [State.edgeDetect, edgeTaken, h]

theorem edgeDetect_lineb_of_eq (h : old = new) : s.edgeDetect .lineb old new = s := by
  simp [State.edgeDetect, edgeTaken, h]

theorem latchEdgeA_of_enabled (h : s.extaEn = true) : s.latchEdgeA = { s with pendExta := true } := if_pos h

theorem latchEdgeA_of_disabled (h : s.extaEn = false) :
    s.latchEdgeA = { s with pendExta := s.pendExta || Config.drawBit s.draws, draws := s.draws + 1 } :=
  if_neg (by simp [h])

theorem latchEdgeB_of_enabled (h : s.extbEn = true) : s.latchEdgeB = { s with pendExtb := true } := if_pos h

theorem latchEdgeB_of_disabled (h : s.extbEn = false) :
    s.latchEdgeB = { s with pendExtb := s.pendExtb || Config.drawBit s.draws, draws := s.draws + 1 } :=
  if_neg (by simp [h])

end

/-! ## SYNC_SAMPLE (41_gpio.md R97) -/

/-- A class E word whose operands are legal and whose guard holds runs its effect. -/
theorem eventWord_run {i : Instr} (hf : s.fault = 0) (ho : operandFault i = none) (a : Agent)
    (run : State → Result) : eventWord a i true s run = run (s.record a i) := by
  simp [eventWord, hf, ho]

/-- SYNC takes PIN; then the edge detector sees the old level and the new one. -/
theorem exec_syncSample_eq {q : InPin} (hf : s.fault = 0) (hq : InPin.ofId p = some q) :
    exec (.syncSample p) s = .next (State.edgeDetect { s with
      sync := s.sync.set q (s.pin.get q),
      hist := s.hist ++ [.word .sync (encode (.syncSample p))] } q (s.sync.get q) (s.pin.get q)) := by
  have hx : exec (.syncSample p) s = execSyncSample p s := rfl
  rw [hx, execSyncSample, eventWord_run hf (by simp [operandFault, checkIndex, hq]), hq]
  rfl

/-- Settles O17: in each case the detector of the sampled pin leaves the flags, or latches the edge. -/
theorem syncSampleTakesThePinAndDetectsEdges : Obligations.SyncSampleTakesThePinAndDetectsEdges := by
  unfold Obligations.SyncSampleTakesThePinAndDetectsEdges
  intro s p q hf hq
  rw [exec_syncSample_eq hf hq]
  refine ⟨fun ha hb => ?none, ?aNoEdge, ?aEnabled, ?aDisabled, ?bNoEdge, ?bEnabled, ?bDisabled⟩
  case none => rw [edgeDetect_of_no_detector ha hb]
  case aNoEdge =>
    rintro rfl h
    exact congrArg _ (edgeDetect_linea_of_not_rising h)
  case aEnabled =>
    rintro rfl ho hn he
    exact congrArg _ ((edgeDetect_linea_of_rising ho hn).trans (latchEdgeA_of_enabled he))
  case aDisabled =>
    rintro rfl ho hn he
    exact congrArg _ ((edgeDetect_linea_of_rising ho hn).trans (latchEdgeA_of_disabled he))
  case bNoEdge =>
    rintro rfl h
    exact congrArg _ (edgeDetect_lineb_of_eq h)
  case bEnabled =>
    rintro rfl h he
    exact congrArg _ ((edgeDetect_lineb_of_ne h).trans (latchEdgeB_of_enabled he))
  case bDisabled =>
    rintro rfl h he
    exact congrArg _ ((edgeDetect_lineb_of_ne h).trans (latchEdgeB_of_disabled he))

end Sys2Proof.Machine
end

section
/-! O19 to O26: the words of the UART channel and the callbacks of its lifecycle controller (42_uart.md R106 to R114,
R117). -/

namespace Sys2Proof.Machine

variable {s : State} {m : Half}

/-! ## The arms of `exec` -/

theorem exec_uartInit (m : Half) (s : State) : exec (.uartInit m) s = execUartInit m s := rfl
theorem exec_uartDeinit (s : State) : exec .uartDeinit s = execUartDeinit s := rfl
theorem exec_uartTx (y : Byte) (s : State) : exec (.uartTx y) s = execUartTx y s := rfl
theorem exec_uartIeOn (s : State) : exec .uartIeOn s = execUartIeOn s := rfl
theorem exec_uartIeOff (s : State) : exec .uartIeOff s = execUartIeOff s := rfl
theorem exec_cbCls (c : Byte) (m : Half) (s : State) : exec (.cbCls c m) s = execCbCls c m s := rfl
theorem exec_cbConnect (s : State) : exec .cbConnect s = execCbConnect s := rfl
theorem exec_cbDisconnect (s : State) : exec .cbDisconnect s = execCbDisconnect s := rfl

/-! ## UART_INIT and UART_DEINIT (42_uart.md R106, R107) -/

theorem uartInitialize_of_disabled (h : s.uartEn = false) (m : Half) : s.uartInitialize m = { s with
    uartEn := true, rxdata := none, rxfull := false, txc := false, txbuf := none, baud := m } := by
  simp [State.uartInitialize, h]

theorem uartInitialize_of_enabled (h : s.uartEn = true) (m : Half) : s.uartInitialize m = { s with baud := m } := by
  simp [State.uartInitialize, h]

/-- A class S word that writes no pin, its operands legal, runs its effect. -/
theorem softwareWord_run_of_fgReady {i : Instr} {run : State → Result} (hr : s.FgReady)
    (ho : operandFault i = none) (hw : writesOwnedPin i = false) :
    softwareWord i s run = run (s.record .fg i) := by
  obtain ⟨hf, hc, hb⟩ := hr
  exact softwareWord_run hf hb hc ho (by simp [hw])

theorem exec_uartInit_eq (hr : s.FgReady) (hm : m ≠ 0) :
    exec (.uartInit m) s = .next ((s.record .fg (.uartInit m)).uartInitialize m).advance := by
  have ho : operandFault (.uartInit m) = none := by
    simpa [operandFault, checkIndex] using hm
  rw [exec_uartInit, execUartInit, softwareWord_run_of_fgReady hr ho rfl]

/-- Settles O19: the effect is `uartInitialize`; a baud rate of 0 fails the operand check. -/
theorem uartInitEnablesTheChannel : Obligations.UartInitEnablesTheChannel := by
  unfold Obligations.UartInitEnablesTheChannel
  intro s m hr
  refine ⟨fun hm hen => ?disabled, fun hm hen => ?enabled, fun hm => ?zero⟩
  case disabled =>
    rw [exec_uartInit_eq hr hm, uartInitialize_of_disabled (by simpa using hen)]
    rfl
  case enabled =>
    rw [exec_uartInit_eq hr hm, uartInitialize_of_enabled (by simpa using hen)]
    rfl
  case zero =>
    refine exec_software_eq_fault hr rfl (lateFault_of_operandFault (c := .badOperand) ?_)
    simp [operandFault, checkIndex, hm]

/-- Settles O20: the effect is `uartDeinitialize`. -/
theorem uartDeinitDisablesTheChannel : Obligations.UartDeinitDisablesTheChannel := by
  unfold Obligations.UartDeinitDisablesTheChannel
  intro s hr
  rw [exec_uartDeinit, execUartDeinit, softwareWord_run_of_fgReady hr rfl rfl]
  rfl

/-! ## UART_TX and the interrupt enable (42_uart.md R108 to R110) -/

theorem txReady_iff : s.txReady = true ↔ s.uartEn = true ∧ s.txbuf = none := by
  simp [State.txReady, State.txe]

theorem exec_uartTx_eq (hr : s.FgReady) (y : Byte) : exec (.uartTx y) s =
    if s.txReady then .next ({ s.record .fg (.uartTx y) with txbuf := some y }.emit (.uarttx y)).advance
    else .next s := by
  rw [exec_uartTx, execUartTx, softwareWord_run_of_fgReady hr rfl rfl]

/-- While the channel is disabled, the word holds. -/
theorem exec_uartTx_of_disabled (hr : s.FgReady) (hen : s.uartEn = false) (y : Byte) :
    exec (.uartTx y) s = .next s := by
  rw [exec_uartTx_eq hr, if_neg (by simp [txReady_iff, hen])]

/-- Settles O21: `txReady` decides whether the byte is written or the word holds. -/
theorem uartTxWritesOrHolds : Obligations.UartTxWritesOrHolds := by
  unfold Obligations.UartTxWritesOrHolds
  intro s y hr
  rw [exec_uartTx_eq hr]
  refine ⟨fun hen hb => ?writes, fun hn => ?holds⟩
  case writes =>
    rw [if_pos (txReady_iff.mpr ⟨hen, hb⟩)]
    simp [State.record, State.emit, State.advance]
  case holds =>
    have hnr : ¬ s.txReady = true := by
      rw [txReady_iff]
      rintro ⟨hen, hb⟩
      exact hn.elim (by simp [hen]) (· hb)
    rw [if_neg hnr]

/-- Settles O22: neither word looks at the state of the channel. -/
theorem uartInterruptEnableWords : Obligations.UartInterruptEnableWords := by
  unfold Obligations.UartInterruptEnableWords
  intro s hr
  constructor
  · rw [exec_uartIeOn, execUartIeOn, softwareWord_run_of_fgReady hr rfl rfl]
    rfl
  · rw [exec_uartIeOff, execUartIeOff, softwareWord_run_of_fgReady hr rfl rfl]
    rfl

/-! ## The callbacks (42_uart.md R111 to R113, 46_bridge.md R162) -/

section
variable {es : List UsbEvent}

/-- A class C word that delivers the head of EVQ removes it and runs its effect. -/
theorem callbackWord_run {i : Instr} {kind head : UsbEvent} {run : State → Result} (hr : s.FgReady)
    (he : s.evq = head :: es) (hk : sameCallback kind head = true) (ho : operandFault i = none) :
    callbackWord i kind (some head) s run = run ({ s with evq := es }.record .fg i) := by
  obtain ⟨hf, hc, hb⟩ := hr
  simp [callbackWord, hf, hc, hb, he, hk, ho]

@[simp] theorem reportCls_fault (s : State) (c : Chan) (m : Half) : (s.reportCls c m).fault = s.fault := by
  simp [State.reportCls]
@[simp] theorem reportCls_ctx (s : State) (c : Chan) (m : Half) : (s.reportCls c m).ctx = s.ctx := by
  simp [State.reportCls]
@[simp] theorem reportCls_sched (s : State) (c : Chan) (m : Half) : (s.reportCls c m).sched = s.sched := by
  simp [State.reportCls]
@[simp] theorem reportCls_uartEn (s : State) (c : Chan) (m : Half) : (s.reportCls c m).uartEn = s.uartEn := by
  simp [State.reportCls]
@[simp] theorem reportCls_uartIe (s : State) (c : Chan) (m : Half) : (s.reportCls c m).uartIe = s.uartIe := by
  simp [State.reportCls]
@[simp] theorem reportCls_fgcb (s : State) (c : Chan) (m : Half) : (s.reportCls c m).fgcb = some m := rfl

theorem exec_cbConnect_eq (hr : s.FgReady) (he : s.evq = .connect :: es) : exec .cbConnect s =
    .next (({ s with evq := es }.record .fg .cbConnect).uartInitialize s.cfg.baud) := by
  rw [exec_cbConnect, execCbConnect, callbackWord_run hr he rfl rfl]
  rfl

theorem exec_cbDisconnect_eq (hr : s.FgReady) (he : s.evq = .disconnect :: es) : exec .cbDisconnect s =
    .next ({ s with evq := es }.record .fg .cbDisconnect).uartDeinitialize := by
  rw [exec_cbDisconnect, execCbDisconnect, callbackWord_run hr he rfl rfl]

theorem exec_cbCls_eq {c : Chan} (hr : s.FgReady) (he : s.evq = .clsChg c m :: es) : exec (.cbCls c.id m) s =
    .next (({ s with evq := es }.record .fg (.cbCls c.id m)).reportCls c m) := by
  have ho : operandFault (.cbCls c.id m) = none := by simp [operandFault, checkIndex, Chan.ofId_id]
  rw [exec_cbCls, execCbCls, Chan.ofId_id, Option.map_some, callbackWord_run hr he rfl ho]

end

/-- The second step of CB_CLS is FG's next, the bitmask being in FGCB. -/
theorem secondStepOfCls_eq (hf : s.fault = 0) (hc : s.ctx = .fg) (hm : s.fgcb = some m) :
    secondStepOfCls s = .next { s with fgcb := none, uartIe := uartGate m s.uartIe } := by
  simp [secondStepOfCls, hf, hc, hm]

/-- The turn of the second step, the schedule's entry used up. -/
theorem step_of_cb2 {rest : List Action} (hf : s.fault = 0) (hc : s.ctx = .fg) (hm : s.fgcb = some m)
    (hs : s.sched = .cb2 :: rest) :
    step s = .next { s with sched := rest, fgcb := none, uartIe := uartGate m s.uartIe } :=
  (step_of_sched hs).trans (secondStepOfCls_eq (s := { s with sched := rest }) hf hc hm)

/-- Settles O23: the effects are those of UART_INIT with P_BAUD and of UART_DEINIT, without the advance of FGPC. -/
theorem connectAndDisconnectCallbacks : Obligations.ConnectAndDisconnectCallbacks := by
  unfold Obligations.ConnectAndDisconnectCallbacks
  intro s es hr
  refine ⟨fun he hen => ?off, fun he hen => ?on, fun he => ?disconnect⟩
  case off =>
    rw [exec_cbConnect_eq hr he, uartInitialize_of_disabled (by simpa using hen)]
    rfl
  case on =>
    rw [exec_cbConnect_eq hr he, uartInitialize_of_enabled (by simpa using hen)]
    rfl
  case disconnect => exact exec_cbDisconnect_eq hr he

/-- Settles O24: the first step is `reportCls` on the channel of the event, the second is the gate. -/
theorem controlLineCallbackInTwoSteps : Obligations.ControlLineCallbackInTwoSteps := by
  unfold Obligations.ControlLineCallbackInTwoSteps
  intro s m es rest hf hc
  refine ⟨fun hb he => ?data, fun hb he => ?control, fun hm hs => ?second⟩
  case data => exact exec_cbCls_eq (c := .data) ⟨hf, hc, hb⟩ he
  case control => exact exec_cbCls_eq (c := .control) ⟨hf, hc, hb⟩ he
  case second => exact step_of_cb2 hf hc hm hs

/-! ## The gate of a control-line report (42_uart.md R114) -/

theorem uartGate_of_eq_three (h3 : m = 3) (ie : Bool) : uartGate m ie = true := if_pos h3

theorem uartGate_of_eq_two (h2 : m = 2) (ie : Bool) : uartGate m ie = false := by
  subst h2
  rfl

theorem uartGate_of_ne (h3 : m ≠ 3) (h2 : m ≠ 2) (ie : Bool) : uartGate m ie = ie := by
  rw [uartGate, if_neg h3, if_neg h2]

theorem Chan.id_eq (c : Chan) : (if c = .data then 0 else 1) = c.id := by cases c <;> rfl

/-- Settles O25: the second step puts `uartGate` on what the first left of UART_IE. -/
theorem controlLineGateTruthTable : Obligations.ControlLineGateTruthTable := by
  unfold Obligations.ControlLineGateTruthTable
  intro s c m es hr he
  have ⟨hf, hc, _⟩ := hr
  refine ⟨_, _, (Chan.id_eq c).symm ▸ exec_cbCls_eq hr he, secondStepOfCls_eq (m := m) (by simpa using hf)
    (by simpa using hc) (by simp), ?three, ?two, ?other⟩
  case three => exact fun h3 => uartGate_of_eq_three h3 _
  case two => exact fun h2 => uartGate_of_eq_two h2 _
  case other => intro h3 h2; simp [uartGate_of_ne h3 h2]

/-! ## The lifecycle of the channel (42_uart.md R117) -/

section
variable {rest : List Action}

/-- The turn of a delivery is the callback of EVQ's head. -/
theorem step_of_deliver {e : UsbEvent} {es : List UsbEvent} (hr : s.FgReady) (hs : s.sched = .deliver :: rest)
    (he : s.evq = e :: es) : step s = exec (callbackOf e) { s with sched := rest } :=
  (step_of_sched hs).trans (deliverStep_eq_exec (s := { s with sched := rest }) hr he)

theorem step_of_connect {es : List UsbEvent} (hr : s.FgReady) (hs : s.sched = .deliver :: rest)
    (he : s.evq = .connect :: es) : ∃ t, step s = .next t ∧ t.uartEn = true ∧ t.uartIe = s.uartIe :=
  ⟨_, (step_of_deliver hr hs he).trans (exec_cbConnect_eq (s := { s with sched := rest }) hr he),
    uartInitialize_uartEn _ _, by simp⟩

theorem step_of_disconnect {es : List UsbEvent} (hr : s.FgReady) (hs : s.sched = .deliver :: rest)
    (he : s.evq = .disconnect :: es) : ∃ t, step s = .next t ∧ t.uartEn = false ∧ t.uartIe = false :=
  ⟨_, (step_of_deliver hr hs he).trans (exec_cbDisconnect_eq (s := { s with sched := rest }) hr he), rfl, rfl⟩

theorem run_two_of_step {t u : State} (h : step s = .next t) (h' : step t = .next u) :
    Host.Core.run Sys2Proof.core 2 s = .next u := by
  have hs : Sys2Proof.core.step s = .next t := h
  have ht : Sys2Proof.core.step t = .next u := h'
  simp only [Host.Core.run, hs, ht]

/-- Both steps of CB_CLS leave the channel's enable and put the gate on its interrupt enable. -/
theorem run_of_clsChg {c : Chan} {es : List UsbEvent} (hr : s.FgReady) (hs : s.sched = .deliver :: .cb2 :: rest)
    (he : s.evq = .clsChg c m :: es) : ∃ t, Host.Core.run Sys2Proof.core 2 s = .next t
      ∧ t.uartEn = s.uartEn ∧ t.uartIe = uartGate m s.uartIe := by
  have ⟨hf, hc, _⟩ := hr
  have hfirst := (step_of_deliver hr hs he).trans (exec_cbCls_eq (s := { s with sched := .cb2 :: rest }) hr he)
  have hsecond := step_of_cb2 (s := ({ s with sched := .cb2 :: rest, evq := es }.record .fg
    (.cbCls c.id m)).reportCls c m) (by simpa using hf) (by simpa using hc) (reportCls_fgcb ..)
    (show _ = .cb2 :: rest by simp)
  exact ⟨_, run_two_of_step hfirst hsecond, by simp, by simp⟩

end

/-- Settles O26: CONNECT sets UART_EN, DISCONNECT clears UART_EN and UART_IE, a report puts the gate on UART_IE. -/
theorem uartLifecycleTable : Obligations.UartLifecycleTable := by
  unfold Obligations.UartLifecycleTable
  intro s c m es rest hr
  refine ⟨fun he hs => ?connect, fun he hs => ?disconnect, fun he hs => ?report⟩
  case connect =>
    obtain ⟨t, ht, hen, hie⟩ := step_of_connect hr hs he
    refine ⟨t, ht, ?_⟩
    simp only [State.lifecycle, hen, hie]
    cases s.uartEn <;> cases s.uartIe <;> rfl
  case disconnect =>
    obtain ⟨t, ht, hen, hie⟩ := step_of_disconnect hr hs he
    refine ⟨t, ht, ?_⟩
    simp only [State.lifecycle, hen, hie]
  case report =>
    obtain ⟨t, ht, hen, hie⟩ := run_of_clsChg hr hs he
    refine ⟨t, ht, fun h3 => ?_, fun h2 => ?_, fun h3 h2 => ?_⟩
    · rw [uartGate_of_eq_three h3] at hie
      simp only [State.lifecycle, hen, hie]
      cases s.uartEn <;> cases s.uartIe <;> rfl
    · rw [uartGate_of_eq_two h2] at hie
      simp only [State.lifecycle, hen, hie]
      cases s.uartEn <;> cases s.uartIe <;> rfl
    · rw [uartGate_of_ne h3 h2] at hie
      simp only [State.lifecycle, hen, hie]

end Sys2Proof.Machine
end

section
/-! O56: FG at a UART_TX with the channel disabled (60_exceptions.md R187, R188, 42_uart.md R108). What the hold depends
on is FG's; FG's own script turn leaves it, and of the other turns CONNECT's delivery alone enables the channel. -/

namespace Sys2Proof.Machine

variable {s t : State} {a : Action}

/-! ## FG's script turn at a UART_TX -/

theorem isUartTx_iff {w : Word} : isUartTx w = true ↔ ∃ y, decode w = .ok (.uartTx y) := by
  unfold isUartTx
  split
  next y hy => simp [hy]
  next hn => exact ⟨nofun, fun ⟨y, hy⟩ => absurd hy (hn y)⟩

/-- FG is at a literal UART_TX, or at a `<RES>` statement that the result makes one. -/
theorem atUartTx_iff : s.atUartTx = true ↔
    (∃ w y, s.script[s.fgpc]? = some (.word w) ∧ decode w = .ok (.uartTx y))
      ∨ ∃ w r w' y, s.script[s.fgpc]? = some (.resWord w) ∧ s.res = some r ∧ fillRes w r = some w'
        ∧ decode w' = .ok (.uartTx y) := by
  unfold State.atUartTx
  cases hst : s.script[s.fgpc]? with
  | none => simp
  | some st =>
    cases st with
    | word w => simp [isUartTx_iff]
    | resWord w =>
      cases hres : s.res with
      | none => simp
      | some r => cases hw : fillRes w r <;> simp [hw, isUartTx_iff]
    | bnone l => simp
    | goto l => simp

/-- A UART_TX that FG presents while the channel is disabled holds. -/
theorem presentWord_uartTx_of_disabled {w : Word} {y : Byte} (hr : s.FgReady) (hen : s.uartEn = false)
    (hw : decode w = .ok (.uartTx y)) : presentWord .fg w s = .next s := by
  have ⟨hf, hc, hb⟩ := hr
  rw [presentWord_eq_exec hf (fun _ => hb) hw ((mayPerform_software rfl).mpr ⟨rfl, hc⟩),
    exec_uartTx_of_disabled hr hen]

/-- A word with an operand to fill in is known. -/
theorem readFields_ne_none_of_fillRes {w w' : Word} {r : Half} (h : fillRes w r = some w') : readFields w ≠ none := by
  intro hn
  simp [fillRes, hn] at h

theorem runResStmt_eq_presentWord {w w' : Word} {r : Half} (hres : s.res = some r) (hw : fillRes w r = some w') :
    runResStmt w s = presentWord .fg w' s := by
  obtain ⟨i, hi⟩ := Option.ne_none_iff_exists'.mp (readFields_ne_none_of_fillRes hw)
  simp [runResStmt, hi, hres, hw]

/-- FG's script turn at a UART_TX, the channel disabled, changes nothing (log 11). -/
theorem scriptStep_of_atUartTx (hat : s.atUartTx = true) (hen : s.uartEn = false) (h : scriptStep s = .next t) :
    t = s := by
  obtain ⟨hf, hc, hb, st, hst, hrun⟩ := scriptStep_next h
  have holds {w : Word} {y : Byte} (hw : decode w = .ok (.uartTx y)) (hp : presentWord .fg w s = .next t) : t = s := by
    rw [presentWord_uartTx_of_disabled ⟨hf, hc, hb⟩ hen hw] at hp
    cases hp
    rfl
  obtain ⟨w, y, hw, hd⟩ | ⟨w, r, w', y, hw, hres, hfill, hd⟩ := atUartTx_iff.mp hat
  · cases hst.symm.trans hw
    exact holds hd hrun
  · cases hst.symm.trans hw
    exact holds hd ((runResStmt_eq_presentWord hres hfill).symm.trans hrun)

/-! ## The other turns -/

/-- What decides whether FG is at a UART_TX. -/
def SamePlace (s t : State) : Prop := t.script = s.script ∧ t.fgpc = s.fgpc ∧ t.res = s.res

theorem SamePlace.atUartTx_eq (h : SamePlace s t) : t.atUartTx = s.atUartTx := by
  obtain ⟨hscript, hpc, hres⟩ := h
  simp only [State.atUartTx, hscript, hpc, hres]

theorem MicroChange.foreground_eq {v : Source} (h : MicroChange s v t) : t.foreground = s.foreground := by
  cases h with
  | raised => simp [State.foreground]
  | _ => rfl

theorem Change.samePlace (h : Change s a t) (ha : a ≠ .script) : SamePlace s t := by
  refine ⟨h.cfg_script.2, ?_⟩
  cases h with
  | micro v _ _ _ hm =>
    exact ⟨congrArg Foreground.fgpc hm.foreground_eq, congrArg Foreground.res hm.foreground_eq⟩
  | raised | connected | disconnected | reported | gated | dispatched | returned | inputs | uartRx | txDone | hostCls
  | hostConnect | hostDisconnect | hostByte | hostTake => simp
  | _ => exact absurd rfl ha

/-- Short of FG's script, the delivery of CONNECT alone enables the channel. -/
theorem Change.uartEn_of_disabled (h : Change s a t) (ha : a ≠ .script) (hen : s.uartEn = false) :
    t.uartEn = false ∨ a = .deliver ∧ s.evq.head? = some .connect ∧ t.uartEn = true := by
  cases h with
  | connected _ _ he => exact .inr ⟨rfl, by simp [he], uartInitialize_uartEn _ _⟩
  | micro v _ _ _ hm => exact .inl ((congrArg Foreground.uartEn hm.foreground_eq).trans hen)
  | raised | disconnected | reported | gated | dispatched | returned | inputs | uartRx | txDone | hostCls
  | hostConnect | hostDisconnect | hostByte | hostTake => simp [hen]
  | _ => exact absurd rfl ha

/-! ## The statement -/

/-- Settles O56: FG's script turn changes nothing, and no other turn moves FG. -/
theorem blockedTransmitWaitsForConnect : Obligations.BlockedTransmitWaitsForConnect := by
  unfold Obligations.BlockedTransmitWaitsForConnect
  intro s t hat hen h hreset
  obtain ⟨rest, k, he⟩ := nextAction_state s
  have hp : perform s.turn { s with sched := rest, round := k } = .next t := he ▸ h
  by_cases ha : s.turn = .script
  · rw [ha] at hp
    obtain rfl := scriptStep_of_atUartTx (s := { s with sched := rest, round := k }) hat hen hp
    exact .inl ⟨hat, rfl, hen⟩
  · have hc := perform_change hreset hp
    have hplace := hc.samePlace ha
    have hat' : t.atUartTx = true := hplace.atUartTx_eq.trans hat
    obtain ⟨-, hpc, -⟩ := hplace
    obtain hoff | ⟨hdeliver, hhead, hon⟩ := hc.uartEn_of_disabled ha hen
    · exact .inl ⟨hat', hpc, hoff⟩
    · exact .inr ⟨hdeliver, hhead, hon, hat', hpc⟩

end Sys2Proof.Machine
end

section
/-! O27, O29, O41: the words that write an enable bit (43_timer.md R123, 44_edge.md R131, 48_system.md R177), the timer
tick (43_timer.md R124), and the runs of the tick and the transmit-complete handler (43_timer.md R125, 46_bridge.md
R152). -/

namespace Sys2Proof.Machine

variable {s : State}

/-! ## The arms of `exec` -/

theorem exec_tmrInit (s : State) : exec .tmrInit s = execTmrInit s := rfl
theorem exec_extConfig (l : Byte) (e : Bool) (s : State) : exec (.extConfig l e) s = execExtConfig l e s := rfl
theorem exec_irqGlobal (b : Bool) (s : State) : exec (.irqGlobal b) s = execIrqGlobal b s := rfl
theorem exec_envTick (s : State) : exec .envTick s = execEnvTick s := rfl

/-! ## TMR_INIT, EXT_CONFIG and IRQ_GLOBAL -/

theorem exec_tmrInit_eq (hr : s.FgReady) : exec .tmrInit s = .next { s with
    tmrEn := true, fgpc := s.fgpc + 1, hist := s.hist ++ [.word .fg (encode .tmrInit)] } := by
  rw [exec_tmrInit, execTmrInit, softwareWord_run_of_fgReady hr rfl rfl]
  rfl

/-- BOOTED is set with the first IRQ_GLOBAL 1 and never cleared (48_system.md R177). -/
theorem exec_irqGlobal_eq (hr : s.FgReady) (b : Bool) : exec (.irqGlobal b) s = .next { s with
    gie := b, booted := s.booted || b, fgpc := s.fgpc + 1,
    hist := s.hist ++ [.word .fg (encode (.irqGlobal b))] } := by
  rw [exec_irqGlobal, execIrqGlobal, softwareWord_run_of_fgReady hr rfl rfl]
  rfl

section
variable {l : Byte}

theorem Line.ofId_eq_none (h : 1 < l.toNat) : Line.ofId l = none := by
  have hs := Laws.OperandChecks.line_isSome l
  rw [isLine, decide_eq_false (Nat.not_le.mpr h)] at hs
  simpa using hs

theorem exec_extConfig_eq {q : Line} (hr : s.FgReady) (hq : Line.ofId l = some q) (e : Bool) :
    exec (.extConfig l e) s = .next ((s.record .fg (.extConfig l e)).configLine q e).advance := by
  rw [exec_extConfig, execExtConfig,
    softwareWord_run_of_fgReady hr (by simp [operandFault, checkIndex, hq]) rfl, hq]

theorem exec_extConfig_badOperand (hr : s.FgReady) (hl : 1 < l.toNat) (e : Bool) :
    exec (.extConfig l e) s = .next { s with fault := 0x02, hist := s.hist ++ [.fault 0x02] } :=
  exec_software_eq_fault hr rfl (lateFault_of_operandFault (c := .badOperand)
    (by simp [operandFault, checkIndex, Line.ofId_eq_none hl]))

end

/-- Settles O27: each word records itself and writes its bit; an id that names no line fails the index check. -/
theorem enableWords : Obligations.EnableWords := by
  unfold Obligations.EnableWords
  intro s l e hr
  refine ⟨exec_tmrInit_eq hr, ?lineA, ?lineB, fun hl => exec_extConfig_badOperand hr hl e, ?irqOn, ?irqOff⟩
  case lineA =>
    rintro rfl
    exact exec_extConfig_eq (q := .a) hr rfl e
  case lineB =>
    rintro rfl
    exact exec_extConfig_eq (q := .b) hr rfl e
  case irqOn => rw [exec_irqGlobal_eq hr, Bool.or_true]
  case irqOff => rw [exec_irqGlobal_eq hr, Bool.or_false]

/-! ## ENV_TICK (43_timer.md R124) -/

/-- A class E word whose operands are legal runs its effect while its guard holds, and is not a step otherwise
(47_environment.md R165, log 10). -/
theorem eventWord_eq {i : Instr} (hf : s.fault = 0) (ho : operandFault i = none) (a : Agent) (g : Bool)
    (run : State → Result) :
    eventWord a i g s run = if g then run (s.record a i) else .refused .guardFalse := by
  simp [eventWord, hf, ho]

/-- Settles O29: TMR_EN is the guard of the word. -/
theorem envTickSetsThePendingTick : Obligations.EnvTickSetsThePendingTick := by
  unfold Obligations.EnvTickSetsThePendingTick
  intro s hf
  rw [exec_envTick, execEnvTick, eventWord_eq hf rfl]
  exact ⟨fun hen => if_pos hen, fun hen => if_neg (by simp [hen])⟩

/-! ## A handler's run -/

/-- The final micro-step of every handler is RETI (60_exceptions.md R197). -/
theorem microStep_finalStep {v : Source} (h : s.InHandler v (finalStep v)) :
    microStep v s = .next (s.returnFromHandler v) := by
  have hk := h.hpc_eq
  rw [← execReti_of_inHandler h]
  cases v <;> simp only [finalStep] at hk <;>
    simp only [microStep, microExtA, microExtB, microTick, microUrx, microUtx, hk]

section
variable {v : Source} {k n : Nat} {rest : List Action}

theorem run_succ_of_step {t : State} (h : step s = .next t) (n : Nat) :
    Host.Core.run Sys2Proof.core (n + 1) s = Host.Core.run Sys2Proof.core n t := by
  have hs : Sys2Proof.core.step s = .next t := h
  simp only [Host.Core.run, hs]

/-- With MUX scheduled to the end of the run, the run begins with the handler's next micro-step. -/
theorem run_succ_of_microStep {t : State} (hs : s.sched = List.replicate (n + 1) .mux ++ rest)
    (h : s.InHandler v k) (hm : microStep v { s with sched := List.replicate n .mux ++ rest } = .next t) :
    Host.Core.run Sys2Proof.core (n + 1) s = Host.Core.run Sys2Proof.core n t :=
  run_succ_of_step ((step_of_inHandler hs h).trans hm) n

/-- A handler's run ends with the return. -/
theorem run_one_of_finalStep (hs : s.sched = List.replicate 1 .mux ++ rest) (h : s.InHandler v (finalStep v)) :
    Host.Core.run Sys2Proof.core 1 s = .next { s with
      ctx := .fg, hpc := none, sched := rest, hist := s.hist ++ [.word .mux 0x7F000000, .reti v] } := by
  rw [run_succ_of_microStep hs h (microStep_finalStep h), returnFromHandler_eq]
  rfl

end

/-! ## The tick handler (43_timer.md R125) -/

theorem microStep_clearTxi (h : s.hpc = some 0) :
    microStep .tick s = .next { s with txi := false, hpc := some 1 } := by
  simp [microStep, microTick, h]

theorem microStep_clearRxi (h : s.hpc = some 1) :
    microStep .tick s = .next { s with rxi := false, hpc := some 2 } := by
  simp [microStep, microTick, h]

theorem run_tickHandler {rest : List Action} (h : s.InHandler .tick 0)
    (hs : s.sched = List.replicate 3 .mux ++ rest) :
    Host.Core.run Sys2Proof.core 3 s = .next { s with
      txi := false, rxi := false, ctx := .fg, hpc := none, sched := rest,
      hist := s.hist ++ [.word .mux 0x7F000000, .reti .tick] } := by
  have ⟨hf, hc, hk⟩ := h
  calc Host.Core.run Sys2Proof.core 3 s
    _ = Host.Core.run Sys2Proof.core 2 { s with
          txi := false, hpc := some 1, sched := List.replicate 2 .mux ++ rest } :=
        run_succ_of_microStep hs h (microStep_clearTxi hk)
    _ = Host.Core.run Sys2Proof.core 1 { s with
          txi := false, rxi := false, hpc := some 2, sched := List.replicate 1 .mux ++ rest } :=
        run_succ_of_microStep rfl ⟨hf, hc, rfl⟩ (microStep_clearRxi rfl)
    _ = _ := run_one_of_finalStep rfl ⟨hf, hc, rfl⟩

/-! ## The transmit-complete handler (46_bridge.md R152) -/

theorem microStep_setTxi (h : s.hpc = some 0) :
    microStep .utx s = .next ({ s with txi := true }.setHpc 1) := by
  simp [microStep, microUtx, h]

theorem run_transmitHandler {rest : List Action} (h : s.InHandler .utx 0)
    (hs : s.sched = List.replicate 2 .mux ++ rest) :
    Host.Core.run Sys2Proof.core 2 s = .next { s with
      txi := true, ctx := .fg, hpc := none, sched := rest,
      hist := s.hist ++ [.word .mux 0x7F000000, .reti .utx] } := by
  have ⟨hf, hc, hk⟩ := h
  calc Host.Core.run Sys2Proof.core 2 s
    _ = Host.Core.run Sys2Proof.core 1 { s with
          txi := true, hpc := some 1, sched := List.replicate 1 .mux ++ rest } :=
        run_succ_of_microStep hs h (microStep_setTxi hk)
    _ = _ := run_one_of_finalStep rfl ⟨hf, hc, rfl⟩

/-- Settles O41: the micro-steps of each handler in their order, the last being the return. -/
theorem tickAndTransmitHandlers : Obligations.TickAndTransmitHandlers := by
  unfold Obligations.TickAndTransmitHandlers
  exact fun s rest => ⟨run_tickHandler, run_transmitHandler⟩

end Sys2Proof.Machine
end

section
/-! O57: a MUX step writes the latches from the inputs it holds, never from what they held (44_edge.md R136,
45_arbitration.md R147). Two runs that differ in the latches alone are compared outcome by outcome: `LatchTwins`. -/

namespace Sys2Proof.Machine

/-- The same state but for the latches. -/
def State.withLat (s : State) (l : OutLatches) : State := { s with lat := l }

/-! ## What a step of MUX reads, whatever the latches -/

section
variable (s : State) (l : OutLatches)

@[simp] theorem withLat_fault : (s.withLat l).fault = s.fault := rfl
@[simp] theorem withLat_ctx : (s.withLat l).ctx = s.ctx := rfl
@[simp] theorem withLat_hpc : (s.withLat l).hpc = s.hpc := rfl
@[simp] theorem withLat_tMode : (s.withLat l).tMode = s.tMode := rfl
@[simp] theorem withLat_tRole : (s.withLat l).tRole = s.tRole := rfl
@[simp] theorem withLat_tBus : (s.withLat l).tBus = s.tBus := rfl
@[simp] theorem withLat_tKnob : (s.withLat l).tKnob = s.tKnob := rfl
@[simp] theorem withLat_tByte : (s.withLat l).tByte = s.tByte := rfl
@[simp] theorem withLat_cfg : (s.withLat l).cfg = s.cfg := rfl
@[simp] theorem withLat_outq (c : Chan) : (s.withLat l).outq c = s.outq c := by cases c <;> rfl
@[simp] theorem withLat_nextDispatch : (s.withLat l).nextDispatch = s.nextDispatch := rfl
@[simp] theorem withLat_atFinalStep : (s.withLat l).atFinalStep = s.atFinalStep := rfl

theorem raise_withLat (c : FaultCode) : (s.withLat l).raise c = (s.raise c).withLat l := by
  unfold State.raise
  rw [withLat_fault]
  split <;> rfl

theorem takeInterrupt_withLat (v : Source) : (s.withLat l).takeInterrupt v = (s.takeInterrupt v).withLat l := by
  cases v <;> rfl

theorem sendByte_withLat (c : Chan) (y : Byte) :
    (s.withLat l).sendByte c y = (s.sendByte c y).map (State.withLat · l) := by
  unfold State.sendByte
  rw [withLat_cfg, withLat_outq]
  split
  · cases c <;> rfl
  · rfl

end

/-! ## Twin outcomes -/

/-- The outcomes of one step in two runs that find the latches at `a` and at `b` and agree in all else: the same stop,
or next states that agree again but for the latches, which both runs leave or both write alike, at most one of them. -/
inductive LatchTwins (a b : OutLatches) : Result → Result → Prop
  | fault (c : Fault) : LatchTwins a b (.fault c) (.fault c)
  | refused (r : Refusal) : LatchTwins a b (.refused r) (.refused r)
  | kept (t : State) (h : t.lat = a) : LatchTwins a b (.next t) (.next (t.withLat b))
  | wrote (t : State) (p : OutPin) (v : Bool) (h : t.lat = a.set p (some v)) :
      LatchTwins a b (.next t) (.next (t.withLat (b.set p (some v))))

/-- Pin by pin: the one written ends alike in both runs, every other keeps its own value. -/
theorem LatchTwins.latches {a b : OutLatches} {r : Result} {t : State} (h : LatchTwins a b (.next t) r) :
    ∃ l', r = .next (t.withLat l') ∧
      ∀ p, t.lat.get p = l'.get p ∨ (t.lat.get p = a.get p ∧ l'.get p = b.get p) := by
  cases h with
  | kept _ h => exact ⟨b, rfl, fun p => .inr ⟨by rw [h], rfl⟩⟩
  | wrote _ p v h =>
    refine ⟨b.set p (some v), rfl, fun q => ?_⟩
    by_cases hq : q = p
    · exact .inl (by simp [h, hq])
    · exact .inr ⟨by rw [h, OutLatches.get_set_other a hq], OutLatches.get_set_other b hq _⟩

section
variable (s : State) (l : OutLatches)

theorem latchTwins_raise (c : FaultCode) :
    LatchTwins s.lat l (.next (s.raise c)) (.next ((s.withLat l).raise c)) := by
  rw [raise_withLat]
  exact .kept _ (raise_lat s c)

theorem latchTwins_execReti : LatchTwins s.lat l (execReti s) (execReti (s.withLat l)) := by
  unfold execReti
  rw [withLat_fault, withLat_atFinalStep]
  split
  · exact .fault _
  · split
    · exact .kept _ rfl
    · exact latchTwins_raise s l _

/-! ## The micro-steps that write a latch -/

theorem latchTwins_modeStepWrite : LatchTwins s.lat l (modeStepWrite s) (modeStepWrite (s.withLat l)) := by
  unfold modeStepWrite
  rw [withLat_tMode]
  split
  · exact .wrote _ .prout false rfl
  · exact .wrote _ .prout true rfl
  · exact latchTwins_raise s l _

theorem latchTwins_roleStepWrite (k ret : Nat) :
    LatchTwins s.lat l (roleStepWrite k ret s) (roleStepWrite k ret (s.withLat l)) := by
  unfold roleStepWrite
  rw [withLat_tRole]
  split
  · exact .wrote _ .msout false rfl
  · exact .wrote _ .msout true rfl
  · exact latchTwins_raise s l _

theorem latchTwins_roleStepCompare (ret : Nat) :
    LatchTwins s.lat l (roleStepCompare ret s) (roleStepCompare ret (s.withLat l)) := by
  unfold roleStepCompare
  rw [withLat_tBus, withLat_tKnob]
  split
  · exact .wrote _ .csout _ rfl
  · exact latchTwins_raise s l _

/-! ## The micro-steps that relay or drop a byte -/

theorem latchTwins_relayStep : LatchTwins s.lat l (relayStep s) (relayStep (s.withLat l)) := by
  unfold relayStep
  rw [withLat_tByte]
  split
  next y _ =>
    rw [sendByte_withLat]
    cases ht : s.sendByte .data y with
    | none => exact latchTwins_raise s l _
    | some t =>
      obtain ⟨-, rfl⟩ := sendByte_eq_some.mp ht
      exact .kept _ rfl
  next => exact latchTwins_raise s l _

theorem latchTwins_dropStep : LatchTwins s.lat l (dropStep s) (dropStep (s.withLat l)) := by
  unfold dropStep
  rw [withLat_tByte]
  split
  · exact .kept _ rfl
  · exact latchTwins_raise s l _

/-! ## The handlers -/

theorem latchTwins_microExtA : LatchTwins s.lat l (microExtA s) (microExtA (s.withLat l)) := by
  unfold microExtA
  rw [withLat_hpc]
  split
  next => exact .kept _ rfl
  next => exact latchTwins_modeStepWrite s l
  next => exact .kept _ rfl
  next => exact latchTwins_roleStepWrite s l 3 7
  next => exact .kept _ rfl
  next => exact .kept _ rfl
  next => exact latchTwins_roleStepCompare s l 7
  next => exact latchTwins_execReti s l
  next => exact latchTwins_raise s l _

theorem latchTwins_microExtB : LatchTwins s.lat l (microExtB s) (microExtB (s.withLat l)) := by
  unfold microExtB
  rw [withLat_hpc]
  split
  next => exact .kept _ rfl
  next => exact latchTwins_roleStepWrite s l 1 5
  next => exact .kept _ rfl
  next => exact .kept _ rfl
  next => exact latchTwins_roleStepCompare s l 5
  next => exact latchTwins_execReti s l
  next => exact latchTwins_raise s l _

theorem latchTwins_microTick : LatchTwins s.lat l (microTick s) (microTick (s.withLat l)) := by
  unfold microTick
  rw [withLat_hpc]
  split
  next => exact .kept _ rfl
  next => exact .kept _ rfl
  next => exact latchTwins_execReti s l
  next => exact latchTwins_raise s l _

theorem latchTwins_microUrx : LatchTwins s.lat l (microUrx s) (microUrx (s.withLat l)) := by
  unfold microUrx
  rw [withLat_hpc]
  split
  next => exact .kept _ rfl
  next => exact latchTwins_relayStep s l
  next => exact .kept _ rfl
  next => exact latchTwins_dropStep s l
  next => exact latchTwins_execReti s l
  next => exact latchTwins_raise s l _

theorem latchTwins_microUtx : LatchTwins s.lat l (microUtx s) (microUtx (s.withLat l)) := by
  unfold microUtx
  rw [withLat_hpc]
  split
  next => exact .kept _ rfl
  next => exact latchTwins_execReti s l
  next => exact latchTwins_raise s l _

theorem latchTwins_microStep (v : Source) : LatchTwins s.lat l (microStep v s) (microStep v (s.withLat l)) := by
  cases v with
  | extA => exact latchTwins_microExtA s l
  | extB => exact latchTwins_microExtB s l
  | tick => exact latchTwins_microTick s l
  | urx => exact latchTwins_microUrx s l
  | utx => exact latchTwins_microUtx s l

/-! ## A step of MUX -/

theorem exec_entryWord (v : Source) (s : State) : exec (entryWord v) s = handlerEntry v s := by cases v <;> rfl

theorem latchTwins_handlerEntry (v : Source) :
    LatchTwins s.lat l (handlerEntry v s) (handlerEntry v (s.withLat l)) := by
  unfold handlerEntry
  rw [withLat_fault, withLat_nextDispatch]
  split
  · exact .fault _
  · split
    · rw [takeInterrupt_withLat]
      exact .kept _ (takeInterrupt_lat s v)
    · exact latchTwins_raise s l _

/-- Neither what MUX does next nor what that writes is read from a latch. -/
theorem latchTwins_muxStep : LatchTwins s.lat l (muxStep s) (muxStep (s.withLat l)) := by
  unfold muxStep
  rw [withLat_fault, withLat_ctx, withLat_nextDispatch]
  split
  · exact .fault _
  · split
    · exact latchTwins_microStep s l _
    · split
      · rw [exec_entryWord, exec_entryWord]
        exact latchTwins_handlerEntry s l _
      · exact .refused _

end

/-- Settles O57: the scheduled turn is a step of MUX in both runs, and their outcomes are twins. -/
theorem outputsAreRecomputedFromInputsOnly : Obligations.OutputsAreRecomputedFromInputsOnly := by
  unfold Obligations.OutputsAreRecomputedFromInputsOnly
  intro s t l rest hs h
  have hl : step (s.withLat l) = muxStep (State.withLat { s with sched := rest } l) := step_of_sched_mux hs
  have htwins := latchTwins_muxStep { s with sched := rest } l
  rw [← step_of_sched_mux hs, h, ← hl] at htwins
  exact htwins.latches

end Sys2Proof.Machine
end

section
/-! O30, O31, O32, O39: mode arbitration (45_arbitration.md R141 to R146, R148, R149). The words of FG, then the
complete runs of the line handlers: a run returns if it returns from its second state on
(`lineHandlerReturns_of_microStep`), and the two handlers share the run of UpdateRoleSeq. -/

namespace Sys2Proof.Machine

variable {s t : State}

/-! ## The arms of `exec` -/

theorem exec_arbDetectRunmode (s : State) : exec .arbDetectRunmode s = execArbDetectRunmode s := rfl
theorem exec_arbDetectRole (s : State) : exec .arbDetectRole s = execArbDetectRole s := rfl
theorem exec_arbAddrMatch (s : State) : exec .arbAddrMatch s = execArbAddrMatch s := rfl
theorem exec_arbUpdateRunmode (m : RunMode) (s : State) :
    exec (.arbUpdateRunmode m) s = execArbUpdateRunmode m s := rfl
theorem exec_arbUpdateRole (r : Role) (s : State) : exec (.arbUpdateRole r) s = execArbUpdateRole r s := rfl

/-! ## AddressMatches (45_arbitration.md R145, R148) -/

/-- Settles O32: the comparison is of the numbers, and a bus number is below 8. -/
theorem addressesMatchOnTheEqualPairsOnly : Obligations.AddressesMatchOnTheEqualPairsOnly := by
  unfold Obligations.AddressesMatchOnTheEqualPairsOnly
  have equalPairs (b : BitVec 3) (k : BitVec 4) : addressMatches b k = true ↔ b.toNat = k.toNat := by
    rw [addressMatches_eq, decide_eq_true_eq]
  refine ⟨equalPairs, fun b k hk => Bool.eq_false_iff.mpr fun h => ?_⟩
  have heq := (equalPairs b k).mp h
  omega

theorem packBits_cons_eq_iff {a b : Bool} {l m : List Bool} :
    packBits (a :: l) = packBits (b :: m) ↔ a = b ∧ packBits l = packBits m := by
  cases a <;> cases b <;> simp [packBits] <;> omega

theorem fieldBus_toNat (s : State) : s.fieldBus.toNat = packBits [s.sync.bus0, s.sync.bus1, s.sync.bus2] := by
  rw [State.fieldBus, BitVec.toNat_ofNat]
  exact Nat.mod_eq_of_lt (packBits_lt _)

theorem fieldKnob_toNat (s : State) :
    s.fieldKnob.toNat = packBits [s.sync.knob0, s.sync.knob1, s.sync.knob2, s.sync.knob3] := by
  rw [State.fieldKnob, BitVec.toNat_ofNat]
  exact Nat.mod_eq_of_lt (packBits_lt _)

/-- BUS and KNOB match level by level, and KNOB3 has no counterpart on the bus. -/
theorem fieldBus_eq_fieldKnob_iff : s.fieldBus.toNat = s.fieldKnob.toNat ↔
    s.sync.bus0 = s.sync.knob0 ∧ s.sync.bus1 = s.sync.knob1 ∧ s.sync.bus2 = s.sync.knob2 ∧ s.sync.knob3 = false := by
  have hknob3 : packBits [] = packBits [s.sync.knob3] ↔ s.sync.knob3 = false := by
    cases s.sync.knob3 <;> simp [packBits]
  simp only [fieldBus_toNat, fieldKnob_toNat, packBits_cons_eq_iff, hknob3]

/-! ## The words that read the switches (45_arbitration.md R141, R142, R145) -/

theorem detectRunMode_bit (s : State) : s.detectRunMode.bit = decide (s.sync.prsw = s.cfg.prswProgramLevel) := by
  unfold State.detectRunMode
  split <;> simp [RunMode.bit, *]

theorem detectRole_bit (s : State) : s.detectRole.bit = decide (s.sync.mssw = s.cfg.msswMasterLevel) := by
  unfold State.detectRole
  split <;> simp [Role.bit, *]

theorem zextBit_decide (p : Prop) [Decidable p] : zextBit (decide p) = if p then 1 else 0 := by
  simp only [zextBit_eq, decide_eq_true_eq]

/-- A word that reads one bit leaves it in RES. What is read is read in the state that has recorded the word. -/
theorem softwareWord_readBit {i : Instr} {read : State → Bool} {p : Prop} [Decidable p] (hr : s.FgReady)
    (ho : operandFault i = none) (hw : writesOwnedPin i = false) (hp : read (s.record .fg i) = decide p) :
    softwareWord i s (fun u => .next (u.setRes (zextBit (read u))).advance) = .next { s with
      res := some (if p then 1 else 0), fgpc := s.fgpc + 1, hist := s.hist ++ [.word .fg (encode i)] } := by
  rw [softwareWord_run_of_fgReady hr ho hw, hp, zextBit_decide]
  rfl

/-- Settles O30: each word is the bit it reads, and recording the word changes no synchronized level. -/
theorem arbitrationReadWords : Obligations.ArbitrationReadWords := by
  unfold Obligations.ArbitrationReadWords
  intro s hr
  rw [exec_arbDetectRunmode, exec_arbDetectRole, exec_arbAddrMatch]
  refine ⟨softwareWord_readBit hr rfl rfl (detectRunMode_bit _), softwareWord_readBit hr rfl rfl (detectRole_bit _),
    softwareWord_readBit hr rfl rfl ?_⟩
  rw [addressMatches_eq, decide_eq_decide, fieldBus_eq_fieldKnob_iff]
  rfl

/-! ## The words that write the outputs (45_arbitration.md R143, R144, R146) -/

/-- A class S word before the end of bring-up runs its effect, whatever pins it writes. -/
theorem softwareWord_run_of_bringUp {i : Instr} {run : State → Result} (hr : s.FgReady) (hn : s.booted = false)
    (ho : operandFault i = none) : softwareWord i s run = run (s.record .fg i) := by
  obtain ⟨hf, hc, hb⟩ := hr
  exact softwareWord_run hf hb hc ho fun _ => hn

/-- A pin write recorded after the word. -/
theorem writeLat_record (i : Instr) (p : OutPin) (v : Bool) : (s.record .fg i).writeLat p v = { s with
    lat := s.lat.set p (some v), hist := s.hist ++ [.word .fg (encode i), .pinwrite p v] } := by
  simp [State.writeLat, State.record, State.emit]

theorem exec_arbUpdateRunmode_eq (hr : s.FgReady) (hn : s.booted = false) (m : RunMode) :
    exec (.arbUpdateRunmode m) s = .next { s with
      lat := ⟨some m.bit, s.lat.msout, s.lat.csout⟩, fgpc := s.fgpc + 1,
      hist := s.hist ++ [.word .fg (encode (.arbUpdateRunmode m)), .pinwrite .prout m.bit] } := by
  rw [exec_arbUpdateRunmode, execArbUpdateRunmode, softwareWord_run_of_bringUp hr hn rfl, State.updateRunMode,
    writeLat_record]
  rfl

theorem exec_arbUpdateRole_master_eq (hr : s.FgReady) (hn : s.booted = false) :
    exec (.arbUpdateRole .master) s = .next { s with
      lat := ⟨s.lat.prout, some true, s.lat.csout⟩, fgpc := s.fgpc + 1,
      hist := s.hist ++ [.word .fg (encode (.arbUpdateRole .master)), .pinwrite .msout true] } := by
  rw [exec_arbUpdateRole, execArbUpdateRole, softwareWord_run_of_bringUp hr hn rfl, State.updateRole,
    writeLat_record]
  rfl

theorem updateRole_slave {cs : Bool} (hcs : cs = !decide (s.fieldBus.toNat = s.fieldKnob.toNat)) :
    s.updateRole .slave = (s.writeLat .msout false).writeLat .csout cs := by
  rw [State.updateRole, addressMatches_eq, csLevel, hcs]

/-- SLAVE: the comparison is made in the same step as both writes. -/
theorem exec_arbUpdateRole_slave_eq {cs : Bool} (hr : s.FgReady) (hn : s.booted = false)
    (hcs : cs = !decide (s.fieldBus.toNat = s.fieldKnob.toNat)) :
    exec (.arbUpdateRole .slave) s = .next { s with
      lat := ⟨s.lat.prout, some false, some cs⟩, fgpc := s.fgpc + 1,
      hist := s.hist ++ [.word .fg (encode (.arbUpdateRole .slave)), .pinwrite .msout false,
        .pinwrite .csout cs] } := by
  rw [exec_arbUpdateRole, execArbUpdateRole, softwareWord_run_of_bringUp hr hn rfl,
    updateRole_slave (s := s.record .fg _) hcs, writeLat_record]
  simp [State.advance, State.writeLat, State.emit, OutLatches.set]

/-- Settles O31: each word records itself and then the pin writes of its update. -/
theorem arbitrationWriteWords : Obligations.ArbitrationWriteWords := by
  unfold Obligations.ArbitrationWriteWords
  intro s hr hn
  refine ⟨fun m b hb => ?runMode, exec_arbUpdateRole_master_eq hr hn, fun cs => exec_arbUpdateRole_slave_eq hr hn⟩
  have hbit : m.bit = b := by obtain ⟨rfl, rfl⟩ | ⟨rfl, rfl⟩ := hb <;> rfl
  rw [exec_arbUpdateRunmode_eq hr hn, hbit]

/-! ## A line handler's run -/

/-- `t` differs from `s` in nothing but the latches, HPC, HIST and the line handlers' temporaries. -/
def LineHandlerChange (s t : State) : Prop :=
  t = { s with lat := t.lat, hpc := t.hpc, hist := t.hist, tMode := t.tMode, tRole := t.tRole, tBus := t.tBus,
               tKnob := t.tKnob, tMatch := t.tMatch }

theorem pinwrites_append (es fs : List Event) : pinwrites (es ++ fs) = pinwrites es ++ pinwrites fs := by
  induction es with
  | nil => rfl
  | cons e es ih => cases e <;> simp [pinwrites, ih]

section
variable {v : Source} {k n : Nat} {l : OutLatches} {w : List (OutPin × Bool)}

/-- While a handler runs, MUX's steps begin with its next micro-step. -/
theorem muxSteps_succ (h : s.InHandler v k) (hm : microStep v s = .next t) (n : Nat) :
    muxSteps (n + 1) s = muxSteps n t := by
  rw [muxSteps, muxStep_of_inHandler h, hm]

/-- The pin writes of a run are those of its first micro-step and then those of the rest. -/
theorem lineHandlerReturns_of_microStep {es : List Event} (h : s.InHandler v k) (hm : microStep v s = .next t)
    (hc : LineHandlerChange s t) (he : t.hist = s.hist ++ es) (ht : t.LineHandlerReturns n l w) :
    s.LineHandlerReturns (n + 1) l (pinwrites es ++ w) := by
  obtain ⟨u, fs, hrun, hw, hu⟩ := ht
  refine ⟨u, es ++ fs, (muxSteps_succ h hm n).trans hrun, by rw [pinwrites_append, hw], ?_⟩
  rw [hc, he, List.append_assoc] at hu
  exact hu

theorem lineHandlerReturns_of_quiet (h : s.InHandler v k) (hm : microStep v s = .next t)
    (hc : LineHandlerChange s t) (he : t.hist = s.hist) (ht : t.LineHandlerReturns n l w) :
    s.LineHandlerReturns (n + 1) l w :=
  lineHandlerReturns_of_microStep (es := []) h hm hc (he.trans (List.append_nil _).symm) ht

theorem lineHandlerReturns_of_pinwrite {p : OutPin} {b : Bool} (h : s.InHandler v k)
    (hm : microStep v s = .next t) (hc : LineHandlerChange s t) (he : t.hist = s.hist ++ [.pinwrite p b])
    (ht : t.LineHandlerReturns n l w) : s.LineHandlerReturns (n + 1) l ((p, b) :: w) :=
  lineHandlerReturns_of_microStep h hm hc he ht

/-- The final micro-step returns with the latches as they are. -/
theorem lineHandlerReturns_of_finalStep (h : s.InHandler v (finalStep v)) : s.LineHandlerReturns 1 s.lat [] := by
  refine ⟨s.returnFromHandler v, [.word .mux 0x7F000000, .reti v], ?_, rfl, returnFromHandler_eq s v⟩
  rw [muxSteps_succ h (microStep_finalStep h), muxSteps]

end

/-! ## UpdateRoleSeq (45_arbitration.md R144) -/

namespace RoleSequence

variable {v : Source} {k ret : Nat}

theorem ret_eq (hv : RoleSequence v k ret) : ret = finalStep v := by
  obtain ⟨rfl, -, rfl⟩ | ⟨rfl, -, rfl⟩ := hv <;> rfl

theorem returns_of_master (hv : RoleSequence v k ret) (h : s.InHandler v k) (hr : s.detectRole = .master) :
    s.LineHandlerReturns 3 ⟨s.lat.prout, some true, s.lat.csout⟩ [(.msout, true)] := by
  obtain rfl := hv.ret_eq
  have ⟨hf, hc, hk⟩ := h
  refine lineHandlerReturns_of_quiet h (hv.microStep_detect hk) rfl rfl ?_
  refine lineHandlerReturns_of_pinwrite ⟨hf, hc, rfl⟩ (hv.microStep_writeMaster rfl (congrArg some hr)) rfl rfl ?_
  exact lineHandlerReturns_of_finalStep ⟨hf, hc, rfl⟩

/-- The second half of SLAVE: both numbers are read, one after the other, and then compared. -/
theorem returns_of_compare {cs : Bool} (hv : RoleSequence v k ret) (h : s.InHandler v (k + 2))
    (hcs : cs = !decide (s.fieldBus.toNat = s.fieldKnob.toNat)) :
    s.LineHandlerReturns 4 ⟨s.lat.prout, s.lat.msout, some cs⟩ [(.csout, cs)] := by
  subst hcs
  obtain rfl := hv.ret_eq
  have ⟨hf, hc, hk⟩ := h
  refine lineHandlerReturns_of_quiet h (hv.microStep_bus hk) rfl rfl ?_
  refine lineHandlerReturns_of_quiet ⟨hf, hc, rfl⟩ (hv.microStep_knob rfl) rfl rfl ?_
  refine lineHandlerReturns_of_pinwrite ⟨hf, hc, rfl⟩ (hv.microStep_compare rfl rfl rfl) rfl rfl ?_
  exact lineHandlerReturns_of_finalStep ⟨hf, hc, rfl⟩

theorem returns_of_slave {cs : Bool} (hv : RoleSequence v k ret) (h : s.InHandler v k) (hr : s.detectRole = .slave)
    (hcs : cs = !decide (s.fieldBus.toNat = s.fieldKnob.toNat)) :
    s.LineHandlerReturns 6 ⟨s.lat.prout, some false, some cs⟩ [(.msout, false), (.csout, cs)] := by
  have ⟨hf, hc, hk⟩ := h
  refine lineHandlerReturns_of_quiet h (hv.microStep_detect hk) rfl rfl ?_
  refine lineHandlerReturns_of_pinwrite ⟨hf, hc, rfl⟩ (hv.microStep_writeSlave rfl (congrArg some hr)) rfl rfl ?_
  exact hv.returns_of_compare ⟨hf, hc, rfl⟩ hcs

end RoleSequence

/-! ## UpdateRunMode, in the Line A handler (44_edge.md R133) -/

theorem lineHandlerReturns_of_run (h : s.InHandler .extA 0) (hm : s.detectRunMode = .run) :
    s.LineHandlerReturns 3 ⟨some false, s.lat.msout, s.lat.csout⟩ [(.prout, false)] := by
  have ⟨hf, hc, hk⟩ := h
  refine lineHandlerReturns_of_quiet h (microStep_detectRunMode hk) rfl rfl ?_
  refine lineHandlerReturns_of_pinwrite ⟨hf, hc, rfl⟩ (microStep_writeRun rfl (congrArg some hm)) rfl rfl ?_
  exact lineHandlerReturns_of_finalStep ⟨hf, hc, rfl⟩

/-- In PROGRAM the run goes on at UpdateRoleSeq with PROUT high. -/
def State.inProgram (s : State) : State := ({ s with tMode := some .program }.writeLat .prout true).setHpc 2

theorem lineHandlerReturns_of_program {n : Nat} {l : OutLatches} {w : List (OutPin × Bool)}
    (h : s.InHandler .extA 0) (hm : s.detectRunMode = .program) (ht : s.inProgram.LineHandlerReturns n l w) :
    s.LineHandlerReturns (n + 2) l ((.prout, true) :: w) := by
  have ⟨hf, hc, hk⟩ := h
  have hdetect : microStep .extA s = .next ({ s with tMode := some .program }.setHpc 1) := by
    rw [microStep_detectRunMode hk, hm]
  refine lineHandlerReturns_of_quiet h hdetect rfl rfl ?_
  exact lineHandlerReturns_of_pinwrite ⟨hf, hc, rfl⟩ (microStep_writeProgram rfl rfl) rfl rfl ht

/-! ## The statement -/

/-- Settles O39: Line A's run is UpdateRunMode and, in PROGRAM, UpdateRoleSeq; Line B's is UpdateRoleSeq. -/
theorem lineHandlerOutputs : Obligations.LineHandlerOutputs := by
  unfold Obligations.LineHandlerOutputs
  intro s cs hcs
  have hva : RoleSequence .extA 2 7 := .inl ⟨rfl, rfl, rfl⟩
  have hvb : RoleSequence .extB 0 5 := .inr ⟨rfl, rfl, rfl⟩
  have inRole : s.InHandler .extA 0 → s.inProgram.InHandler .extA 2 := fun ⟨hf, hc, _⟩ => ⟨hf, hc, rfl⟩
  refine ⟨lineHandlerReturns_of_run, fun h hm hr => ?slaveA, fun h hm hr => ?masterA, fun h hr => ?slaveB,
    fun h hr => ?masterB⟩
  case slaveA => exact lineHandlerReturns_of_program h hm (hva.returns_of_slave (inRole h) hr hcs)
  case masterA => exact lineHandlerReturns_of_program h hm (hva.returns_of_master (inRole h) hr)
  case slaveB => exact hvb.returns_of_slave h hr hcs
  case masterB => exact hvb.returns_of_master h hr

end Sys2Proof.Machine
end

section
/-! O33, O34, O35, O40: the USB endpoint's words of FG (46_bridge.md R153 to R155) and the run of the UART-receive
handler (46_bridge.md R151, R158 to R160). -/

namespace Sys2Proof.Machine

variable {s : State} {c y : Byte}

/-! ## The arms of `exec` -/

theorem exec_usbRecv (c : Byte) (s : State) : exec (.usbRecv c) s = execUsbRecv c s := rfl
theorem exec_usbSend (c y : Byte) (s : State) : exec (.usbSend c y) s = execUsbSend c y s := rfl
theorem exec_usbService (c : Byte) (s : State) : exec (.usbService c) s = execUsbService c s := rfl

/-! ## Channel ids (30_encoding.md R81) -/

theorem Chan.ofId_eq_some {q : Chan} (h : c = 0 ∧ q = .data ∨ c = 1 ∧ q = .control) : Chan.ofId c = some q := by
  obtain ⟨rfl, rfl⟩ | ⟨rfl, rfl⟩ := h <;> rfl

theorem Chan.ofId_isSome_iff : (Chan.ofId c).isSome = true ↔ c.toNat ≤ 1 := by
  rw [Laws.OperandChecks.chan_isSome, isChannel, decide_eq_true_iff]

/-- FG's USB words share this check (60_exceptions.md R186, check 4). -/
theorem checkIndex_channel_of_le (h : c.toNat ≤ 1) : checkIndex (Chan.ofId c).isSome .badChannel = none :=
  if_pos (Chan.ofId_isSome_iff.mpr h)

theorem checkIndex_channel_of_lt (h : 1 < c.toNat) :
    checkIndex (Chan.ofId c).isSome .badChannel = some .badChannel :=
  if_neg (mt Chan.ofId_isSome_iff.mp (Nat.not_le.mpr h))

theorem checkIndex_channel_of_some {q : Chan} (h : Chan.ofId c = some q) :
    checkIndex (Chan.ofId c).isSome .badChannel = none :=
  if_pos (Option.isSome_of_eq_some h)

/-! ## Recording a word leaves the queues -/

@[simp] theorem record_inq (a : Agent) (i : Instr) (q : Chan) : (s.record a i).inq q = s.inq q := by
  cases q <;> rfl

@[simp] theorem record_outq (a : Agent) (i : Instr) (q : Chan) : (s.record a i).outq q = s.outq q := by
  cases q <;> rfl

/-! ## SendByte (46_bridge.md R160) -/

theorem sendByte_of_room {q : Chan} (h : ∀ cap, s.cfg.usbqCap = some cap → (s.outq q).length < cap) :
    s.sendByte q y = some ((s.setOutq q (s.outq q ++ [y])).emit (.usbsend q y)) :=
  sendByte_eq_some.mpr ⟨(hasRoom_iff _ _).mpr h, rfl⟩

theorem sendByte_of_full {q : Chan} {cap : Nat} (hcap : s.cfg.usbqCap = some cap) (h : cap ≤ (s.outq q).length) :
    s.sendByte q y = none := by
  rw [sendByte_eq_none, ← Bool.not_eq_true, hasRoom_iff]
  exact fun hroom => Nat.not_lt.mpr h (hroom cap hcap)

/-! ## The UART-receive handler (46_bridge.md R151) -/

theorem gateCls_eq {gate : Half}
    (h : s.cfg.rxGateSrc = .data ∧ gate = s.cls0 ∨ s.cfg.rxGateSrc = .last ∧ gate = s.clsLast) :
    s.gateCls = gate := by
  obtain ⟨hsrc, rfl⟩ | ⟨hsrc, rfl⟩ := h <;> simp [State.gateCls, hsrc]

theorem microStep_gateOpen (h : s.hpc = some 0) (hg : s.gateCls = 3) :
    microStep .urx s = .next { s with hpc := some 1 } := by
  simp only [microStep, microUrx, h, if_pos hg]
  rfl

theorem microStep_gateShut (h : s.hpc = some 0) (hg : s.gateCls ≠ 3) :
    microStep .urx s = .next { s with hpc := some 3 } := by
  simp only [microStep, microUrx, h, if_neg hg]
  rfl

theorem microStep_relay_of_room (h : s.hpc = some 1) (hy : s.tByte = some y)
    (hroom : ∀ cap, s.cfg.usbqCap = some cap → s.outq0.length < cap) :
    microStep .urx s = .next { s with
      outq0 := s.outq0 ++ [y], hpc := some 2, hist := s.hist ++ [.usbsend .data y] } := by
  have hsend := sendByte_of_room (q := .data) (y := y) hroom
  simp [microStep, microUrx, relayStep, State.setHpc, State.setOutq, State.outq, State.emit, h, hy, hsend]

/-- SendByte's fault is the micro-step's (46_bridge.md R160). -/
theorem microStep_relay_of_full {cap : Nat} (hf : s.fault = 0) (h : s.hpc = some 1) (hy : s.tByte = some y)
    (hcap : s.cfg.usbqCap = some cap) (hfull : cap ≤ s.outq0.length) :
    microStep .urx s = .next { s with fault := 0x08, hist := s.hist ++ [.fault 0x08] } := by
  have hsend := sendByte_of_full (q := .data) (y := y) hcap hfull
  simp only [microStep, microUrx, relayStep, h, hy, hsend, raise_of_faultFree s _ hf]
  rfl

theorem microStep_setRxi (h : s.hpc = some 2) :
    microStep .urx s = .next { s with rxi := true, hpc := some 4 } := by
  simp [microStep, microUrx, State.setHpc, h]

theorem microStep_drop (h : s.hpc = some 3) (hy : s.tByte = some y) :
    microStep .urx s = .next { s with hpc := some 4, hist := s.hist ++ [.drop y] } := by
  simp [microStep, microUrx, dropStep, State.setHpc, State.emit, h, hy]

section
variable {v : Source} {rest : List Action} {es : List Event} {e : Event}

/-- The return's events follow the one the handler's last effect has left. -/
theorem run_one_of_finalStep_after (hs : s.sched = List.replicate 1 .mux ++ rest) (h : s.InHandler v (finalStep v))
    (he : s.hist = es ++ [e]) :
    Host.Core.run Sys2Proof.core 1 s = .next { s with
      ctx := .fg, hpc := none, sched := rest, hist := es ++ [e, .word .mux 0x7F000000, .reti v] } := by
  rw [run_one_of_finalStep hs h, he, List.append_assoc, List.singleton_append]

theorem run_receiveHandler_relays (h : s.InHandler .urx 0) (hy : s.tByte = some y) (hg : s.gateCls = 3)
    (hroom : ∀ cap, s.cfg.usbqCap = some cap → s.outq0.length < cap)
    (hs : s.sched = List.replicate 4 .mux ++ rest) :
    Host.Core.run Sys2Proof.core 4 s = .next { s with
      outq0 := s.outq0 ++ [y], rxi := true, ctx := .fg, hpc := none, sched := rest,
      hist := s.hist ++ [.usbsend .data y, .word .mux 0x7F000000, .reti .urx] } := by
  have ⟨hf, hc, hk⟩ := h
  calc Host.Core.run Sys2Proof.core 4 s
    _ = Host.Core.run Sys2Proof.core 3 { s with hpc := some 1, sched := List.replicate 3 .mux ++ rest } :=
        run_succ_of_microStep hs h (microStep_gateOpen hk hg)
    _ = Host.Core.run Sys2Proof.core 2 { s with
          outq0 := s.outq0 ++ [y], hpc := some 2, sched := List.replicate 2 .mux ++ rest,
          hist := s.hist ++ [.usbsend .data y] } :=
        run_succ_of_microStep rfl ⟨hf, hc, rfl⟩ (microStep_relay_of_room rfl hy hroom)
    _ = Host.Core.run Sys2Proof.core 1 { s with
          outq0 := s.outq0 ++ [y], rxi := true, hpc := some 4, sched := List.replicate 1 .mux ++ rest,
          hist := s.hist ++ [.usbsend .data y] } :=
        run_succ_of_microStep rfl ⟨hf, hc, rfl⟩ (microStep_setRxi rfl)
    _ = _ := run_one_of_finalStep_after rfl ⟨hf, hc, rfl⟩ rfl

theorem run_receiveHandler_drops (h : s.InHandler .urx 0) (hy : s.tByte = some y) (hg : s.gateCls ≠ 3)
    (hs : s.sched = List.replicate 3 .mux ++ rest) :
    Host.Core.run Sys2Proof.core 3 s = .next { s with
      ctx := .fg, hpc := none, sched := rest,
      hist := s.hist ++ [.drop y, .word .mux 0x7F000000, .reti .urx] } := by
  have ⟨hf, hc, hk⟩ := h
  calc Host.Core.run Sys2Proof.core 3 s
    _ = Host.Core.run Sys2Proof.core 2 { s with hpc := some 3, sched := List.replicate 2 .mux ++ rest } :=
        run_succ_of_microStep hs h (microStep_gateShut hk hg)
    _ = Host.Core.run Sys2Proof.core 1 { s with
          hpc := some 4, sched := List.replicate 1 .mux ++ rest, hist := s.hist ++ [.drop y] } :=
        run_succ_of_microStep rfl ⟨hf, hc, rfl⟩ (microStep_drop rfl hy)
    _ = _ := run_one_of_finalStep_after rfl ⟨hf, hc, rfl⟩ rfl

theorem run_receiveHandler_overflows {cap : Nat} (h : s.InHandler .urx 0) (hy : s.tByte = some y)
    (hg : s.gateCls = 3) (hcap : s.cfg.usbqCap = some cap) (hfull : cap ≤ s.outq0.length)
    (hs : s.sched = List.replicate 2 .mux ++ rest) :
    Host.Core.run Sys2Proof.core 2 s = .next { s with
      hpc := some 1, sched := rest, fault := 0x08, hist := s.hist ++ [.fault 0x08] } := by
  have ⟨hf, hc, hk⟩ := h
  calc Host.Core.run Sys2Proof.core 2 s
    _ = Host.Core.run Sys2Proof.core 1 { s with hpc := some 1, sched := List.replicate 1 .mux ++ rest } :=
        run_succ_of_microStep hs h (microStep_gateOpen hk hg)
    _ = _ := run_succ_of_microStep rfl ⟨hf, hc, rfl⟩ (microStep_relay_of_full hf rfl hy hcap hfull)

end

/-- Settles O40: GateCLS picks the path, and on the relay's path the room in OUTQ[0]. -/
theorem receiveHandlerRelaysOrDrops : Obligations.ReceiveHandlerRelaysOrDrops := by
  unfold Obligations.ReceiveHandlerRelaysOrDrops
  intro s rest y gate h hy hgate
  obtain rfl := gateCls_eq hgate
  exact ⟨run_receiveHandler_relays h hy, run_receiveHandler_drops h hy,
    fun cap hg => run_receiveHandler_overflows h hy hg⟩

/-! ## USB_RECV (46_bridge.md R153) -/

/-- The word's effect on the channel it names. -/
theorem exec_usbRecv_eq {q : Chan} (hr : s.FgReady) (hq : Chan.ofId c = some q) :
    exec (.usbRecv c) s = .next ((s.record .fg (.usbRecv c)).receiveByte q).advance := by
  have ho : operandFault (.usbRecv c) = none := checkIndex_channel_of_some hq
  rw [exec_usbRecv, execUsbRecv, softwareWord_run_of_fgReady hr ho rfl, hq]

theorem receiveByte_of_cons {q : Chan} {ys : List Byte} (h : s.inq q = y :: ys) :
    s.receiveByte q = { s.setInq q ys with
      res := some (y.setWidth 16), hist := s.hist ++ [.usbrecv q (some y)] } := by
  simp [State.receiveByte, h, State.setRes, State.emit, zextByte]

theorem receiveByte_of_nil {q : Chan} (h : s.inq q = []) :
    s.receiveByte q = { s with res := some 0x0100, hist := s.hist ++ [.usbrecv q none] } := by
  simp [State.receiveByte, h, State.setRes, State.emit, resNone]

/-- Settles O33: the effect is `receiveByte`, and recording the word changes no queue. -/
theorem usbRecvTakesTheOldestByte : Obligations.UsbRecvTakesTheOldestByte := by
  unfold Obligations.UsbRecvTakesTheOldestByte
  intro s c q hr hq
  rw [exec_usbRecv_eq hr (Chan.ofId_eq_some hq)]
  refine ⟨fun y ys hin => ?byte, fun hin => ?none⟩
  case byte =>
    rw [receiveByte_of_cons ((record_inq _ _ _).trans hin), record_hist, List.append_assoc]
    cases q <;> rfl
  case none =>
    rw [receiveByte_of_nil ((record_inq _ _ _).trans hin), record_hist, List.append_assoc]
    rfl

/-! ## USB_SEND (46_bridge.md R154) -/

/-- The word's effect on the channel it names is SendByte, its fault included. -/
theorem exec_usbSend_eq {q : Chan} (hr : s.FgReady) (hq : Chan.ofId c = some q) :
    exec (.usbSend c y) s =
      ((s.record .fg (.usbSend c y)).sendByte q y).elim (.next (s.raise .model)) fun u => .next u.advance := by
  have ho : operandFault (.usbSend c y) = none := checkIndex_channel_of_some hq
  rw [exec_usbSend, execUsbSend, softwareWord_run_of_fgReady hr ho rfl, hq]
  cases hu : (s.record .fg (.usbSend c y)).sendByte q y <;> simp only [hu, Option.elim]

theorem exec_usbSend_of_room {q : Chan} (hr : s.FgReady) (hq : Chan.ofId c = some q)
    (hroom : ∀ cap, s.cfg.usbqCap = some cap → (s.outq q).length < cap) :
    exec (.usbSend c y) s = .next { s.setOutq q (s.outq q ++ [y]) with
      fgpc := s.fgpc + 1, hist := s.hist ++ [.word .fg (encode (.usbSend c y)), .usbsend q y] } := by
  rw [exec_usbSend_eq hr hq, sendByte_of_room (by simpa using hroom), record_outq, Option.elim_some]
  cases q <;> simp [State.setOutq, State.advance, State.record, State.emit]

/-- The fault leaves no record of the word (log 8). -/
theorem exec_usbSend_of_full {q : Chan} {cap : Nat} (hr : s.FgReady) (hq : Chan.ofId c = some q)
    (hcap : s.cfg.usbqCap = some cap) (hfull : cap ≤ (s.outq q).length) :
    exec (.usbSend c y) s = .next { s with fault := 0x08, hist := s.hist ++ [.fault 0x08] } := by
  have ⟨hf, _, _⟩ := hr
  have hsend : (s.record .fg (.usbSend c y)).sendByte q y = none := sendByte_of_full hcap (by simpa using hfull)
  rw [exec_usbSend_eq hr hq, hsend, Option.elim_none, raise_of_faultFree s _ hf]
  rfl

/-- Settles O34: the room in the queue decides. -/
theorem usbSendQueuesOrFaults : Obligations.UsbSendQueuesOrFaults := by
  unfold Obligations.UsbSendQueuesOrFaults
  intro s c y q hr hq
  have hq := Chan.ofId_eq_some hq
  exact ⟨exec_usbSend_of_room hr hq, fun cap => exec_usbSend_of_full hr hq⟩

/-! ## USB_SERVICE (46_bridge.md R155) and a channel above 1 -/

theorem exec_usbService_eq (hr : s.FgReady) (hc : c.toNat ≤ 1) :
    exec (.usbService c) s = .next { s with
      fgpc := s.fgpc + 1, hist := s.hist ++ [.word .fg (encode (.usbService c))] } := by
  have ho : operandFault (.usbService c) = none := checkIndex_channel_of_le hc
  rw [exec_usbService, execUsbService, softwareWord_run_of_fgReady hr ho rfl]
  rfl

theorem exec_usbWord_badChannel {i : Instr} (hr : s.FgReady) (hc : 1 < c.toNat)
    (hi : i = .usbService c ∨ i = .usbRecv c ∨ i = .usbSend c y) :
    exec i s = .next { s with fault := 0x04, hist := s.hist ++ [.fault 0x04] } := by
  have ⟨hclass, hfault⟩ : i.wordClass = .software ∧ operandFault i = some .badChannel := by
    obtain rfl | rfl | rfl := hi <;> exact ⟨rfl, checkIndex_channel_of_lt hc⟩
  exact exec_software_eq_fault hr hclass (lateFault_of_operandFault hfault)

/-- Settles O35: USB_SERVICE's effect is FG's next position; the channel check refuses the rest. -/
theorem usbServiceChangesNothingButHistory : Obligations.UsbServiceChangesNothingButHistory := by
  unfold Obligations.UsbServiceChangesNothingButHistory
  exact fun s c y hr => ⟨exec_usbService_eq hr, fun hc i => exec_usbWord_badChannel hr hc⟩

end Sys2Proof.Machine
end

section
/-! O42 to O47: the words of class E of the environment but ENV_TICK: the input pins, the UART line and the USB host
(47_environment.md R164 to R172). -/

namespace Sys2Proof.Machine

variable {s : State} {p c y : Byte}

/-! ## The arms of `exec` -/

theorem exec_envPin (p : Byte) (b : Bool) (s : State) : exec (.envPin p b) s = execEnvPin p b s := rfl
theorem exec_envUartRx (y : Byte) (s : State) : exec (.envUartRx y) s = execEnvUartRx y s := rfl
theorem exec_envTxDone (s : State) : exec .envTxDone s = execEnvTxDone s := rfl
theorem exec_envHostByte (c y : Byte) (s : State) : exec (.envHostByte c y) s = execEnvHostByte c y s := rfl
theorem exec_envHostTake (c : Byte) (s : State) : exec (.envHostTake c) s = execEnvHostTake c s := rfl
theorem exec_envHostCls (c : Byte) (m : Half) (s : State) : exec (.envHostCls c m) s = execEnvHostCls c m s := rfl
theorem exec_envHostConnect (s : State) : exec .envHostConnect s = execEnvHostConnect s := rfl
theorem exec_envHostDisconnect (s : State) : exec .envHostDisconnect s = execEnvHostDisconnect s := rfl

/-! ## A class E word with an illegal operand (47_environment.md R165 (b)) -/

/-- The guard is not looked at: the operand check comes first. -/
theorem exec_event_eq_fault {i : Instr} {e : FaultCode} (hf : s.fault = 0) (hi : i.wordClass = .event)
    (ho : operandFault i = some e) :
    exec i s = .next { s with fault := e.code, hist := s.hist ++ [.fault e.code] } := by
  have hm : mayPerform (eventAgent i) i s = true := (mayPerform_event hi).mpr rfl
  rw [exec_of_lateFault hf (fun h => absurd h (eventAgent_ne_fg i)) hm (lateFault_of_operandFault ho),
    raise_of_faultFree s e hf]

theorem checkIndex_inPin_of_lt (h : 10 < p.toNat) : checkIndex (InPin.ofId p).isSome .badPin = some .badPin := by
  rw [InPin.ofId_eq_none h]
  rfl

/-! ## ENV_PIN (R164) -/

theorem exec_envPin_eq {q : InPin} (hf : s.fault = 0) (hq : InPin.ofId p = some q) (b : Bool) :
    exec (.envPin p b) s = .next { s with
      pin := s.pin.set q b, hist := s.hist ++ [.word .env (encode (.envPin p b))] } := by
  have ho : operandFault (.envPin p b) = none := if_pos (Option.isSome_of_eq_some hq)
  rw [exec_envPin, execEnvPin, eventWord_run hf ho, hq]
  rfl

/-- Settles O42: a pin id up to 10 names the pin that is set; one above 10 fails the index check of both words. -/
theorem envPinSetsThePin : Obligations.EnvPinSetsThePin := by
  unfold Obligations.EnvPinSetsThePin
  refine fun s p b hf => ⟨fun q hq => exec_envPin_eq hf hq b, fun hp i hi => ?_⟩
  have ⟨hclass, hfault⟩ : i.wordClass = .event ∧ operandFault i = some .badPin := by
    obtain rfl | rfl := hi <;> exact ⟨rfl, checkIndex_inPin_of_lt hp⟩
  exact exec_event_eq_fault hf hclass hfault

/-! ## ENV_UART_RX (R166) -/

theorem receiveUart_of_free (h : s.rxfull = false) : s.receiveUart y = { s with rxdata := some y, rxfull := true } :=
  if_neg (by simp [h])

/-- An overrun: the free bit decides which byte the buffer holds. -/
theorem receiveUart_of_full {old : Byte} (h : s.rxfull = true) (hd : s.rxdata = some old) :
    s.receiveUart y =
      { s with rxdata := some (if Config.drawBit s.draws then old else y), draws := s.draws + 1 } := by
  rw [State.receiveUart, if_pos h, hd]
  rfl

theorem exec_envUartRx_eq (hf : s.fault = 0) (y : Byte) : exec (.envUartRx y) s =
    if s.uartEn then .next ((s.record .env (.envUartRx y)).receiveUart y) else .refused .guardFalse := by
  rw [exec_envUartRx, execEnvUartRx, eventWord_eq hf rfl]

/-- Settles O43: with UART_EN = 1 the effect is `receiveUart`, on a buffer that is free or full. -/
theorem envUartRxFillsOrOverruns : Obligations.EnvUartRxFillsOrOverruns := by
  unfold Obligations.EnvUartRxFillsOrOverruns
  intro s y hf
  rw [exec_envUartRx_eq hf]
  refine ⟨fun hen hfree => ?fill, fun old hen hfull hd => ?overrun, fun hen => if_neg (by simp [hen])⟩
  case fill =>
    rw [if_pos hen, receiveUart_of_free ((record_rxfull _ _ _).trans hfree)]
    rfl
  case overrun =>
    rw [if_pos hen, receiveUart_of_full ((record_rxfull _ _ _).trans hfull) ((record_rxdata _ _ _).trans hd)]
    rfl

/-! ## ENV_TX_DONE (R167) -/

theorem exec_envTxDone_of_sending {b : Byte} (hf : s.fault = 0) (hen : s.uartEn = true) (hb : s.txbuf = some b) :
    exec .envTxDone s = .next { s with
      utxline := s.utxline ++ [b], txbuf := none, txc := true,
      hist := s.hist ++ [.word .env (encode .envTxDone), .uartline b] } := by
  rw [exec_envTxDone, execEnvTxDone, eventWord_eq hf rfl, if_pos (by simp [hen, hb])]
  simp [hb, State.record, State.emit]

theorem exec_envTxDone_of_idle (hf : s.fault = 0) (h : s.uartEn = false ∨ s.txbuf = none) :
    exec .envTxDone s = .refused .guardFalse := by
  rw [exec_envTxDone, execEnvTxDone, eventWord_eq hf rfl, if_neg]
  obtain h | h := h <;> simp [h]

/-- Settles O44: a byte in TXBUF of an enabled channel is delivered; without one the guard is false. -/
theorem envTxDoneDeliversTheByte : Obligations.EnvTxDoneDeliversTheByte := by
  unfold Obligations.EnvTxDoneDeliversTheByte
  exact fun s hf => ⟨fun b => exec_envTxDone_of_sending hf, exec_envTxDone_of_idle hf⟩

/-! ## ENV_HOST_BYTE and ENV_HOST_TAKE (R168, R172) -/

section
variable {q : Chan}

theorem hostCanSend_iff (hq : Chan.ofId c = some q) :
    s.hostCanSend c = true ↔
      s.hostconn = true ∧ ∀ cap, s.cfg.usbqCap = some cap → (s.inq q).length < cap := by
  rw [State.hostCanSend, hq, Option.all_some, Bool.and_eq_true, hasRoom_iff]

theorem hostCanTake_iff (hq : Chan.ofId c = some q) :
    s.hostCanTake c = true ↔ s.hostconn = true ∧ s.outq q ≠ [] := by
  simp [State.hostCanTake, hq]

/-- The queue is INQ of the channel that the word names. -/
theorem exec_envHostByte_eq (hf : s.fault = 0) (hq : Chan.ofId c = some q) (y : Byte) :
    exec (.envHostByte c y) s =
      if s.hostCanSend c then
        .next { s.setInq q (s.inq q ++ [y]) with hist := s.hist ++ [.word .env (encode (.envHostByte c y))] }
      else .refused .guardFalse := by
  have ho : operandFault (.envHostByte c y) = none := checkIndex_channel_of_some hq
  rw [exec_envHostByte, execEnvHostByte, eventWord_eq hf ho, hq]
  cases q <;> rfl

/-- The queue is OUTQ of the channel that the word names. -/
theorem exec_envHostTake_eq (hf : s.fault = 0) (hq : Chan.ofId c = some q) :
    exec (.envHostTake c) s =
      if s.hostCanTake c then
        .next { s.setOutq q (s.outq q).tail with hist := s.hist ++ [.word .env (encode (.envHostTake c))] }
      else .refused .guardFalse := by
  have ho : operandFault (.envHostTake c) = none := checkIndex_channel_of_some hq
  rw [exec_envHostTake, execEnvHostTake, eventWord_eq hf ho, hq]
  cases q <;> rfl

end

/-- Settles O45: the guard of each word, true and false, on the channel that its id names. -/
theorem hostSendsAndTakesBytes : Obligations.HostSendsAndTakesBytes := by
  unfold Obligations.HostSendsAndTakesBytes
  intro s c y q hf hc
  have hq := Chan.ofId_eq_some hc
  rw [exec_envHostByte_eq hf hq, exec_envHostTake_eq hf hq]
  refine ⟨fun hh hroom => if_pos ((hostCanSend_iff hq).mpr ⟨hh, hroom⟩), fun hno => if_neg ?cannotSend,
    fun z zs hh hz => ?take, fun hno => if_neg ?cannotTake⟩
  case cannotSend =>
    rw [hostCanSend_iff hq]
    rintro ⟨hh, hroom⟩
    obtain hdown | ⟨cap, hcap, hfull⟩ := hno
    · simp [hdown] at hh
    · exact Nat.not_lt.mpr hfull (hroom cap hcap)
  case take =>
    rw [if_pos ((hostCanTake_iff hq).mpr ⟨hh, by simp [hz]⟩), hz, List.tail_cons]
  case cannotTake =>
    rw [hostCanTake_iff hq]
    rintro ⟨hh, hne⟩
    obtain hdown | hempty := hno
    · simp [hdown] at hh
    · exact hne hempty

/-! ## ENV_HOST_CLS, ENV_HOST_CONNECT and ENV_HOST_DISCONNECT (R169 to R171) -/

theorem exec_envHostCls_eq {q : Chan} (hf : s.fault = 0) (hq : Chan.ofId c = some q) (m : Half) :
    exec (.envHostCls c m) s =
      if s.hostconn then
        .next { s with
          evq := s.evq ++ [.clsChg q m], hist := s.hist ++ [.word .env (encode (.envHostCls c m))] }
      else .refused .guardFalse := by
  have ho : operandFault (.envHostCls c m) = none := checkIndex_channel_of_some hq
  rw [exec_envHostCls, execEnvHostCls, eventWord_eq hf ho, hq]
  rfl

theorem exec_envHostConnect_eq (hf : s.fault = 0) :
    exec .envHostConnect s =
      if s.hostconn then .refused .guardFalse
      else .next { s with
        hostconn := true, evq := s.evq ++ [.connect],
        hist := s.hist ++ [.word .env (encode .envHostConnect)] } := by
  rw [exec_envHostConnect, execEnvHostConnect, eventWord_eq hf rfl]
  cases s.hostconn <;> rfl

theorem exec_envHostDisconnect_eq (hf : s.fault = 0) :
    exec .envHostDisconnect s =
      if s.hostconn then .next { s with
        hostconn := false, inq0 := [], inq1 := [], outq0 := [], outq1 := [], evq := s.evq ++ [.disconnect],
        hist := s.hist ++ [.word .env (encode .envHostDisconnect)] }
      else .refused .guardFalse := by
  rw [exec_envHostDisconnect, execEnvHostDisconnect, eventWord_eq hf rfl]
  rfl

/-- Settles O46: HOSTCONN decides which of the three words are steps. -/
theorem hostReportsAndConnection : Obligations.HostReportsAndConnection := by
  unfold Obligations.HostReportsAndConnection
  intro s c m q hf hc
  rw [exec_envHostCls_eq hf (Chan.ofId_eq_some hc), exec_envHostConnect_eq hf, exec_envHostDisconnect_eq hf]
  refine ⟨fun hh => ⟨if_pos hh, if_pos hh, if_pos hh⟩, fun hh => ?_⟩
  have hno : ¬ s.hostconn = true := Bool.eq_false_iff.mp hh
  exact ⟨if_neg hno, if_neg hno, if_neg hno⟩

/-! ## A host event of a channel above 1 -/

/-- Settles O47: the three words share the channel check, which fails. -/
theorem hostEventsOfNoChannelFault : Obligations.HostEventsOfNoChannelFault := by
  unfold Obligations.HostEventsOfNoChannelFault
  intro s c y m i hf hc hi
  have ⟨hclass, hfault⟩ : i.wordClass = .event ∧ operandFault i = some .badChannel := by
    obtain rfl | rfl | rfl := hi <;> exact ⟨rfl, checkIndex_channel_of_lt hc⟩
  exact exec_event_eq_fault hf hclass hfault

end Sys2Proof.Machine
end

section
/-! O38: RETI, a handler's final micro-step (48_system.md R179, 60_exceptions.md R197). -/

namespace Sys2Proof.Machine

variable {s : State} {v : Source}

theorem exec_reti (s : State) : exec .reti s = execReti s := rfl

/-- The foreground is in no handler's final micro-step. -/
theorem atFinalStep_of_fg (hc : s.ctx = .fg) : s.atFinalStep = none := by
  simp [State.atFinalStep, hc]

/-- The return: nothing is restored, because nothing was saved. -/
theorem exec_reti_of_inHandler (h : s.InHandler v (finalStep v)) :
    exec .reti s = .next { s with
      ctx := .fg, hpc := none, hist := s.hist ++ [.word .mux 0x7F000000, .reti v] } := by
  rw [exec_reti, execReti_of_inHandler h, returnFromHandler_eq]

/-- The fault leaves no record of the word (log 8). -/
theorem exec_reti_of_fg (hf : s.fault = 0) (hc : s.ctx = .fg) :
    exec .reti s = .next { s with fault := 0x06, hist := s.hist ++ [.fault 0x06] } := by
  have hraise : execReti s = .next (s.raise .context) := by
    simp [execReti, hf, atFinalStep_of_fg hc]
  rw [exec_reti, hraise, raise_of_faultFree s .context hf]
  rfl

/-- Settles O38: in its place RETI returns from the handler; the foreground has no place for it. -/
theorem retiReturnsToTheForeground : Obligations.RetiReturnsToTheForeground := by
  unfold Obligations.RetiReturnsToTheForeground
  exact fun s v hf => ⟨fun hc hk => exec_reti_of_inHandler ⟨hf, hc, hk⟩, exec_reti_of_fg hf⟩

end Sys2Proof.Machine
end

section
/-! O12, O13, O16: the freeze after a fault (60_exceptions.md R185), reset (70_reset_and_hazards.md R211) and the words
that write an output after bring-up (70_reset_and_hazards.md R229). -/

namespace Sys2Proof.Machine

variable {s : State}

/-! ## The freeze, agent by agent (60_exceptions.md R185, log 12) -/

theorem presentWord_frozen (hf : s.fault ≠ 0) (g : Agent) (w : Word) :
    presentWord g w s = .fault (.frozen s.fault) := if_pos hf

theorem scheduledWord_frozen (hf : s.fault ≠ 0) (g : Agent) (w : Word) :
    scheduledWord g w s = .fault (.frozen s.fault) := by
  cases g with
  | fg => exact if_pos hf
  | mux | sync | env => exact presentWord_frozen hf _ w

theorem scriptStep_frozen (hf : s.fault ≠ 0) : scriptStep s = .fault (.frozen s.fault) := if_pos hf

theorem deliverStep_frozen (hf : s.fault ≠ 0) : deliverStep s = .fault (.frozen s.fault) := if_pos hf

theorem secondStepOfCls_frozen (hf : s.fault ≠ 0) : secondStepOfCls s = .fault (.frozen s.fault) := if_pos hf

theorem muxStep_frozen (hf : s.fault ≠ 0) : muxStep s = .fault (.frozen s.fault) := if_pos hf

/-- Reset is the one turn that a fault leaves. -/
theorem perform_frozen {a : Action} (hf : s.fault ≠ 0) (ha : a ≠ .reset) :
    perform a s = .fault (.frozen s.fault) := by
  cases a with
  | word g w => exact scheduledWord_frozen hf g w
  | script => exact scriptStep_frozen hf
  | deliver => exact deliverStep_frozen hf
  | cb2 => exact secondStepOfCls_frozen hf
  | mux => exact muxStep_frozen hf
  | reset => exact absurd rfl ha

/-- Settles O12: whatever turn comes next is taken with the same FAULT. -/
theorem faultFreezesEveryAgentUntilReset : Obligations.FaultFreezesEveryAgentUntilReset := by
  unfold Obligations.FaultFreezesEveryAgentUntilReset
  intro s hf ha
  obtain ⟨rest, k, hs⟩ := nextAction_state s
  have hstep : step s = perform s.turn { s with sched := rest, round := k } := by
    rw [← hs]
    rfl
  exact hstep.trans (perform_frozen (s := { s with sched := rest, round := k }) hf ha)

/-! ## Reset -/

/-- Settles O13: the model's own fields are those that `resetNow` keeps (log 18). -/
theorem resetSetsEveryField : Obligations.ResetSetsEveryField := by
  unfold Obligations.ResetSetsEveryField
  exact fun s => ⟨s.cfg, s.script, s.sched, s.draws, s.round, rfl⟩

/-! ## Output words after bring-up -/

/-- An output's id is no illegal pin. -/
theorem checkIndex_outPin_of_le {p : Byte} (hlo : 11 ≤ p.toNat) (hhi : p.toNat ≤ 13) :
    checkIndex (OutPin.ofId p).isSome .badPin = none := by
  rw [Laws.OperandChecks.outPin_check, isOutputPin, decide_eq_true_iff]
  exact ⟨hlo, hhi⟩

/-- Settles O16: the operands pass, and the pins are not FG's any more. -/
theorem outputWordsFaultAfterBringUp : Obligations.OutputWordsFaultAfterBringUp := by
  unfold Obligations.OutputWordsFaultAfterBringUp
  intro s p b d m r i hr hboot hlo hhi hi
  have ⟨hclass, hop, hown⟩ : i.wordClass = .software ∧ operandFault i = none ∧ writesOwnedPin i = true := by
    obtain rfl | rfl | rfl | rfl := hi
    · exact ⟨rfl, checkIndex_outPin_of_le hlo hhi, rfl⟩
    · exact ⟨rfl, checkIndex_outPin_of_le hlo hhi, rfl⟩
    · exact ⟨rfl, rfl, rfl⟩
    · exact ⟨rfl, rfl, rfl⟩
  exact exec_software_eq_fault hr hclass (lateFault_of_owned hop hown hboot)

end Sys2Proof.Machine
end

section
/-! O36, O37: which source MUX takes next and what its dispatch does (60_exceptions.md R189 to R195). -/

namespace Sys2Proof.Machine

/-! ## Priority (60_exceptions.md R191 to R194) -/

/-- In a list without repeats, what a search finds is the first that passes. -/
theorem find?_eq_some_iff_of_nodup {α : Type} {p : α → Bool} {l m : List α} {a : α} (hn : (l ++ a :: m).Nodup) :
    (l ++ a :: m).find? p = some a ↔ p a = true ∧ ∀ b ∈ l, p b = false := by
  have ha : a ∉ l := fun h => List.disjoint_of_nodup_append hn h List.mem_cons_self
  rw [List.find?_append, Option.or_eq_some_iff, List.find?_eq_none]
  constructor
  · rintro (h | ⟨hl, hfound⟩)
    · exact absurd (List.mem_of_find?_eq_some h) ha
    · exact ⟨List.find?_some hfound, fun b hb => Bool.eq_false_iff.mpr (hl b hb)⟩
  · rintro ⟨hp, hl⟩
    exact .inr ⟨fun b hb => Bool.eq_false_iff.mp (hl b hb), List.find?_cons_of_pos hp⟩

theorem dispatchable_iff {s : State} {v : Source} : s.dispatchable v = true ↔
    s.requests v = true ∧ s.gie = true ∧ s.ctx = .fg ∧ s.fault = 0 := by
  simp [State.dispatchable, and_assoc]

theorem dispatchable_eq_requests {s : State} (hg : s.gie = true) (hc : s.ctx = .fg) (hf : s.fault = 0) (v : Source) :
    s.dispatchable v = s.requests v := by
  simp [State.dispatchable, hg, hc, hf]

/-- Settles O37: `nextDispatch` is a search in P_IRQ_PRIO. -/
theorem dispatchFollowsThePriority : Obligations.DispatchFollowsThePriority := by
  unfold Obligations.DispatchFollowsThePriority
  intro s before after v requests hreq hprio hnodup
  obtain rfl : requests = s.requests := by
    rw [hreq]
    funext u
    cases u <;> rfl
  rw [State.nextDispatch, hprio, find?_eq_some_iff_of_nodup (hprio ▸ hnodup), dispatchable_iff]
  constructor
  · rintro ⟨⟨hv, hg, hc, hf⟩, hb⟩
    exact ⟨hv, hg, hc, hf, fun u hu => (dispatchable_eq_requests hg hc hf u).symm.trans (hb u hu)⟩
  · rintro ⟨hv, hg, hc, hf, hb⟩
    exact ⟨⟨hv, hg, hc, hf⟩, fun u hu => (dispatchable_eq_requests hg hc hf u).trans (hb u hu)⟩

/-! ## Dispatch (60_exceptions.md R193, R195) -/

/-- An entry word in its place is taken. -/
theorem exec_entryWord_of_nextDispatch {s : State} {v : Source} (hd : s.nextDispatch = some v) :
    exec (entryWord v) s = .next (s.takeInterrupt v) := by
  obtain ⟨-, -, -, -, hf⟩ := nextDispatch_some hd
  rw [exec_entryWord, handlerEntry, if_neg (by simpa using hf), if_pos hd]

/-- Settles O36: what is left to see is the code of each entry word. -/
theorem dispatchEntersTheHandler : Obligations.DispatchEntersTheHandler := by
  unfold Obligations.DispatchEntersTheHandler
  intro s v hd
  rw [exec_entryWord_of_nextDispatch hd, takeInterrupt_eq]
  cases v <;> rfl

end Sys2Proof.Machine
end

section
/-! O58: a handler's way back to the foreground (60_exceptions.md R192, R196). Each micro-step moves HPC on or leaves
the handler, so that no more are left than indices up to the final one. -/

namespace Sys2Proof.Machine

variable {s t : State} {v : Source} {k : Nat}

/-! ## A micro-step moves on -/

/-- What one micro-step does to HPC: nothing where it faults, `none` at the return, and else a later index. -/
inductive MovesOn (s t : State) : Prop
  | faulted (h : t.fault ≠ 0)
  | returned (h : t.hpc = none)
  | advanced {k j : Nat} (hk : s.hpc = some k) (hj : t.hpc = some j) (hlt : k < j)

theorem movesOn_raise (hf : s.fault = 0) (c : FaultCode) : MovesOn s (s.raise c) := by
  refine .faulted ?_
  rw [raise_of_faultFree s c hf]
  exact c.code_ne_zero

theorem execReti_movesOn (h : execReti s = .next t) : MovesOn s t := by
  obtain ⟨hf, ⟨v, -, rfl⟩ | ⟨-, rfl⟩⟩ := execReti_next h
  · exact .returned rfl
  · exact movesOn_raise hf _

theorem modeStepWrite_movesOn (hf : s.fault = 0) (hk : s.hpc = some 1) (h : modeStepWrite s = .next t) :
    MovesOn s t := by
  unfold modeStepWrite at h
  split at h <;> cases h
  · exact .advanced hk rfl (by decide)
  · exact .advanced hk rfl (by decide)
  · exact movesOn_raise hf _

theorem roleStepWrite_movesOn {e : Nat} (hf : s.fault = 0) (hk : s.hpc = some k) (he : k < e)
    (h : roleStepWrite k e s = .next t) : MovesOn s t := by
  obtain ⟨-, rfl⟩ | ⟨-, rfl⟩ | ⟨-, rfl⟩ := roleStepWrite_next h
  · exact .advanced hk rfl k.lt_succ_self
  · exact .advanced hk rfl he
  · exact movesOn_raise hf _

theorem roleStepCompare_movesOn {e : Nat} (hf : s.fault = 0) (hk : s.hpc = some k) (he : k < e)
    (h : roleStepCompare e s = .next t) : MovesOn s t := by
  obtain ⟨b, n, -, -, rfl⟩ | ⟨-, rfl⟩ := roleStepCompare_next h
  · exact .advanced hk rfl he
  · exact movesOn_raise hf _

theorem relayStep_movesOn (hf : s.fault = 0) (hk : s.hpc = some 1) (h : relayStep s = .next t) : MovesOn s t := by
  unfold relayStep at h
  split at h
  · split at h <;> cases h
    · exact .advanced hk rfl (by decide)
    · exact movesOn_raise hf _
  · cases h
    exact movesOn_raise hf _

theorem dropStep_movesOn (hf : s.fault = 0) (hk : s.hpc = some 3) (h : dropStep s = .next t) : MovesOn s t := by
  unfold dropStep at h
  split at h <;> cases h
  · exact .advanced hk rfl (by decide)
  · exact movesOn_raise hf _

/-- GateCLS picks one of two later micro-steps. -/
theorem gate_movesOn (hk : s.hpc = some 0) : MovesOn s (s.setHpc (if s.gateCls = 3 then 1 else 3)) :=
  .advanced hk rfl (by split <;> decide)

theorem microStep_movesOn (hf : s.fault = 0) (h : microStep v s = .next t) : MovesOn s t := by
  cases v with
  | extA =>
    simp only [microStep, microExtA] at h
    split at h
    next hk => cases h; exact .advanced hk rfl (by decide)
    next hk => exact modeStepWrite_movesOn hf hk h
    next hk => cases h; exact .advanced hk rfl (by decide)
    next hk => exact roleStepWrite_movesOn hf hk (by decide) h
    next hk => cases h; exact .advanced hk rfl (by decide)
    next hk => cases h; exact .advanced hk rfl (by decide)
    next hk => exact roleStepCompare_movesOn hf hk (by decide) h
    next => exact execReti_movesOn h
    next => cases h; exact movesOn_raise hf _
  | extB =>
    simp only [microStep, microExtB] at h
    split at h
    next hk => cases h; exact .advanced hk rfl (by decide)
    next hk => exact roleStepWrite_movesOn hf hk (by decide) h
    next hk => cases h; exact .advanced hk rfl (by decide)
    next hk => cases h; exact .advanced hk rfl (by decide)
    next hk => exact roleStepCompare_movesOn hf hk (by decide) h
    next => exact execReti_movesOn h
    next => cases h; exact movesOn_raise hf _
  | tick =>
    simp only [microStep, microTick] at h
    split at h
    next hk => cases h; exact .advanced hk rfl (by decide)
    next hk => cases h; exact .advanced hk rfl (by decide)
    next => exact execReti_movesOn h
    next => cases h; exact movesOn_raise hf _
  | urx =>
    simp only [microStep, microUrx] at h
    split at h
    next hk => cases h; exact gate_movesOn hk
    next hk => exact relayStep_movesOn hf hk h
    next hk => cases h; exact .advanced hk rfl (by decide)
    next hk => exact dropStep_movesOn hf hk h
    next => exact execReti_movesOn h
    next => cases h; exact movesOn_raise hf _
  | utx =>
    simp only [microStep, microUtx] at h
    split at h
    next hk => cases h; exact .advanced hk rfl (by decide)
    next => exact execReti_movesOn h
    next => cases h; exact movesOn_raise hf _

/-! ## The way back -/

theorem hpc_eq_none_of_fg (ho : contextOk s = true) (hc : s.ctx = .fg) : s.hpc = none := by
  unfold contextOk at ho
  cases hk : s.hpc with
  | none => rfl
  | some k => simp [hc, hk] at ho

theorem le_finalStep (ho : contextOk s = true) (h : s.InHandler v k) : k ≤ finalStep v := by
  obtain ⟨-, hc, hk⟩ := h
  obtain ⟨j, hj, hle, -⟩ := (contextOk_of_handler hc).mp ho
  obtain rfl : k = j := Option.some.inj (hk.symm.trans hj)
  exact hle

/-- With unbounded USB queues a micro-step keeps the invariant and leads back to the foreground or to a later index of
the same handler. -/
theorem microStep_returns_or_advances (hs : s.inv = true) (h : s.InHandler v k) (hcap : s.cfg.usbqCap = none) :
    ∃ t, microStep v s = .next t ∧ t.inv = true ∧ t.cfg.usbqCap = none ∧ t.fault = 0
      ∧ (t.ctx = .fg ∨ ∃ j, k < j ∧ t.InHandler v j) := by
  have ⟨hf, hc, hk⟩ := h
  obtain ⟨t, ht, hm⟩ := hasMicroChange_microStep hf hc
  have hchange : Change s .mux t := .micro v t hf hc hm
  have hinv : t.inv = true := hchange.keeps_inv hs
  obtain ⟨-, hok, -⟩ := (inv_iff s).mp hs
  obtain ⟨-, hok', -⟩ := (inv_iff t).mp hinv
  obtain ⟨hfault, hctx⟩ := hm.fault_ctx hc hok (by simp [hasRoom, hcap])
  refine ⟨t, ht, hinv, by rw [hchange.cfg_script.1, hcap], hfault.trans hf, ?_⟩
  obtain hctx | hctx := hctx
  · obtain ⟨j, hj, -⟩ := (contextOk_of_handler hctx).mp hok'
    cases microStep_movesOn hf ht with
    | faulted h => exact absurd (hfault.trans hf) h
    | returned h => cases h.symm.trans hj
    | advanced hk' hj' hlt =>
      cases hk.symm.trans hk'
      exact .inr ⟨_, hlt, hfault.trans hf, hctx, hj'⟩
  · exact .inl hctx

/-- At most `b` steps of MUX lead back to the foreground, without a fault. -/
def State.ReturnsWithin (s : State) (b : Nat) : Prop :=
  ∃ n t, n ≤ b ∧ muxSteps n s = .next t ∧ t.ctx = .fg ∧ t.hpc = none ∧ t.fault = 0

theorem returnsWithin_of_microStep {b : Nat} (h : s.InHandler v k) (hm : microStep v s = .next t)
    (ht : t.ReturnsWithin b) : s.ReturnsWithin (b + 1) := by
  obtain ⟨n, u, hn, hu⟩ := ht
  exact ⟨n + 1, u, Nat.succ_le_succ hn, by rwa [muxSteps_succ h hm]⟩

/-- Induction on a bound of the micro-steps left. -/
theorem returnsWithin_of_inHandler (b : Nat) (hb : finalStep v < k + b) (hs : s.inv = true) (h : s.InHandler v k)
    (hcap : s.cfg.usbqCap = none) : s.ReturnsWithin b := by
  induction b generalizing s k with
  | zero =>
    obtain ⟨-, hok, -⟩ := (inv_iff s).mp hs
    exact absurd (le_finalStep hok h) (Nat.not_le.mpr hb)
  | succ b ih =>
    obtain ⟨t, hm, hinv, hcap', hf, hctx | ⟨j, hj, hj'⟩⟩ := microStep_returns_or_advances hs h hcap
    · obtain ⟨-, hok, -⟩ := (inv_iff t).mp hinv
      exact returnsWithin_of_microStep h hm ⟨0, t, b.zero_le, rfl, hctx, hpc_eq_none_of_fg hok hctx, hf⟩
    · exact returnsWithin_of_microStep h hm (ih (by omega) hinv hj' hcap')

/-- Settles O58: the micro-steps left are those from HPC up to the final one. -/
theorem handlersReturnWithinTheirSteps : Obligations.HandlersReturnWithinTheirSteps := by
  unfold Obligations.HandlersReturnWithinTheirSteps
  intro s v k hs h hcap
  obtain ⟨-, hok, -⟩ := (inv_iff s).mp hs
  have hle := le_finalStep hok h
  obtain ⟨n, t, hn, ht⟩ := returnsWithin_of_inHandler (finalStep v + 1 - k) (by omega) hs h hcap
  exact ⟨n, t, by omega, ht⟩

end Sys2Proof.Machine
end

section
/-! O60: no byte waits in TXBUF for ever (60_exceptions.md R208 (d), 47_environment.md R167). -/

namespace Sys2Proof.Machine

variable {s t : State}

/-- A turn of a run leaves the schedule empty (log 1). -/
theorem stepBy_eq_perform (a : Action) (s : State) : stepBy a s = perform a { s with sched := [] } :=
  step_of_sched (s := { s with sched := [a] }) rfl

/-- ENV's turn ENV_TX_DONE, alone in the schedule, is that word. -/
theorem stepBy_envTxDone (hf : s.fault = 0) :
    stepBy (.word .env (encode .envTxDone)) s = exec .envTxDone { s with sched := [] } := by
  calc stepBy (.word .env (encode .envTxDone)) s
    _ = presentWord .env (encode .envTxDone) { s with sched := [] } := stepBy_eq_perform _ s
    _ = exec .envTxDone { s with sched := [] } :=
        presentWord_eq_exec (s := { s with sched := [] }) hf (fun h => absurd h (by decide)) (decode_encode _)
          ((mayPerform_event rfl).mpr rfl)

/-- The turn takes the byte that waits (47_environment.md R167). -/
theorem txbuf_of_stepBy_envTxDone (hf : s.fault = 0) (hen : s.uartEn = true) (hb : s.txbuf ≠ none)
    (h : stepBy (.word .env (encode .envTxDone)) s = .next t) : t.txbuf = none := by
  obtain ⟨b, hb⟩ := Option.ne_none_iff_exists'.mp hb
  rw [stepBy_envTxDone hf, exec_envTxDone_of_sending (s := { s with sched := [] }) hf hen hb] at h
  cases h
  rfl

/-- Settles O60: were the byte to wait for ever, fairness would bring the ENV_TX_DONE that takes it. -/
theorem fairRunsEndTransmissions : Obligations.FairRunsEndTransmissions := by
  unfold Obligations.FairRunsEndTransmissions
  intro o r hfair n _ _
  by_contra hnever
  have hwaits (m : Nat) (hm : n ≤ m) : (r m).uartEn = true ∧ (r m).txbuf ≠ none :=
    ⟨by_contra fun hen => hnever ⟨m, hm, .inr (Bool.eq_false_iff.mpr hen)⟩, fun hb => hnever ⟨m, hm, .inl hb⟩⟩
  obtain ⟨hdone, -⟩ := hfair.env
  obtain ⟨m, hm, ho⟩ := hdone n hwaits
  obtain ⟨hen, hb⟩ := hwaits m hm
  obtain ⟨-, hb'⟩ := hwaits (m + 1) (by omega)
  have hstep := hfair.run m
  rw [ho] at hstep
  exact hb' (txbuf_of_stepBy_envTxDone (hfair.faultFree m) hen hb hstep)

end Sys2Proof.Machine
end
